-- ==== Sys2Proof/Word.lean ====
section
/-! DEFINITION. The word types of the block (spec/10_state.md R10, R37 to R41; spec/20_memory.md R50). -/

namespace Sys2Proof

/-- A register, a command word or an OUTBUF group word: 32 bits (R10, R41, R71). -/
abbrev Word := BitVec 32

/-- A MSGBUF or SYMBUF element: 8 bits (R37, R38). -/
abbrev Byte := BitVec 8

/-- A TXBUF or RXBUF element: a 16-bit two's-complement pattern (R39, R40, R53). -/
abbrev Sample := BitVec 16

end Sys2Proof
end

