-- ==== Sys2Proof/Config.lean ====
section
/-! DEFINITION. Constants the source fixes (spec/00_scope.md R5), parameters the spec leaves OPEN (R6), and the
free values (opaque constants without a body: nothing can be proved of what they are). -/

namespace Sys2Proof

/-- How SAMPLE and PEAK are evaluated: the OPEN parameter NUM (spec/00_scope.md R6, spec/40_generator.md R94,
spec/42_detector.md R126). `reference` is exact real arithmetic; `circuit k` stands for a finite-precision circuit, an
uninterpreted one for each `k` (DESIGN CHOICE, notes/assumptions/2.md). -/
inductive Numerics
  | reference
  | circuit (k : Nat)
deriving DecidableEq, Repr

/-- The OPEN parameters of spec/00_scope.md R6 that the block's behaviour depends on. The bounds of R6 (2^32 - 1, and
2^29 - 1 for RX_DEPTH) are in the types. No command and no reset changes them (spec/10_state.md R44). -/
structure Config where
  msgDepth : Fin (2 ^ 32)
  symDepth : Fin (2 ^ 32)
  txDepth  : Fin (2 ^ 32)
  rxDepth  : Fin (2 ^ 29)
  outDepth : Fin (2 ^ 32)
  num      : Numerics
deriving DecidableEq, Repr

/-- Every depth at its upper limit, as R6 allows a model to take them, and the reference instance of NUM
(DESIGN CHOICE, notes/assumptions/1.md and 2.md). -/
def Config.limits : Config where
  msgDepth := ⟨4294967295, by decide⟩
  symDepth := ⟨4294967295, by decide⟩
  txDepth  := ⟨4294967295, by decide⟩
  rxDepth  := ⟨536870911, by decide⟩
  outDepth := ⟨4294967295, by decide⟩
  num      := .reference

/-! ### Constants of R5 and ACC_BITS of R6 -/

def Config.srDefault : Nat := 44100
def Config.amp : Nat := 32767
def Config.fZero : Nat := 36
def Config.fOne : Nat := 196
def Config.fSil : Nat := 0
def Config.dBit : Nat := 250
def Config.dSil : Nat := 500
def Config.wMs : Nat := 125
def Config.wDiv : Nat := 8
def Config.fThr : Nat := 100
def Config.accBits : Nat := 24

/-! ### Free values -/

/-- What the sine of circuit `k` gives for (f, n, sr), before the properties R94 asks of every admitted instance are
imposed on it (`Machine.numSample`). -/
opaque Config.circuitSample : Nat → Nat → Nat → Nat → Int

/-- What the peak search of circuit `k` gives for a slice, before the properties R126 asks of every admitted instance
are imposed on it (`Machine.numPeak`). -/
opaque Config.circuitPeak : Nat → List Int → Nat

/-- Stands for the reference value of `32767 * sin(pi * u / b)` should the enclosures of `Machine.sineSearch` not
settle it at their last precision (notes/assumptions/3.md). -/
opaque Config.openSine : Nat → Nat → Nat

/-- Stands for the reference peak of a slice should `Machine.peakSearch` not settle it at its last precision
(notes/assumptions/3.md). -/
opaque Config.openPeak : List Int → Nat

end Sys2Proof
end

