-- ==== Sys2Proof/Syntax.lean ====
section
/-! DEFINITION. The syntax: the eight rows of spec/opcode_table.json, their coded form (spec/30_encoding.md R70), the
host operations (spec/44_system.md R155 to R160) and the host notation (spec/30_encoding.md R82, R83). -/

namespace Sys2Proof

/-- One constructor per row of spec/opcode_table.json. No row has an operand field (R71, R74). -/
inductive Instr
  /-- GEN: one tone segment into TXBUF (R95). -/
  | gen
  /-- SCR: message bytes to symbol text (R101). -/
  | scr
  /-- ENC: symbol text to waveform (R105). -/
  | enc
  /-- DET: dominant frequency and class of one window (R127). -/
  | det
  /-- DEC: decode the whole of RXBUF (R145). -/
  | dec
  /-- SYM_ZERO: the symbol '0' (R102). -/
  | symZero
  /-- SYM_ONE: the symbol '1' (R103). -/
  | symOne
  /-- SYM_SILENCE: the symbol ' ' (R104). -/
  | symSilence
deriving DecidableEq, Repr

/-- A coded item in one of the two formats of R70. -/
inductive Code
  /-- Format CMD32: the word written to CMD (R71). -/
  | cmd32 (w : Word)
  /-- Format SYM8: one element of SYMBUF (R74). -/
  | sym8 (c : Byte)
deriving DecidableEq, Repr

/-- Why a coded item is no instruction. -/
inductive Reject
  /-- A command word other than the five of R72 (R73). -/
  | illegalCommand (w : Word)
  /-- A character code other than the three of R75 (R76). -/
  | illegalSymbol (c : Byte)
deriving DecidableEq, Repr

/-- The five buffer spaces (spec/20_memory.md R50). -/
inductive BufId
  | msg
  | sym
  | tx
  | rx
  | out
deriving DecidableEq, Repr

/-- The element width of a buffer space in bits (R50). -/
def BufId.width : BufId → Nat
  | .msg => 8
  | .sym => 8
  | .tx => 16
  | .rx => 16
  | .out => 32

/-- The four operations of the host (spec/44_system.md R155 to R159); there is no other (R160). A value is as wide as
the register or element it is for, so a wider one cannot be presented (R156, R51). -/
inductive HostOp
  | regRead (i : Fin 32)
  | regWrite (i : Fin 32) (v : Word)
  | bufRead (b : BufId) (j : Nat)
  | bufWrite (b : BufId) (j : Nat) (v : BitVec b.width)
deriving DecidableEq, Repr

/-- What can reach the block from outside: a host operation, or the hard reset asserted by the platform (R190). -/
inductive Input
  | host (op : HostOp)
  | hardReset
deriving DecidableEq, Repr

/-- What the host does between TXBUF and RXBUF: the OPEN host parameter XFER (spec/20_memory.md R57). -/
inductive Xfer
  | identity
  | decimate2
deriving DecidableEq, Repr

/-- One line of the host notation (R82) or pseudo-command (R83). Values are the numbers as a listing writes them; which
of them can be presented to the block is `Line.wf`. `xfer` and `decode` also read the block's state. -/
inductive Line
  | wr (i : Fin 32) (v : Nat)
  | rd (i : Fin 32)
  | st (b : BufId) (j : Nat) (vs : List Nat)
  | ld (b : BufId) (j : Nat)
  | cmd (i : Instr)
  | message (codePoints : List Nat)
  | symbols (codes : List Nat)
  | encode (codePoints : List Nat)
  | tone (f d : Nat)
  | win (a b : Nat)
  | strict (on : Bool)
  | softReset
  | xfer (x : Xfer)
  | decode
deriving DecidableEq, Repr

end Sys2Proof
end

