-- ==== Sys2Proof/WellFormed.lean ====
section
/-! DEFINITION. Which terms of the syntax the spec admits. An instruction has no operand field, so every constructor of
`Instr` is admitted; the checks concern the host notation (spec/30_encoding.md R82, R83). -/

namespace Sys2Proof

/-- An instruction is admitted when its operand fields are; no row of the opcode table has one (R71, R74). -/
def Instr.wf : Instr → Bool
  | .gen => true
  | .scr => true
  | .enc => true
  | .det => true
  | .dec => true
  | .symZero => true
  | .symOne => true
  | .symSilence => true

/-- The instructions of format CMD32: those a word written to CMD can select (R72). -/
def Instr.isCommand : Instr → Bool
  | .gen => true
  | .scr => true
  | .enc => true
  | .det => true
  | .dec => true
  | .symZero => false
  | .symOne => false
  | .symSilence => false

/-- A 32-bit value: a wider one cannot be presented (spec/44_system.md R156). -/
def fitsWord (v : Nat) : Bool := v < 2 ^ 32

/-- An 8-bit character code: the notation refuses any other (R83, spec/93_implementation_defined.md U4). -/
def fitsByte (v : Nat) : Bool := v < 2 ^ 8

/-- The buffers `st` may name: those the host may write (R82, R50). -/
def BufId.hostWritable : BufId → Bool
  | .msg => true
  | .sym => true
  | .tx => false
  | .rx => true
  | .out => false

/-- Can this line be presented to the block? -/
def Line.wf : Line → Bool
  | .wr _ v => fitsWord v
  | .rd _ => true
  | .st b _ vs => b.hostWritable && vs.all fun v => v < 2 ^ b.width
  | .ld _ _ => true
  | .cmd i => i.isCommand
  | .message cs => cs.all fitsByte && fitsWord cs.length
  | .symbols cs => cs.all fitsByte && fitsWord cs.length
  | .encode cs => cs.all fitsByte && fitsWord cs.length
  | .tone f d => fitsWord f && fitsWord d
  | .win a b => fitsWord a && fitsWord b
  | .strict _ => true
  | .softReset => true
  | .xfer _ => true
  | .decode => true

end Sys2Proof
end

