-- ==== Sys2Proof/Decode.lean ====
section
/-! DEFINITION. Decoding and encoding, both read from the tables of spec/30_encoding.md R72 and R75. -/

namespace Sys2Proof

/-- The command words of R72, in the order of the table (mask 0xFFFFFFFF: the whole word is compared). -/
def commandRows : List (Word × Instr) :=
  [(0x00000001, .gen), (0x00000002, .scr), (0x00000003, .enc), (0x00000004, .det), (0x00000005, .dec)]

/-- The symbol codes of R75 (mask 0xFF: the whole character is compared). -/
def symbolRows : List (Byte × Instr) :=
  [(0x30, .symZero), (0x31, .symOne), (0x20, .symSilence)]

/-- The instruction of the row whose code is `c`. -/
def lookupRow {w : Nat} (rows : List (BitVec w × Instr)) (c : BitVec w) : Option Instr :=
  match rows with
  | [] => none
  | r :: rest => if r.1 = c then some r.2 else lookupRow rest c

/-- Command decode: the five words of R72, every other word illegal (R73). -/
def decodeCommand (w : Word) : Except Reject Instr :=
  match lookupRow commandRows w with
  | some i => .ok i
  | none => .error (.illegalCommand w)

/-- Symbol decode: the three codes of R75, every other code illegal (R76). -/
def decodeSymbol (c : Byte) : Except Reject Instr :=
  match lookupRow symbolRows c with
  | some i => .ok i
  | none => .error (.illegalSymbol c)

/-- Decoding, total on both formats (R70): the length of an item never depends on its content. -/
def decode : Code → Except Reject Instr
  | .cmd32 w => decodeCommand w
  | .sym8 c => decodeSymbol c

/-- The coded form of an instruction (R72, R75). -/
def encode : Instr → Code
  | .gen => .cmd32 0x00000001
  | .scr => .cmd32 0x00000002
  | .enc => .cmd32 0x00000003
  | .det => .cmd32 0x00000004
  | .dec => .cmd32 0x00000005
  | .symZero => .sym8 0x30
  | .symOne => .sym8 0x31
  | .symSilence => .sym8 0x20

/-- A row of the opcode table as the block meets it: an 8-bit row is a character of SYMBUF, any other a word for CMD. -/
def tableCode (nbits w : Nat) : Code :=
  if nbits = 8 then .sym8 (BitVec.ofNat 8 w) else .cmd32 (BitVec.ofNat 32 w)

/-- The instruction the decoder reads from an instruction of `nbits` bits whose bits are `w`. -/
def decodeTableWord (nbits w : Nat) : Option Instr :=
  match decode (tableCode nbits w) with
  | .ok i => some i
  | .error _ => none

end Sys2Proof
end

