-- ==== Sys2Proof/Machine/State.lean ====
section
/-! DEFINITION. The state of the block as plain data (spec/10_state.md), the reasons a step can stop, and the state
after reset (R45, R190, R191). -/

namespace Sys2Proof.Machine

/-- A buffer space: (element index, element), indices strictly rising, in ONE canonical form; an index that is not
listed holds no value (spec/10_state.md R42, R45; notes/assumptions/15.md). -/
abbrev Buf (w : Nat) := List (Nat × BitVec w)

/-- The five buffer spaces (spec/20_memory.md R50). -/
structure Memory where
  /-- MSGBUF (R37): bytes, that is a list of `Host.Cell`. -/
  msg : Buf 8
  /-- SYMBUF (R38). -/
  sym : Buf 8
  /-- TXBUF (R39). -/
  tx : Buf 16
  /-- RXBUF (R40). -/
  rx : Buf 16
  /-- OUTBUF (R41). -/
  out : Buf 32
deriving DecidableEq, Repr

/-- Elements the host has written since the last reset, for the three buffers it may write: sets of element indices, each
kept as a buffer of elements of no bits. -/
structure Marks where
  msg : Buf 0
  sym : Buf 0
  rx : Buf 0
deriving DecidableEq, Repr

/-- The faults the block records (spec/60_exceptions.md R165). -/
inductive Cause
  | invalidSymbol
  | malformedBitGroup
  | unclassifiedFrequency
  | contractViolation
  | bufferOverflow
  | groupOverflow
  | illegalCommand
deriving DecidableEq, Repr

/-- The command a fault ends, or none at command issue: what fault entry discards depends on it (R174). -/
inductive Running
  | issue
  | gen
  | scr
  | enc
  | det
  | dec
deriving DecidableEq, Repr

/-- All state of the block (spec/10_state.md R10 to R41, R43). Bits that always read 0 are not stored. -/
structure State where
  /-- The model's own field: the OPEN parameters of spec/00_scope.md R6, which no step changes (R44;
  notes/assumptions/1.md, 2.md). -/
  cfg : Config
  /-- STATUS[0] (R12). -/
  faultFlag : Bool
  /-- STATUS[1], SKIP_NEXT_WINDOW (R12). -/
  skip : Bool
  /-- CTRL[0] (R13). -/
  strict : Bool
  /-- FAULTCODE[7:0] (R14). -/
  faultCode : BitVec 8
  /-- FAULTINFO (R15). -/
  faultInfo : Word
  /-- SRATE, Hz (R16). -/
  srate : Word
  /-- FREQ, Hz (R17). -/
  freq : Word
  /-- DUR, ms (R18). -/
  dur : Word
  /-- WSTART, ms (R19). -/
  wstart : Word
  /-- WEND, ms (R20). -/
  wend : Word
  /-- MSGLEN (R21). -/
  msglen : Word
  /-- SYMLEN (R22). -/
  symlen : Word
  /-- TXLEN (R23). -/
  txlen : Word
  /-- RXLEN (R24). -/
  rxlen : Word
  /-- OUTLEN (R25). -/
  outlen : Word
  /-- DBIN (R26). -/
  dbin : Word
  /-- DLEN (R27). -/
  dlen : Word
  /-- DCLASS[1:0] (R28). -/
  dclass : BitVec 2
  /-- SYMPOS (R29). -/
  sympos : Word
  /-- WIDX (R30). -/
  widx : Word
  /-- WTOTAL (R31). -/
  wtotal : Word
  /-- ACC.LEN (R32). -/
  accLen : BitVec 5
  /-- ACC.VAL (R32). -/
  accVal : BitVec 24
  /-- The five buffer spaces (R37 to R41). -/
  mem : Memory
  /-- The model's own field: `out` of spec/41_encoder.md section 2 while an ENC is in progress, none between commands
  (notes/assumptions/6.md). -/
  encOut : Option Nat
  /-- The model's own field: what has not yet reached the block from outside, first one first
  (notes/assumptions/4.md). -/
  pending : List Input
  /-- The model's own field: has SCR run since power-on or the last hard reset? From then on the elements of SYMBUF at
  and above SYMLEN are without value for the host (R42; notes/assumptions/10.md). -/
  scrRan : Bool
  /-- The model's own field: what the host has written since the last reset, hard or soft. After a soft reset an element
  is valid again once the host has written it or its length register (spec/44_system.md R158; notes/assumptions/10.md). -/
  marks : Marks
  /-- The model's own field: the value the last host read returned, none where it returned none
  (notes/assumptions/5.md). -/
  reply : Option Word
deriving DecidableEq, Repr

/-- Why the machine stops with a fault. The faults of the SPEC are recorded in registers and are next states
(`Machine.faultEntry`). -/
inductive Fault
  /-- Raised by SCR, ENC, DET, DEC and a host BufRead on reading element `j` of `b` when nothing has written it since
  power-on: it holds no value, and a model faults or refuses the run (spec/10_state.md R42;
  spec/93_implementation_defined.md U11). SAFE. -/
  | noValue (b : BufId) (j : Nat)
deriving DecidableEq, Repr

/-- Why the machine refuses to go on. -/
inductive Refusal
  /-- Raised by no meaning of this model: an instruction without a meaning, rejected by its mnemonic in exec. SAFE. -/
  | notModelled (mnemonic : String)
  /-- Raised by a host BufRead of element `j` of `b` at or above the length register where it is without value for the
  host: in TXBUF and OUTBUF, in SYMBUF after SCR, and after a soft reset where the host has not written it again (R42,
  R45, R158, U11; notes/assumptions/10.md). SAFE. -/
  | notValid (b : BufId) (j : Nat)
deriving DecidableEq, Repr

/-- The contents of the five buffers after a hard reset or power-on: no element has a value (R45, R190). -/
def Memory.empty : Memory where
  msg := []
  sym := []
  tx := []
  rx := []
  out := []

/-- Nothing is marked. -/
def Marks.empty : Marks where
  msg := []
  sym := []
  rx := []

/-- The machine right after a hard reset: R45 and R191 for every register and buffer; the model's own fields as
notes/assumptions/1.md, 2.md, 4.md, 5.md, 6.md and 10.md say. -/
def State.reset : State where
  cfg := Config.limits
  faultFlag := false
  skip := false
  strict := false
  faultCode := 0
  faultInfo := 0
  srate := 44100
  freq := 0
  dur := 0
  wstart := 0
  wend := 0
  msglen := 0
  symlen := 0
  txlen := 0
  rxlen := 0
  outlen := 0
  dbin := 0
  dlen := 0
  dclass := 0
  sympos := 0
  widx := 0
  wtotal := 0
  accLen := 0
  accVal := 0
  mem := Memory.empty
  encOut := none
  pending := []
  scrRan := false
  marks := Marks.empty
  reply := none

end Sys2Proof.Machine
end

