-- ==== Sys2Proof/Machine/Ops.lean ====
section
/-! DEFINITION. The shared operations: element access, fault entry and the recovery from a fault. -/

namespace Sys2Proof.Machine

/-! ### Elements of a buffer (spec/20_memory.md R50, R51) -/

/-- MemRead of element `j`: none where it holds no value (R42). -/
def Buf.read {w : Nat} (b : Buf w) (j : Nat) : Option (BitVec w) :=
  match b with
  | [] => none
  | e :: rest => if e.1 = j then some e.2 else Buf.read rest j

/-- The elements `start`, `start + 1`, ... with the values `vs`. -/
def Buf.run {w : Nat} (start : Nat) (vs : List (BitVec w)) : Buf w :=
  match vs with
  | [] => []
  | v :: rest => (start, v) :: Buf.run (start + 1) rest

/-- MemWrite of the elements `start`, `start + 1`, ... with the values `vs`, in index order; every other element is
left as it is. -/
def Buf.store {w : Nat} (b : Buf w) (start : Nat) (vs : List (BitVec w)) : Buf w :=
  b.filter (fun e => e.1 < start) ++ Buf.run start vs ++ b.filter (fun e => start + vs.length ≤ e.1)

/-- The values of the `n` elements from `start` on, or the first index among them that holds no value. -/
def Buf.readRun {w : Nat} (b : Buf w) (start n : Nat) : Except Nat (List (BitVec w)) :=
  match n with
  | 0 => .ok []
  | n + 1 =>
    match Buf.read b start with
    | none => .error start
    | some v =>
      match Buf.readRun b (start + 1) n with
      | .error j => .error j
      | .ok vs => .ok (v :: vs)

/-- The indices are strictly rising. -/
abbrev Buf.Rising {w : Nat} (b : Buf w) : Prop := b.Pairwise fun x y => x.1 < y.1

/-- The canonical form of the five buffers: strictly rising indices. An unlisted element reads as no value, so no entry
can equal what an unlisted element reads as. -/
abbrev Memory.wf (m : Memory) : Prop :=
  m.msg.Rising ∧ m.sym.Rising ∧ m.tx.Rising ∧ m.rx.Rising ∧ m.out.Rising

/-- The depth of a buffer space (spec/00_scope.md R6). -/
def depthOf (c : Config) : BufId → Nat
  | .msg => c.msgDepth.val
  | .sym => c.symDepth.val
  | .tx => c.txDepth.val
  | .rx => c.rxDepth.val
  | .out => c.outDepth.val

/-- Element `j` of space `b`. -/
def Memory.read (m : Memory) : (b : BufId) → (j : Nat) → Option (BitVec b.width)
  | .msg, j => m.msg.read j
  | .sym, j => m.sym.read j
  | .tx, j => m.tx.read j
  | .rx, j => m.rx.read j
  | .out, j => m.out.read j

/-- Has the host written element `j` of `b` since the last reset? TXBUF and OUTBUF it cannot write (R159). -/
def Marks.has (m : Marks) (b : BufId) (j : Nat) : Bool :=
  match b with
  | .msg => (m.msg.read j).isSome
  | .sym => (m.sym.read j).isSome
  | .tx => false
  | .rx => (m.rx.read j).isSome
  | .out => false

/-! ### Fault entry (spec/60_exceptions.md R174) and recovery -/

/-- FAULTCODE of a cause (R165). -/
def Cause.code : Cause → BitVec 8
  | .invalidSymbol => 1
  | .malformedBitGroup => 2
  | .unclassifiedFrequency => 3
  | .contractViolation => 4
  | .bufferOverflow => 5
  | .groupOverflow => 6
  | .illegalCommand => 7

/-- The outputs of the running command are discarded (R174). -/
def discardOutputs (r : Running) (s : State) : State :=
  match r with
  | .issue => s
  | .gen => { s with txlen := 0 }
  | .scr => { s with symlen := 0, scrRan := true }
  | .enc => { s with txlen := 0 }
  | .det => { s with dbin := 0, dlen := 0, dclass := 0 }
  | .dec => { s with outlen := 0 }

/-- `raise F(info)`: discard, record, set STATUS.FAULT; the command ends and all else keeps its value (R174). -/
def faultEntry (r : Running) (c : Cause) (info : Nat) (s : State) : State :=
  { discardOutputs r s with
    faultCode := c.code
    faultInfo := BitVec.ofNat 32 info
    faultFlag := true
    encOut := none }

/-- There is no return from a fault (R176); what clears it is a reset. Every register takes its reset value (R158,
R45); the buffers, the parameters, what is still pending and the last reply stay. No element is valid any more (R45):
every length register is 0, nothing is marked, and SCR's remains in SYMBUF are still remains (R42). -/
def softReset (s : State) : State :=
  { State.reset with cfg := s.cfg, mem := s.mem, pending := s.pending, scrRan := s.scrRan, reply := s.reply }

/-- The hard reset input: as the soft reset, and no buffer element has a value any more (R190). -/
def hardReset (s : State) : State :=
  { softReset s with mem := Memory.empty, scrRan := false }

end Sys2Proof.Machine
end

