-- ==== Sys2Proof/Machine/Flags.lean ====
section
/-! DEFINITION. The flags and the registers made of bit fields as the host reads them. No arithmetic result sets a flag
(spec/10_state.md R36). -/

namespace Sys2Proof.Machine

/-- STATUS: FAULT in bit 0, SKIP in bit 1, bits 31:2 read 0 (R12). -/
def statusWord (s : State) : Word :=
  (BitVec.ofBool s.faultFlag).setWidth 32 ||| ((BitVec.ofBool s.skip).setWidth 32 <<< 1)

/-- CTRL: STRICT in bit 0; bits 30:1 and SRST read 0 (R13). -/
def ctrlWord (s : State) : Word := (BitVec.ofBool s.strict).setWidth 32

/-- A group word: LEN in bits 28:24, VAL in bits 23:0, bits 31:29 zero (spec/30_encoding.md R78). -/
def pack (len val : Nat) : Word := BitVec.ofNat 32 (len * 2 ^ 24 + val)

/-- LEN of a group word (R78). -/
def groupLen (g : Word) : Nat := (g.extractLsb' 24 5).toNat

/-- VAL of a group word (R78). -/
def groupVal (g : Word) : Nat := (g.extractLsb' 0 24).toNat

/-- ACC as the host reads it (R32). -/
def accWord (s : State) : Word := pack s.accLen.toNat s.accVal.toNat

/-- ACC <- (0, 0). -/
def emptyAcc (s : State) : State := { s with accLen := 0, accVal := 0 }

end Sys2Proof.Machine
end

