-- ==== Sys2Proof/Machine/Operands.lean ====
section
/-! DEFINITION. The integer functions of the commands: COUNT (spec/40_generator.md R90), BITS8 and SCRAMBLE
(spec/41_encoder.md R100), SLICE and CLASSIFY (spec/42_detector.md R120, R125), WTOTAL (spec/43_decoder.md R136). All are
exact (spec/45_arithmetic_and_sequencing.md R200). -/

namespace Sys2Proof.Machine

/-- `rne(num / den)` for `den > 0`: the nearest integer, a tie to the even one (spec/00_scope.md R7). -/
def rneDiv (num den : Nat) : Nat :=
  let q := num / den
  let r := num % den
  if 2 * r < den then q
  else if den < 2 * r then q + 1
  else if q % 2 = 0 then q else q + 1

/-- COUNT: the number of samples of a segment of `d` ms (R90). -/
def count (sr d : Nat) : Nat := rneDiv (sr * d) 1000

/-- The character code of one bit of a byte: '0' or '1' (R100). -/
def bitChar (b : Byte) (i : Nat) : Byte := if b.getLsbD i then 0x31 else 0x30

/-- BITS8: eight character codes, most significant bit first (R100, spec/30_encoding.md R79). -/
def bits8 (b : Byte) : List Byte :=
  [bitChar b 7, bitChar b 6, bitChar b 5, bitChar b 4, bitChar b 3, bitChar b 2, bitChar b 1, bitChar b 0]

/-- SCRAMBLE: the groups of the bytes, one space between neighbours (R100). -/
def scramble (m : List Byte) : List Byte :=
  match m with
  | [] => []
  | b :: rest =>
    match rest with
    | [] => bits8 b
    | _ :: _ => bits8 b ++ 0x20 :: scramble rest

/-- The length of SCRAMBLE of `n` bytes (R100; `need` in R101). -/
def symbolsNeeded (n : Nat) : Nat := if n = 0 then 0 else 9 * n - 1

/-- SLICE: first index and number of samples of the window from `a` to `b` ms in a buffer of `len` samples (R120). -/
def slice (sr a b len : Nat) : Nat × Nat :=
  let lo := min (a * sr / 1000) len
  let hi := min (b * sr / 1000 + 1) len
  (lo, hi - lo)

/-- The classes of a dominant frequency (spec/30_encoding.md R77). -/
inductive ToneClass
  | silence
  | zero
  | one
  | unclassified
deriving DecidableEq, Repr

/-- The class code of DCLASS[1:0] (R77). -/
def ToneClass.code : ToneClass → BitVec 2
  | .silence => 0
  | .zero => 1
  | .one => 2
  | .unclassified => 3

/-- CLASSIFY: the class of bin `k` of a slice of `n` samples at rate `sr`, on exact integers (R125). -/
def classify (k n sr : Nat) : ToneClass :=
  if k = 0 then .silence
  else if k * sr < Config.fThr * n then .zero
  else if Config.fThr * n < k * sr then .one
  else .unclassified

/-- The number of whole decoder windows (R136). -/
def windowCount (rxlen sr : Nat) : Nat := Config.wDiv * rxlen / sr

end Sys2Proof.Machine
end

