-- ==== Sys2Proof/Machine/Numerics.lean ====
section
/-! DEFINITION. NUM: how SAMPLE (spec/40_generator.md R91, R94) and PEAK (spec/42_detector.md R122, R123, R126) are
evaluated. The reference instance is exact: every value it gives is settled by integer enclosures of the real numbers
in the rules, at a precision that is doubled until they settle it (notes/assumptions/3.md). -/

namespace Sys2Proof.Machine

/-! ### Enclosures of alternating sums

`t j` is the integer part of the scaled term `a j` of `a 0 - a 1 + a 2 - ...`, with `a` falling to 0. -/

/-- A lower bound: `2 * n` terms, each rounded against the sum. -/
def altLower (t : Nat → Nat) : Nat → Int
  | 0 => 0
  | n + 1 => altLower t n + (t (2 * n) : Int) - ((t (2 * n + 1) : Int) + 1)

/-- The same `2 * n` terms, each rounded towards the sum. -/
def altPairs (t : Nat → Nat) : Nat → Int
  | 0 => 0
  | n + 1 => altPairs t n + ((t (2 * n) : Int) + 1) - (t (2 * n + 1) : Int)

/-- An upper bound: one term more. -/
def altUpper (t : Nat → Nat) (n : Nat) : Int := altPairs t n + ((t (2 * n) : Int) + 1)

/-! ### pi and the sine, scaled by `2 ^ p` -/

/-- Term `j` of `arctan (1 / k)`. -/
def arctanTerm (p k j : Nat) : Nat := 2 ^ p / ((2 * j + 1) * k ^ (2 * j + 1))

/-- `pi = 16 arctan (1/5) - 4 arctan (1/239)`, from below. -/
def piLower (p : Nat) : Nat :=
  (16 * altLower (arctanTerm p 5) (p / 8 + 1) - 4 * altUpper (arctanTerm p 239) (p / 16 + 1)).toNat

/-- The same, from above. -/
def piUpper (p : Nat) : Nat :=
  (16 * altUpper (arctanTerm p 5) (p / 8 + 1) - 4 * altLower (arctanTerm p 239) (p / 16 + 1)).toNat

/-- Term `j` of `sin (x / 2 ^ p)`. -/
def sineTerm (p x j : Nat) : Nat := x ^ (2 * j + 1) / ((2 ^ p) ^ (2 * j) * (2 * j + 1).factorial)

/-- How many pairs of terms of the sine are summed at precision `p`. -/
def sinePairs (p : Nat) : Nat := p / 16 + 4

/-- An enclosure of `2 ^ p * sin (pi * u / b)`, for `2 * u ≤ b`: the angle from below and from above, the sine of the
lower angle, and the width of the angle on top (the sine rises no faster than its argument). -/
def sineEnclosure (p u b : Nat) : Int × Int :=
  let lo := piLower p * u / b
  let hi := piUpper p * u / b + 1
  (altLower (sineTerm p lo) (sinePairs p),
    altUpper (sineTerm p lo) (sinePairs p) + ((hi : Int) - (lo : Int)))

/-! ### SAMPLE -/

/-- The integer nearest to `a * (x / 2 ^ p)` for every `x` of an enclosure, if there is one and no tie is possible. -/
def roundEnclosure (p a : Nat) (e : Int × Int) : Option Nat :=
  let s : Int := 2 ^ p
  let m : Int := (2 * a * e.1 + s) / (2 * s)
  if (2 * m - 1) * s < 2 * a * e.1 ∧ 2 * a * e.2 < (2 * m + 1) * s then some m.toNat else none

/-- `rne (32767 * sin (pi * u / b))` by enclosures, the precision doubled until one settles it. -/
def sineSearch (fuel p u b : Nat) : Option Nat :=
  match fuel with
  | 0 => none
  | fuel + 1 =>
    match roundEnclosure p Config.amp (sineEnclosure p u b) with
    | some m => some m
    | none => sineSearch fuel (2 * p) u b

/-- The first precision, in bits, and how often it may double. -/
def firstPrecision : Nat := 64
def precisionSteps : Nat := 64

/-- `rne (32767 * sin (pi * u / b))` for `2 * u ≤ b`. The sine is rational only at 0, 1/2 and 1, the second a tie that
goes to the even integer (R92 items 5 and 7). -/
def sineMagnitude (u b : Nat) : Nat :=
  if u = 0 then 0
  else if 2 * u = b then Config.amp
  else if 6 * u = b then 16384
  else match sineSearch precisionSteps firstPrecision u b with
    | some m => m
    | none => Config.openSine u b

/-- `rne (32767 * sin (2 * pi * a / b))` for `2 * a ≤ b`: the angle folded into the first quarter turn. -/
def halfTurn (a b : Nat) : Nat := if 4 * a ≤ b then sineMagnitude (2 * a) b else sineMagnitude (b - 2 * a) b

/-- SAMPLE of the reference instance (R91), by the phase `(f * n) mod sr` (R92 item 4) and the odd symmetry of the sine
(R92 item 6). -/
def referenceSample (f n sr : Nat) : Int :=
  let a := f * n % sr
  if 2 * a ≤ sr then (halfTurn a sr : Int) else -(halfTurn (sr - a) sr : Int)

/-- NUM.sample (R94): the chosen instance, with the three properties every admitted instance keeps (R92 items 1 to 3). -/
def numSample (num : Numerics) (f n sr : Nat) : Int :=
  if f = 0 ∨ n = 0 then 0
  else
    let z := match num with
      | .reference => referenceSample f n sr
      | .circuit k => Config.circuitSample k f n sr
    max (-(Config.amp : Int)) (min (Config.amp : Int) z)

/-- SEG: the samples of a segment, phase 0 first (R93), as 16-bit patterns (spec/20_memory.md R53). -/
def segment (num : Numerics) (f d sr : Nat) : List Sample :=
  (List.range (count sr d)).map fun n => BitVec.ofInt 16 (numSample num f n sr)

/-! ### PEAK

`P[k] = sum over m of r[m] * cos (2 * pi * k * m / N)`, with `r` the cyclic autocorrelation of the slice: the squared
magnitude of bin `k` (R122). -/

/-- The list turned by `m` places: entry `i` of the result is entry `(i + m) mod N`. -/
def turn (m : Nat) (x : List Int) : List Int := x.drop m ++ x.take m

/-- `r[m] = sum over n of x[n] * x[(n + m) mod N]`. -/
def autocorrelation (x : List Int) : List Int :=
  (List.range x.length).map fun m => (List.zipWith (fun a b => a * b) x (turn m x)).sum

/-- An enclosure of `2 ^ p * cos (2 * pi * t / n)`, for `t < n`, by the symmetries of the cosine. -/
def cosineEnclosure (p n t : Nat) : Int × Int :=
  let a := min t (n - t)
  if 4 * a ≤ n then sineEnclosure p (n - 4 * a) (2 * n)
  else
    let e := sineEnclosure p (4 * a - n) (2 * n)
    (-e.2, -e.1)

/-- An enclosure scaled by an integer. -/
def scaleEnclosure (r : Int) (e : Int × Int) : Int × Int :=
  if 0 ≤ r then (r * e.1, r * e.2) else (r * e.2, r * e.1)

/-- An enclosure of `2 ^ p * (sum over m of r[m] * cos (2 * pi * k * m / n))`, the sum from index `m` on; `cosines` lists
the enclosures of the cosines. -/
def powerEnclosure (cosines : List (Int × Int)) (n k m : Nat) (r : List Int) : Int × Int :=
  match r with
  | [] => (0, 0)
  | c :: rest =>
    let e := scaleEnclosure c (cosines.getD (k * m % n) (0, 0))
    let es := powerEnclosure cosines n k (m + 1) rest
    (e.1 + es.1, e.2 + es.2)

/-- The coefficients of `P[k]` over the powers of a primitive root of unity: entry `t` is the sum of the `r[m]` with
`k * m = t` modulo `n`. -/
def powerCoefficients (r : List Int) (k : Nat) : List Int :=
  (List.range r.length).map fun t =>
    ((List.range r.length).map fun m => if k * m % r.length = t then r.getD m 0 else 0).sum

/-- Does `sum over t of d[t] * zeta^t` vanish at the primitive root of unity `zeta` of order `N = d.length`? It is
multiplied by `zeta^e - 1` for every proper divisor `e` of `N`: none of these is 0, and every root of unity of order N
that is not primitive is a root of one of them, so the sum vanishes if and only if the product is the zero vector. -/
def vanishes (d : List Int) : Bool :=
  let n := d.length
  let product := ((List.range n).filter fun e => 0 < e ∧ n % e = 0).foldl
    (fun v e => List.zipWith (fun a b => a - b) (turn e v) v) d
  product.all fun c => c = 0

/-- Is `P[j] = P[k]`, decided on integers? -/
def sameAsPower (r : List Int) (j k : Nat) : Bool :=
  vanishes (List.zipWith (fun a b => a - b) (powerCoefficients r j) (powerCoefficients r k))

/-- The least bin of maximum power among `best` and the bins listed, which rise and lie above `best`: the first of equal
ones stays (R123). None where the enclosures leave a comparison open. -/
def peakScan (r : List Int) (power : Nat → Int × Int) (best : Nat) (bins : List Nat) : Option Nat :=
  match bins with
  | [] => some best
  | j :: rest =>
    if (power j).2 ≤ (power best).1 then peakScan r power best rest
    else if (power best).2 < (power j).1 then peakScan r power j rest
    else if sameAsPower r j best then peakScan r power best rest
    else none

/-- The peak by enclosures of precision `p`, doubled until one settles it. -/
def peakSearch (fuel p : Nat) (r : List Int) : Option Nat :=
  match fuel with
  | 0 => none
  | fuel + 1 =>
    let n := r.length
    let cosines := (List.range n).map (cosineEnclosure p n)
    let power := fun k => powerEnclosure cosines n k 0 r
    match peakScan r power 0 ((List.range (n / 2)).map (· + 1)) with
    | some k => some k
    | none => peakSearch fuel (2 * p) r

/-- PEAK of the reference instance (R122, R123). -/
def referencePeak (x : List Int) : Nat :=
  match peakSearch precisionSteps firstPrecision (autocorrelation x) with
  | some k => k
  | none => Config.openPeak x

/-- NUM.peak (R126): the chosen instance, with the three properties every admitted instance keeps (R128 items 1 to 3). -/
def numPeak (num : Numerics) (x : List Int) : Nat :=
  if x.all (fun v => v = 0) ∨ x.length = 1 then 0
  else
    let k := match num with
      | .reference => referencePeak x
      | .circuit k => Config.circuitPeak k x
    min k (x.length / 2)

end Sys2Proof.Machine
end

