-- ==== Sys2Proof/Machine/Detector.lean ====
section
/-! DEFINITION. The analysis of one window and DET (spec/42_detector.md R120 to R127). -/

namespace Sys2Proof.Machine

/-- What the analysis of a window gives: the peak bin, the slice length and the class. -/
structure Analysis where
  bin : Nat
  len : Nat
  cls : ToneClass
deriving DecidableEq, Repr

/-- The window from `a` to `b` ms of RXBUF: an empty slice is bin 0 and silence (R121), any other is the peak of its
signed samples and the class of that bin (R123, R125). The error is the first sample that holds no value. -/
def analyse (a b : Nat) (s : State) : Except Nat Analysis :=
  let w := slice s.srate.toNat a b s.rxlen.toNat
  if w.2 = 0 then .ok { bin := 0, len := 0, cls := .silence }
  else
    match s.mem.rx.readRun w.1 w.2 with
    | .error j => .error j
    | .ok x =>
      let k := numPeak s.cfg.num (x.map BitVec.toInt)
      .ok { bin := k, len := w.2, cls := classify k w.2 s.srate.toNat }

/-- DET: the window from WSTART to WEND (R127). -/
def execDet (s : State) : Host.Outcome State Fault Refusal :=
  if s.srate = 0 then .next (faultEntry .det .contractViolation 1 s)
  else if s.cfg.rxDepth.val < s.rxlen.toNat then .next (faultEntry .det .contractViolation 5 s)
  else
    match analyse s.wstart.toNat s.wend.toNat s with
    | .error j => .fault (.noValue .rx j)
    | .ok r => .next { s with
        dbin := BitVec.ofNat 32 r.bin
        dlen := BitVec.ofNat 32 r.len
        dclass := r.cls.code }

end Sys2Proof.Machine
end

