-- ==== Sys2Proof/Machine/Decoder.lean ====
section
/-! DEFINITION. The parts of DEC and the command itself (spec/43_decoder.md R135 to R145). -/

namespace Sys2Proof.Machine

/-- A part of a command: it goes on with a state, or the command has ended with an outcome. -/
abbrev Part := Except (Host.Outcome State Fault Refusal) State

/-- A fault of DEC ends it (spec/60_exceptions.md R174). -/
def decRaise (c : Cause) (info : Nat) (s : State) : Part := .error (.next (faultEntry .dec c info s))

/-- EMIT: the accumulator as one more group of OUTBUF (R142). -/
def emit (s : State) : Part :=
  let j := s.outlen.toNat
  if j = s.cfg.outDepth.val then decRaise .bufferOverflow 5 s
  else .ok { s with
    mem := { s.mem with out := s.mem.out.store j [accWord s] }
    outlen := BitVec.ofNat 32 (j + 1) }

/-- A bit becomes the least significant bit of the accumulator, in window `i` (R140). -/
def appendBit (b : Bool) (i : Nat) (s : State) : Part :=
  if s.accLen.toNat = Config.accBits then decRaise .groupOverflow i s
  else .ok { s with
    accLen := BitVec.ofNat 5 (s.accLen.toNat + 1)
    accVal := BitVec.ofNat 24 (2 * s.accVal.toNat + b.toNat) }

/-- The action on the class of window `i` (R139, R140, R141). -/
def windowAction (cls : ToneClass) (i : Nat) (s : State) : Part :=
  match cls with
  | .silence =>
    if s.accLen = 0 then .ok s
    else
      match emit s with
      | .error o => .error o
      | .ok t => .ok { emptyAcc t with skip := true }
  | .zero => appendBit false i s
  | .one => appendBit true i s
  | .unclassified => if s.strict then decRaise .unclassifiedFrequency i s else .ok s

/-- The step of window `i`: skipped when SKIP is set (R137), else analysed and acted on (R138); WIDX is `i` on entering
it and `i + 1` after it. -/
def windowStep (i : Nat) (s : State) : Part :=
  let s := { s with widx := BitVec.ofNat 32 i }
  if s.skip then .ok { s with skip := false, widx := BitVec.ofNat 32 (i + 1) }
  else
    match analyse (Config.wMs * i) (Config.wMs * i + Config.wMs) s with
    | .error j => .error (.fault (.noValue .rx j))
    | .ok r =>
      match windowAction r.cls i s with
      | .error o => .error o
      | .ok t => .ok { t with widx := BitVec.ofNat 32 (i + 1) }

/-- The windows `i`, `i + 1`, ..., `n` of them, in this order (R145). -/
def windowSteps (n i : Nat) (s : State) : Part :=
  match n with
  | 0 => .ok s
  | n + 1 =>
    match windowStep i s with
    | .error o => .error o
    | .ok t => windowSteps n (i + 1) t

/-- The final flush (R143). -/
def flush (s : State) : Part :=
  if s.accLen = 0 then .ok s
  else
    match emit s with
    | .error o => .error o
    | .ok t => .ok (emptyAcc t)

/-- The conversion pass over the groups `j`, `j + 1`, ..., `n` of them: it only checks that none is empty (R144). -/
def conversion (n j : Nat) (s : State) : Part :=
  match n with
  | 0 => .ok s
  | n + 1 =>
    match s.mem.out.read j with
    | none => .error (.fault (.noValue .out j))
    | some g => if groupLen g = 0 then decRaise .malformedBitGroup j s else conversion n (j + 1) s

/-- What DEC does once its operands are checked: the windows, the flush, the conversion pass. -/
def decodeAll (s : State) : Part :=
  match windowSteps s.wtotal.toNat 0 s with
  | .error o => .error o
  | .ok t =>
    match flush t with
    | .error o => .error o
    | .ok u => conversion u.outlen.toNat 0 u

/-- How DEC starts: nothing of an earlier DEC is left (R135). -/
def decodeStart (s : State) : State := { emptyAcc s with widx := 0, skip := false, outlen := 0 }

/-- DEC: the whole of RXBUF into bit-groups (R145). -/
def execDec (s : State) : Host.Outcome State Fault Refusal :=
  let s := decodeStart s
  if s.srate = 0 then .next (faultEntry .dec .contractViolation 1 { s with wtotal := 0 })
  else if s.cfg.rxDepth.val < s.rxlen.toNat then .next (faultEntry .dec .contractViolation 5 { s with wtotal := 0 })
  else
    match decodeAll { s with wtotal := BitVec.ofNat 32 (windowCount s.rxlen.toNat s.srate.toNat) } with
    | .ok t => .next t
    | .error o => o

end Sys2Proof.Machine
end

