-- ==== Sys2Proof/Machine/Encoder.lean ====
section
/-! DEFINITION. SCR, the three symbols and ENC (spec/41_encoder.md R101 to R105). -/

namespace Sys2Proof.Machine

/-- SCR: SCRAMBLE of the message into SYMBUF from element 0 (R101). -/
def execScr (s : State) : Host.Outcome State Fault Refusal :=
  let n := s.msglen.toNat
  if s.cfg.msgDepth.val < n then .next (faultEntry .scr .contractViolation 3 s)
  else if s.cfg.symDepth.val < symbolsNeeded n then .next (faultEntry .scr .bufferOverflow 2 s)
  else
    match s.mem.msg.readRun 0 n with
    | .error j => .fault (.noValue .msg j)
    | .ok m => .next { s with
        mem := { s.mem with sym := s.mem.sym.store 0 (scramble m) }
        symlen := BitVec.ofNat 32 (symbolsNeeded n)
        scrRan := true }

/-- `APPEND(SEG(f, d, SRATE))` (spec/41_encoder.md section 2), `out` being the samples written so far: 0 where no ENC is
in progress (notes/assumptions/8.md). SRATE = 0, which ENC has checked before any symbol, raises ENC's fault for it
(notes/assumptions/7.md). -/
def appendSegment (f d : Nat) (s : State) : Host.Outcome State Fault Refusal :=
  let sr := s.srate.toNat
  let out := s.encOut.getD 0
  if s.srate = 0 then .next (faultEntry .enc .contractViolation 1 s)
  else if s.cfg.txDepth.val < out + count sr d then .next (faultEntry .enc .bufferOverflow 3 s)
  else .next { s with
    mem := { s.mem with tx := s.mem.tx.store out (segment s.cfg.num f d sr) }
    encOut := some (out + count sr d) }

/-- SYM_ZERO, the symbol '0': a 36 Hz tone of 250 ms (R102). -/
def execSymZero (s : State) : Host.Outcome State Fault Refusal := appendSegment Config.fZero Config.dBit s

/-- SYM_ONE, the symbol '1': a 196 Hz tone of 250 ms (R103). -/
def execSymOne (s : State) : Host.Outcome State Fault Refusal := appendSegment Config.fOne Config.dBit s

/-- SYM_SILENCE, the symbol ' ': 500 ms of silence (R104). -/
def execSymSilence (s : State) : Host.Outcome State Fault Refusal := appendSegment Config.fSil Config.dSil s

/-- The body of ENC's loop for the character `c` at index `p`: the symbol it codes, or InvalidSymbol(p) (R105, R166). -/
def encSymbol (c : Byte) (p : Nat) (s : State) : Host.Outcome State Fault Refusal :=
  match decodeSymbol c with
  | .ok .symZero => execSymZero s
  | .ok .symOne => execSymOne s
  | .ok .symSilence => execSymSilence s
  | .ok .gen => .next (faultEntry .enc .invalidSymbol p s)
  | .ok .scr => .next (faultEntry .enc .invalidSymbol p s)
  | .ok .enc => .next (faultEntry .enc .invalidSymbol p s)
  | .ok .det => .next (faultEntry .enc .invalidSymbol p s)
  | .ok .dec => .next (faultEntry .enc .invalidSymbol p s)
  | .error _ => .next (faultEntry .enc .invalidSymbol p s)

/-- SYMPOS moves to the next character, unless a fault has ended the ENC: then it stays (R105, R29). -/
def advanceSymbol (o : Host.Outcome State Fault Refusal) : Host.Outcome State Fault Refusal :=
  match o with
  | .next t => if t.encOut.isSome then .next { t with sympos := t.sympos + 1 } else .next t
  | .fault f => .fault f
  | .refused r => .refused r

/-- The end of ENC: `SYMPOS <- SYMLEN ; TXLEN <- out` (R105). -/
def encFinish (s : State) : State :=
  { s with sympos := s.symlen, txlen := BitVec.ofNat 32 (s.encOut.getD 0), encOut := none }

/-- One character of an ENC in progress, the one at SYMPOS, or its end (R105). -/
def encStep (s : State) : Host.Outcome State Fault Refusal :=
  let p := s.sympos.toNat
  if p < s.symlen.toNat then
    match s.mem.sym.read p with
    | none => .fault (.noValue .sym p)
    | some c => advanceSymbol (encSymbol c p s)
  else .next (encFinish s)

/-- `n` characters and the end of ENC, or the first fault before. -/
def encRun (n : Nat) (s : State) : Host.Outcome State Fault Refusal :=
  match n with
  | 0 => .next (encFinish s)
  | n + 1 =>
    match encStep s with
    | .next t => if t.encOut.isSome then encRun n t else .next t
    | .fault f => .fault f
    | .refused r => .refused r

/-- ENC: the symbol text as waveform, one command and one step (R105, spec/70_reset_and_hazards.md R196). -/
def execEnc (s : State) : Host.Outcome State Fault Refusal :=
  let s := { s with sympos := 0 }
  if s.srate = 0 then .next (faultEntry .enc .contractViolation 1 s)
  else if s.cfg.symDepth.val < s.symlen.toNat then .next (faultEntry .enc .contractViolation 4 s)
  else encRun s.symlen.toNat { s with encOut := some 0 }

end Sys2Proof.Machine
end

