-- ==== Sys2Proof/Machine/Generator.lean ====
section
/-! DEFINITION. GEN (spec/40_generator.md R95). -/

namespace Sys2Proof.Machine

/-- GEN: SEG(FREQ, DUR, SRATE) into TXBUF from element 0; the checks in the order of R95 and R177. -/
def execGen (s : State) : Host.Outcome State Fault Refusal :=
  let sr := s.srate.toNat
  let c := count sr s.dur.toNat
  if s.srate = 0 then .next (faultEntry .gen .contractViolation 1 s)
  else if s.dur = 0 then .next (faultEntry .gen .contractViolation 2 s)
  else if s.cfg.txDepth.val < c then .next (faultEntry .gen .bufferOverflow 3 s)
  else .next { s with
    mem := { s.mem with tx := s.mem.tx.store 0 (segment s.cfg.num s.freq.toNat s.dur.toNat sr) }
    txlen := BitVec.ofNat 32 c }

end Sys2Proof.Machine
end

