-- ==== Sys2Proof/Machine/Dispatch.lean ====
section
/-! DEFINITION. Which meaning runs an instruction. -/

namespace Sys2Proof.Machine

/-- One arm per constructor of `Instr`. -/
def exec (i : Instr) (s : State) : Host.Outcome State Fault Refusal :=
  match i with
  | .gen => Sys2Proof.Machine.execGen s
  | .scr => Sys2Proof.Machine.execScr s
  | .enc => Sys2Proof.Machine.execEnc s
  | .det => Sys2Proof.Machine.execDet s
  | .dec => Sys2Proof.Machine.execDec s
  | .symZero => Sys2Proof.Machine.execSymZero s
  | .symOne => Sys2Proof.Machine.execSymOne s
  | .symSilence => Sys2Proof.Machine.execSymSilence s

end Sys2Proof.Machine
end

