-- ==== Sys2Proof/Machine/HostOps.lean ====
section
/-! DEFINITION. The host operations (spec/44_system.md R155 to R159), the hard reset input, and the host notation
(spec/30_encoding.md R82, R83; spec/20_memory.md R57). -/

namespace Sys2Proof.Machine

/-- RegRead: the value of register `i` as its rule in spec/10_state.md defines it (R155, R10 to R33). -/
def regRead (i : Fin 32) (s : State) : Word :=
  match i.val with
  | 0 => 0
  | 1 => statusWord s
  | 2 => ctrlWord s
  | 3 => s.faultCode.setWidth 32
  | 4 => s.faultInfo
  | 5 => s.srate
  | 6 => s.freq
  | 7 => s.dur
  | 8 => s.wstart
  | 9 => s.wend
  | 10 => s.msglen
  | 11 => s.symlen
  | 12 => s.txlen
  | 13 => s.rxlen
  | 14 => s.outlen
  | 15 => s.dbin
  | 16 => s.dlen
  | 17 => s.dclass.setWidth 32
  | 18 => s.sympos
  | 19 => s.widx
  | 20 => s.wtotal
  | 21 => accWord s
  | _ => 0

/-- RegWrite to CTRL: bit 31 is the soft reset and nothing else of the word is used then; otherwise STRICT takes bit 0
(R156, R13). -/
def writeCtrl (v : Word) (s : State) : State :=
  if v.getLsbD 31 then softReset s else { s with strict := v.getLsbD 0 }

/-- RegWrite to a register other than CMD: the eight read-write registers and CTRL; any other write is ignored (R156). -/
def regWrite (i : Fin 32) (v : Word) (s : State) : State :=
  match i.val with
  | 2 => writeCtrl v s
  | 5 => { s with srate := v }
  | 6 => { s with freq := v }
  | 7 => { s with dur := v }
  | 8 => { s with wstart := v }
  | 9 => { s with wend := v }
  | 10 => { s with msglen := v }
  | 11 => { s with symlen := v }
  | 13 => { s with rxlen := v }
  | _ => s

/-- Command issue: dropped while STATUS.FAULT = 1, IllegalCommand for an illegal word, else the command runs to its end
(R157). -/
def commandIssue (w : Word) (s : State) : Host.Outcome State Fault Refusal :=
  if s.faultFlag then .next s
  else
    match decodeCommand w with
    | .ok i => exec i s
    | .error _ => .next (faultEntry .issue .illegalCommand w.toNat s)

/-- The length register of a buffer (spec/10_state.md R21 to R25). -/
def lengthOf (b : BufId) (s : State) : Word :=
  match b with
  | .msg => s.msglen
  | .sym => s.symlen
  | .tx => s.txlen
  | .rx => s.rxlen
  | .out => s.outlen

/-- Can the host read element `j` of `b`, if it holds a value? It can below the length register. At and above it, it can
read what it has itself written since the last reset (R158), but in SYMBUF after SCR it can read nothing (R42). -/
def readable (b : BufId) (j : Nat) (s : State) : Bool :=
  decide (j < (lengthOf b s).toNat) || (s.marks.has b j && !(decide (b = .sym) && s.scrRan))

/-- BufRead: beyond the depth it returns no value (spec/20_memory.md R54); an element without value stops the run
(R42; notes/assumptions/9.md and 10.md); a sample is returned as its 16-bit pattern (notes/assumptions/19.md). -/
def bufRead (b : BufId) (j : Nat) (s : State) : Host.Outcome State Fault Refusal :=
  if depthOf s.cfg b ≤ j then .next { s with reply := none }
  else
    match s.mem.read b j with
    | none => .fault (.noValue b j)
    | some v => if readable b j s then .next { s with reply := some (v.setWidth 32) } else .refused (.notValid b j)

/-- BufWrite: MSGBUF, SYMBUF and RXBUF take the element, which is marked as the host's; TXBUF and OUTBUF ignore it
(R159); so does every space beyond its depth (R54). -/
def bufWrite (b : BufId) (j : Nat) (v : BitVec b.width) (s : State) : State :=
  if depthOf s.cfg b ≤ j then s
  else
    match b, v with
    | .msg, v => { s with
        mem := { s.mem with msg := s.mem.msg.store j [v] }, marks := { s.marks with msg := s.marks.msg.store j [0] } }
    | .sym, v => { s with
        mem := { s.mem with sym := s.mem.sym.store j [v] }, marks := { s.marks with sym := s.marks.sym.store j [0] } }
    | .tx, _ => s
    | .rx, v => { s with
        mem := { s.mem with rx := s.mem.rx.store j [v] }, marks := { s.marks with rx := s.marks.rx.store j [0] } }
    | .out, _ => s

/-- One host operation (R155 to R159). -/
def hostOp (op : HostOp) (s : State) : Host.Outcome State Fault Refusal :=
  match op with
  | .regRead i => .next { s with reply := some (regRead i s) }
  | .regWrite i v => if i = 0 then commandIssue v s else .next (regWrite i v s)
  | .bufRead b j => bufRead b j s
  | .bufWrite b j v => .next (bufWrite b j v s)

/-- One input from outside. -/
def takeInput (inp : Input) (s : State) : Host.Outcome State Fault Refusal :=
  match inp with
  | .host op => hostOp op s
  | .hardReset => .next (hardReset s)

/-- What the block does next: the next character of an ENC in progress (notes/assumptions/6.md), else the next input,
else nothing: it waits for a host access (R191; notes/assumptions/4.md). -/
def advance (s : State) : Host.Outcome State Fault Refusal :=
  if s.encOut.isSome then encStep s
  else
    match s.pending with
    | [] => .next s
    | inp :: rest => takeInput inp { s with pending := rest }

/-! ### Placing one instruction where the next step takes it (notes/assumptions/16.md) -/

/-- A word for CMD: the host's next operation writes it, no ENC is in progress and no fault is recorded, since a command
word is dropped otherwise (R157). -/
def placeCommand (w : Word) (s : State) : State :=
  { s with
    pending := .host (.regWrite 0 w) :: s.pending
    encOut := none
    faultFlag := false
    faultCode := 0
    faultInfo := 0 }

/-- A character: an ENC is in progress and the character stands at SYMPOS, inside the text. -/
def placeSymbol (c : Byte) (s : State) : State :=
  let p : Word := if s.sympos.toNat + 1 < 2 ^ 32 then s.sympos else 0
  { s with
    sympos := p
    symlen := if p.toNat < s.symlen.toNat then s.symlen else p + 1
    mem := { s.mem with sym := s.mem.sym.store p.toNat [c] }
    encOut := some (s.encOut.getD 0) }

/-- The instruction of a row of the opcode table, in the form of its format. -/
def placeCode (c : Code) (s : State) : State :=
  match c with
  | .cmd32 w => placeCommand w s
  | .sym8 c => placeSymbol c s

/-! ### Host notation (spec/30_encoding.md R82, R83) -/

/-- The word that issues an instruction; a symbol has none. -/
def issueWord (i : Instr) : Option Word :=
  match encode i with
  | .cmd32 w => some w
  | .sym8 _ => none

/-- `st BUF, j, v0, v1, ...`. -/
def storeOps (b : BufId) (j : Nat) (vs : List Nat) : List HostOp :=
  match vs with
  | [] => []
  | v :: rest => .bufWrite b j (BitVec.ofNat b.width v) :: storeOps b (j + 1) rest

/-- `gen`, `scr`, `enc`, `det`, `dec`. -/
def commandOps (i : Instr) : List HostOp :=
  match issueWord i with
  | some w => [.regWrite 0 w]
  | none => []

/-- `xfer`: the host copies TXBUF, or every second sample of it, to RXBUF and sets RXLEN (spec/20_memory.md R57). A
sample that holds no value is not copied. -/
def xferOps (x : Xfer) (s : State) : List HostOp :=
  let n := s.txlen.toNat
  let stride := match x with
    | .identity => 1
    | .decimate2 => 2
  let len := (n + stride - 1) / stride
  let copies := (List.range len).flatMap fun i =>
    match s.mem.tx.read (stride * i) with
    | some v => [HostOp.bufRead .tx (stride * i), HostOp.bufWrite .rx i v]
    | none => [HostOp.bufRead .tx (stride * i)]
  copies ++ [.regWrite 13 (BitVec.ofNat 32 len)]

/-- `decode` after its `dec`: the host reads OUTLEN and the groups (R83). -/
def readGroupsOps (s : State) : List HostOp :=
  .regRead 14 :: (List.range s.outlen.toNat).map fun j => HostOp.bufRead .out j

/-- The host operations a line stands for, `s` being the block's state when the host comes to it (only `xfer` looks at
it). The reads of `decode` after its `dec` are `readGroupsOps` of the state the `dec` leaves. -/
def expandLine (l : Line) (s : State) : List HostOp :=
  match l with
  | .wr i v => [.regWrite i (BitVec.ofNat 32 v)]
  | .rd i => [.regRead i]
  | .st b j vs => storeOps b j vs
  | .ld b j => [.bufRead b j]
  | .cmd i => commandOps i
  | .message cs => storeOps .msg 0 cs ++ [.regWrite 10 (BitVec.ofNat 32 cs.length)]
  | .symbols cs => storeOps .sym 0 cs ++ [.regWrite 11 (BitVec.ofNat 32 cs.length)]
  | .encode cs =>
    storeOps .msg 0 cs ++ [.regWrite 10 (BitVec.ofNat 32 cs.length)] ++ commandOps .scr ++ commandOps .enc
  | .tone f d => [.regWrite 6 (BitVec.ofNat 32 f), .regWrite 7 (BitVec.ofNat 32 d)] ++ commandOps .gen
  | .win a b => [.regWrite 8 (BitVec.ofNat 32 a), .regWrite 9 (BitVec.ofNat 32 b)] ++ commandOps .det
  | .strict on => [.regWrite 2 (if on then 1 else 0)]
  | .softReset => [.regWrite 2 0x80000000]
  | .xfer x => xferOps x s
  | .decode => commandOps .dec

end Sys2Proof.Machine
end

