-- ==== Sys2Proof/Machine/Step.lean ====
section
/-! DEFINITION. One step of the block, and the placing of one instruction where the next step takes it. -/

namespace Sys2Proof.Machine

/-- One step: a command is one step (spec/70_reset_and_hazards.md R196), and so is every other input. -/
def step (s : State) : Host.Outcome State Fault Refusal := advance s

/-- `s` with the instruction of an opcode-table row placed so that the next step runs exactly it. -/
def State.withFetchWord (s : State) (nbits w : Nat) : State := placeCode (tableCode nbits w) s

end Sys2Proof.Machine
end

