-- ==== Sys2Proof/Safety.lean ====
section
/-! DEFINITION. What a good state is and when a run has ended well. -/

namespace Sys2Proof.Machine

/-- Every index of the list lies below the depth. -/
abbrev Buf.Below {w : Nat} (b : Buf w) (depth : Nat) : Prop := ∀ e ∈ b, e.1 < depth

/-- The elements below `n` all have a value. -/
def Buf.Filled {w : Nat} (b : Buf w) (n : Nat) : Prop := ∀ j, j < n → (b.read j).isSome = true

/-- A group word DEC may emit: 1 to 24 bits, VAL below `2 ^ LEN`, nothing in bits 31:29 (R78). -/
def IsGroup (g : Word) : Prop :=
  1 ≤ groupLen g ∧ groupLen g ≤ Config.accBits ∧ groupVal g < 2 ^ groupLen g ∧ g = pack (groupLen g) (groupVal g)

/-- The marks are canonical, and what the host has written holds a value (spec/10_state.md R42). -/
def Marks.Sound (k : Marks) (m : Memory) : Prop :=
  (k.msg.Rising ∧ k.sym.Rising ∧ k.rx.Rising) ∧
    ∀ (b : BufId) (j : Nat), k.has b j = true → (m.read b j).isSome = true

/-- What holds at reset and what every step keeps. -/
structure State.Inv (s : State) : Prop where
  /-- The memory is in canonical form. -/
  canonical : s.mem.wf
  /-- No element lies beyond the depth of its space (spec/20_memory.md R54). -/
  inDepth : s.mem.msg.Below s.cfg.msgDepth.val ∧ s.mem.sym.Below s.cfg.symDepth.val ∧
    s.mem.tx.Below s.cfg.txDepth.val ∧ s.mem.rx.Below s.cfg.rxDepth.val ∧ s.mem.out.Below s.cfg.outDepth.val
  /-- The marks are canonical, and what the host has written holds a value. -/
  marked : s.marks.Sound s.mem
  /-- FAULTCODE is 0, and FAULTINFO with it, exactly while STATUS.FAULT is 0; else it is a code of R165 (R14). -/
  faultPair : if s.faultFlag then 1 ≤ s.faultCode.toNat ∧ s.faultCode.toNat ≤ 7
    else s.faultCode = 0 ∧ s.faultInfo = 0
  /-- The accumulator holds at most ACC_BITS bits, and VAL < 2 ^ LEN (R32). -/
  accumulator : s.accLen.toNat ≤ Config.accBits ∧ s.accVal.toNat < 2 ^ s.accLen.toNat
  /-- The valid samples of TXBUF lie inside it and have a value (R23). -/
  waveform : s.txlen.toNat ≤ s.cfg.txDepth.val ∧ s.mem.tx.Filled s.txlen.toNat
  /-- The valid groups of OUTBUF lie inside it and are groups (R25, R146 item 1). -/
  groups : s.outlen.toNat ≤ s.cfg.outDepth.val ∧
    ∀ j, j < s.outlen.toNat → ∃ g, s.mem.out.read j = some g ∧ IsGroup g
  /-- The window index does not pass the window count (R35). -/
  window : s.widx.toNat ≤ s.wtotal.toNat
  /-- The peak bin is in the range of its slice (R26). -/
  peak : s.dbin.toNat ≤ s.dlen.toNat / 2
  /-- What an ENC in progress has written so far lies inside TXBUF, and no fault is recorded (R105, R157). -/
  progress : ∀ out, s.encOut = some out →
    out ≤ s.cfg.txDepth.val ∧ s.mem.tx.Filled out ∧ s.faultFlag = false

/-! ### The end of a run (spec/70_reset_and_hazards.md R193) -/

/-- A run has ended: the host has issued its last operation and that operation has completed. -/
def State.Ended (s : State) : Prop := s.pending = [] ∧ s.encOut = none

/-- The run of the host operations `ops` from `s` has ended in `t`. -/
def RunEndsIn (ops : List HostOp) (s t : State) : Prop :=
  ∃ k, core.run k { s with pending := ops.map Input.host } = .next t ∧ t.Ended

/-- The run of the host operations `ops` from `s` has ended well in `t`: it has ended, and STATUS.FAULT = 0. -/
def RunEndsWellIn (ops : List HostOp) (s t : State) : Prop := RunEndsIn ops s t ∧ t.faultFlag = false

end Sys2Proof.Machine
end

