-- ==== Sys2Proof/Certificates/Slice0/Obligations.lean ====
section
/-! DEFINITION. The statements for the provers. -/

namespace Sys2Proof.Claims

open Sys2Proof.Machine

/-! ### Words of the statements -/

/-- `z` is `x` rounded to the nearest integer, a tie going to the even one: `rne` of spec/00_scope.md R7. -/
def IsRne (x : ℝ) (z : ℤ) : Prop := |x - z| ≤ 1 / 2 ∧ (|x - z| = 1 / 2 → Even z)

/-- `P[k]`, the squared magnitude of bin `k` over the real numbers (R122). -/
noncomputable def realPower (x : List ℤ) (k : ℕ) : ℝ :=
  (∑ n ∈ Finset.range x.length, (x.getD n 0 : ℝ) * Real.cos (2 * Real.pi * k * n / x.length)) ^ 2 +
    (-∑ n ∈ Finset.range x.length, (x.getD n 0 : ℝ) * Real.sin (2 * Real.pi * k * n / x.length)) ^ 2

/-- `k` is the least bin of maximum power (R123). -/
def IsPeak (x : List ℤ) (k : ℕ) : Prop :=
  k ≤ x.length / 2 ∧ (∀ j, j ≤ x.length / 2 → realPower x j ≤ realPower x k) ∧
    ∀ j, j < k → realPower x j < realPower x k

/-- Tone and duration of a symbol code, none for an illegal one (R75, R76). -/
def toneOf (c : Byte) : Option (Nat × Nat) :=
  if c = 0x30 then some (36, 250) else if c = 0x31 then some (196, 250) else if c = 0x20 then some (0, 500) else none

/-- The waveform of a symbol text: the segments of its characters, in text order (R105). -/
def waveform (num : Numerics) (sr : Nat) (text : List Byte) : List Sample :=
  text.flatMap fun c =>
    match toneOf c with
    | some (f, d) => segment num f d sr
    | none => []

/-- The decoder of the source, over bit STRINGS: the accumulator, the completed groups, SKIP_NEXT_WINDOW (R135). -/
structure Text where
  acc : List Bool
  groups : List (List Bool)
  skip : Bool
deriving DecidableEq, Repr

/-- A fault of the decoder: its cause, its FAULTINFO, the window index, and what had been decoded. -/
structure Stop where
  cause : Cause
  info : Nat
  window : Nat
  text : Text
deriving DecidableEq, Repr

/-- Window `i`, of class `c` (R137 to R142). -/
def decodeWindow (strict : Bool) (depth i : Nat) (c : ToneClass) (d : Text) : Except Stop Text :=
  if d.skip then .ok { d with skip := false }
  else
    match c with
    | .silence =>
      if d.acc = [] then .ok d
      else if d.groups.length = depth then .error { cause := .bufferOverflow, info := 5, window := i, text := d }
      else .ok { acc := [], groups := d.groups ++ [d.acc], skip := true }
    | .zero =>
      if d.acc.length = 24 then .error { cause := .groupOverflow, info := i, window := i, text := d }
      else .ok { d with acc := d.acc ++ [false] }
    | .one =>
      if d.acc.length = 24 then .error { cause := .groupOverflow, info := i, window := i, text := d }
      else .ok { d with acc := d.acc ++ [true] }
    | .unclassified =>
      if strict then .error { cause := .unclassifiedFrequency, info := i, window := i, text := d } else .ok d

/-- The windows from index `i` on, in order, given their classes. -/
def decodeWindows (strict : Bool) (depth i : Nat) (cs : List ToneClass) (d : Text) : Except Stop Text :=
  match cs with
  | [] => .ok d
  | c :: cs =>
    match decodeWindow strict depth i c d with
    | .error e => .error e
    | .ok d => decodeWindows strict depth (i + 1) cs d

/-- All windows and the final flush (R143). -/
def decodeText (strict : Bool) (depth : Nat) (cs : List ToneClass) : Except Stop Text :=
  match decodeWindows strict depth 0 cs { acc := [], groups := [], skip := false } with
  | .error e => .error e
  | .ok d =>
    if d.acc = [] then .ok d
    else if d.groups.length = depth then
      .error { cause := .bufferOverflow, info := 5, window := cs.length, text := d }
    else .ok { d with acc := [], groups := d.groups ++ [d.acc] }

/-- The base-2 value of a bit string, first bit most significant (R144, R78). -/
def bitsValue (bits : List Bool) : Nat := bits.foldl (fun v b => 2 * v + b.toNat) 0

/-- The group word of a bit string (R78). -/
def groupWord (bits : List Bool) : Word := pack bits.length (bitsValue bits)

/-- The signed samples of RXBUF from index `lo` on, `n` of them (R53). -/
def samplesAt (s : State) (lo n : Nat) : List ℤ :=
  (List.range n).map fun i => ((s.mem.rx.read (lo + i)).getD 0).toInt

/-- Peak bin, slice length and class of the window from `a` to `b` ms (R120 to R125). -/
def windowResult (s : State) (a b : Nat) : Nat × Nat × ToneClass :=
  let w := slice s.srate.toNat a b s.rxlen.toNat
  if w.2 = 0 then (0, 0, .silence)
  else
    let k := numPeak s.cfg.num (samplesAt s w.1 w.2)
    (k, w.2, classify k w.2 s.srate.toNat)

/-- The classes of the decoder's windows (R138). -/
def windowClasses (s : State) : List ToneClass :=
  (List.range (windowCount s.rxlen.toNat s.srate.toNat)).map fun i =>
    (windowResult s (125 * i) (125 * i + 125)).2.2

/-- `t` differs from `s` only in TXBUF, TXLEN, SYMPOS, the fault registers and the progress of an ENC. -/
def OnlyEncoderChanged (s t : State) : Prop :=
  { t with
    mem := { t.mem with tx := s.mem.tx }, txlen := s.txlen, sympos := s.sympos, faultFlag := s.faultFlag,
    faultCode := s.faultCode, faultInfo := s.faultInfo, encOut := s.encOut } = s

/-- `t` differs from `s` only in OUTBUF, OUTLEN, WIDX, WTOTAL, ACC, SKIP, the fault registers and the progress of an
ENC. -/
def OnlyDecoderChanged (s t : State) : Prop :=
  { t with
    mem := { t.mem with out := s.mem.out }, outlen := s.outlen, widx := s.widx, wtotal := s.wtotal,
    accLen := s.accLen, accVal := s.accVal, skip := s.skip, faultFlag := s.faultFlag,
    faultCode := s.faultCode, faultInfo := s.faultInfo, encOut := s.encOut } = s

/-- The fault registers record this fault (R174). -/
def Recorded (t : State) (code : BitVec 8) (info : Nat) : Prop :=
  t.faultFlag = true ∧ t.faultCode = code ∧ t.faultInfo = BitVec.ofNat 32 info

end Sys2Proof.Claims

section

open Sys2Proof Sys2Proof.Machine Sys2Proof.Claims

/-! ### Encoding -/

/-- R72: a word selects a command when its bits 31:8 are 0 and its opcode field is one of five. -/
def Obligations.CommandWordSelectsByOpcode : Prop :=
  ∀ (w : Word) (i : Instr), decode (.cmd32 w) = .ok i ↔
    w.extractLsb' 8 24 = 0 ∧
      ((w.extractLsb' 0 8 = 0x01 ∧ i = .gen) ∨ (w.extractLsb' 0 8 = 0x02 ∧ i = .scr) ∨
        (w.extractLsb' 0 8 = 0x03 ∧ i = .enc) ∨ (w.extractLsb' 0 8 = 0x04 ∧ i = .det) ∨
        (w.extractLsb' 0 8 = 0x05 ∧ i = .dec))

/-- The three symbol codes of the table of 30_encoding.md and no other code; an illegal code is rejected by name. -/
def Obligations.SymbolCodesAreThree : Prop :=
  ∀ c : Byte,
    (decode (.sym8 c) = .ok .symZero ↔ c.toNat = 48) ∧ (decode (.sym8 c) = .ok .symOne ↔ c.toNat = 49) ∧
    (decode (.sym8 c) = .ok .symSilence ↔ c.toNat = 32) ∧
    (c.toNat ≠ 48 → c.toNat ≠ 49 → c.toNat ≠ 32 → decode (.sym8 c) = .error (.illegalSymbol c))

/-- Decoding what `encode` writes gives the instruction back, and the words are those of the opcode table. -/
def Obligations.EncodedInstructionDecodes : Prop :=
  (∀ i : Instr, i.wf = true → decode (encode i) = .ok i) ∧
    decodeTableWord 32 0x00000001 = some .gen ∧ decodeTableWord 32 0x00000005 = some .dec ∧
    decodeTableWord 8 0x30 = some .symZero ∧ decodeTableWord 8 0x20 = some .symSilence ∧
    decodeTableWord 32 0x00000101 = none ∧ decodeTableWord 8 0x32 = none

/-- A coded item has one meaning: what decodes is the encoding of its instruction. -/
def Obligations.DecodedInstructionEncodes : Prop :=
  ∀ (c : Code) (i : Instr), decode c = .ok i → encode i = c

/-! ### Reset and host operations -/

/-- R191: the registers after reset, no command in progress; no buffer element has a value; and the block does nothing
until something reaches it. -/
def Obligations.ResetLeavesTheStatedValues : Prop :=
  (∀ i : Fin 32, regRead i State.reset = if i = 5 then 44100 else 0) ∧ State.reset.encOut = none ∧
    (∀ (b : BufId) (j : Nat), State.reset.mem.read b j = none) ∧ step State.reset = .next State.reset

/-- The soft reset (R158) puts every register in its reset value and keeps the buffers, of which no element is readable any
more; it clears a fault, and only it and the hard reset do. (The model's choices in it: what says of an element that
it is readable, and the field scrRan that the soft reset keeps, notes/assumptions/10.md; the reply that it keeps,
notes/assumptions/5.md.) -/
def Obligations.SoftResetFollowsItsRule : Prop :=
  (∀ (s : State) (v : Word) (rest : List Input),
    s.encOut = none → s.pending = .host (.regWrite 2 v) :: rest → v.getLsbD 31 = true →
    ∃ t, step s = .next t ∧ (∀ i : Fin 32, regRead i t = regRead i State.reset) ∧ t.mem = s.mem ∧
      t.faultFlag = false ∧ t.strict = false ∧ t.cfg = s.cfg ∧ t.pending = rest ∧ t.encOut = none ∧
      t.reply = s.reply ∧ t.scrRan = s.scrRan ∧ ∀ (b : BufId) (j : Nat), readable b j t = false) ∧
  ∀ s t : State, s.faultFlag = true → s.encOut = none → step s = .next t → t.faultFlag = false →
    ∃ rest, s.pending = .hardReset :: rest ∨
      ∃ v : Word, v.getLsbD 31 = true ∧ s.pending = .host (.regWrite 2 v) :: rest

/-- The hard reset: every register as after the soft reset, and no buffer element has a value. -/
def Obligations.HardResetEmptiesTheBuffers : Prop :=
  ∀ (s : State) (rest : List Input), s.encOut = none → s.pending = .hardReset :: rest →
    ∃ t, step s = .next t ∧ (∀ i : Fin 32, regRead i t = regRead i State.reset) ∧
      (∀ (b : BufId) (j : Nat), t.mem.read b j = none ∧ readable b j t = false) ∧ t.scrRan = false ∧
      t.cfg = s.cfg ∧ t.pending = rest ∧ t.encOut = none

/-- R155: RegRead returns the register, with 0 in every field that reads as 0, and has no side effect. -/
def Obligations.RegReadReturnsTheRegister : Prop :=
  ∀ (s : State) (i : Fin 32) (rest : List Input), s.encOut = none → s.pending = .host (.regRead i) :: rest →
    ∃ v, step s = .next { s with pending := rest, reply := some v } ∧
      (i = 0 → v = 0) ∧ (22 ≤ i.val → v = 0) ∧
      (i = 1 → v.toNat = s.faultFlag.toNat + 2 * s.skip.toNat) ∧ (i = 2 → v.toNat = s.strict.toNat) ∧
      (i = 3 → v.toNat = s.faultCode.toNat) ∧ (i = 4 → v = s.faultInfo) ∧
      (i = 5 → v = s.srate) ∧ (i = 6 → v = s.freq) ∧ (i = 7 → v = s.dur) ∧ (i = 8 → v = s.wstart) ∧
      (i = 9 → v = s.wend) ∧ (i = 10 → v = s.msglen) ∧ (i = 11 → v = s.symlen) ∧ (i = 12 → v = s.txlen) ∧
      (i = 13 → v = s.rxlen) ∧ (i = 14 → v = s.outlen) ∧ (i = 15 → v = s.dbin) ∧ (i = 16 → v = s.dlen) ∧
      (i = 17 → v.toNat = s.dclass.toNat) ∧ (i = 18 → v = s.sympos) ∧ (i = 19 → v = s.widx) ∧
      (i = 20 → v = s.wtotal) ∧ (i = 21 → v.toNat = s.accLen.toNat * 2 ^ 24 + s.accVal.toNat)

/-- What a RegWrite does to every register (R156), as the host reads it back; it clears no fault. (The model's choices in
it: that a write of SYMLEN keeps scrRan and the marks, notes/assumptions/10.md; the reply that a write keeps,
notes/assumptions/5.md.) -/
def Obligations.RegWriteFollowsItsTable : Prop :=
  ∀ (s : State) (i : Fin 32) (v : Word) (rest : List Input),
    s.encOut = none → s.pending = .host (.regWrite i v) :: rest →
    (i = 0 → step s = commandIssue v { s with pending := rest }) ∧
    (i = 2 → v.getLsbD 31 = true → step s = .next (softReset { s with pending := rest })) ∧
    (i ≠ 0 → ¬(i = 2 ∧ v.getLsbD 31 = true) →
      ∃ t, step s = .next t ∧ t.mem = s.mem ∧ t.cfg = s.cfg ∧ t.pending = rest ∧ t.encOut = none ∧
        t.reply = s.reply ∧ t.scrRan = s.scrRan ∧ t.marks = s.marks ∧
        ∀ k : Fin 32, regRead k t =
          if k = i ∧ i ∈ ([5, 6, 7, 8, 9, 10, 11, 13] : List (Fin 32)) then v
          else if k = i ∧ i = 2 then v &&& 1
          else regRead k s)

/-- R33: the reserved registers read 0, and a write to one is ignored and raises nothing. -/
def Obligations.ReservedRegistersAreInert : Prop :=
  ∀ (s : State) (i : Fin 32) (v : Word) (rest : List Input), 22 ≤ i.val → s.encOut = none →
    (s.pending = .host (.regRead i) :: rest → step s = .next { s with pending := rest, reply := some 0 }) ∧
    (s.pending = .host (.regWrite i v) :: rest → step s = .next { s with pending := rest })

/-- The host's buffer accesses (R159, R54, R42). The model's choices in it: how a sample stands in a reply
(notes/assumptions/19.md), the access beyond the depth as one that goes on (notes/assumptions/11.md), and which elements
at and above a length register the host can read (notes/assumptions/10.md). -/
def Obligations.BufferAccessFollowsItsRule : Prop :=
  (∀ (s : State) (b : BufId) (j : Nat) (v : BitVec b.width) (rest : List Input),
    s.encOut = none → s.pending = .host (.bufWrite b j v) :: rest →
    ∃ t, step s = .next t ∧ { t with mem := s.mem, marks := s.marks, pending := s.pending } = s ∧ t.pending = rest ∧
      (∀ (b' : BufId) (j' : Nat), ¬(b' = b ∧ j' = j) →
        t.mem.read b' j' = s.mem.read b' j' ∧ t.marks.has b' j' = s.marks.has b' j') ∧
      (j < depthOf s.cfg b ∧ (b = .msg ∨ b = .sym ∨ b = .rx) →
        t.mem.read b j = some v ∧ t.marks.has b j = true) ∧
      (¬(j < depthOf s.cfg b ∧ (b = .msg ∨ b = .sym ∨ b = .rx)) → t.mem = s.mem ∧ t.marks = s.marks)) ∧
  (∀ (s : State) (b : BufId) (j : Nat) (rest : List Input),
    s.encOut = none → s.pending = .host (.bufRead b j) :: rest →
    (depthOf s.cfg b ≤ j → step s = .next { s with pending := rest, reply := none }) ∧
    (j < depthOf s.cfg b →
      (j < (lengthOf b s).toNat ∨ (s.marks.has b j = true ∧ ¬(b = .sym ∧ s.scrRan = true))) →
      ∀ v, s.mem.read b j = some v →
        ∃ r, step s = .next { s with pending := rest, reply := some r } ∧ r.toNat = v.toNat))

/-- Where a host read stops the run: at an element that holds no value, and at one at or above the length register that
the host has not written since the last reset, or that lies in SYMBUF after SCR. (Which stop it is, and that an element
the host has written is readable: the model's choice, notes/assumptions/9.md, 10.md.) -/
def Obligations.BufferReadStopsWhereThereIsNoValue : Prop :=
  ∀ (s : State) (b : BufId) (j : Nat) (rest : List Input),
    s.encOut = none → s.pending = .host (.bufRead b j) :: rest → j < depthOf s.cfg b →
    (s.mem.read b j = none → step s = .fault (.noValue b j)) ∧
    (∀ v, s.mem.read b j = some v → (lengthOf b s).toNat ≤ j →
      (s.marks.has b j = false ∨ b = .tx ∨ b = .out ∨ (b = .sym ∧ s.scrRan = true)) →
      step s = .refused (.notValid b j))

/-! ### Steps -/

/-- A word in CMD that decodes runs its instruction, as the step, when no fault is recorded. -/
def Obligations.StepRunsTheIssuedCommand : Prop :=
  ∀ (s : State) (w : Word) (i : Instr) (rest : List Input),
    s.encOut = none → s.pending = .host (.regWrite 0 w) :: rest → s.faultFlag = false →
    decode (.cmd32 w) = .ok i → step s = exec i { s with pending := rest }

/-- While an ENC is in progress, the character at SYMPOS that decodes runs its symbol; SYMPOS then moves by one, unless
the symbol has faulted. (That a symbol can be a step of its own is the model's choice: notes/assumptions/6.md.) -/
def Obligations.StepRunsTheSymbolAtSympos : Prop :=
  ∀ (s : State) (c : Byte) (i : Instr),
    s.encOut ≠ none → s.sympos.toNat < s.symlen.toNat → s.mem.sym.read s.sympos.toNat = some c →
    decode (.sym8 c) = .ok i →
    ∃ t, exec i s = .next t ∧
      step s = .next (if t.encOut = none then t else { t with sympos := t.sympos + 1 })

/-- After reset, and whenever nothing reaches it, the block does nothing. -/
def Obligations.BlockWaitsForTheHost : Prop :=
  ∀ s : State, s.encOut = none → s.pending = [] → step s = .next s

/-- R172: an illegal command word records IllegalCommand with the word, and nothing else changes. -/
def Obligations.IllegalWordIsRecorded : Prop :=
  ∀ (s : State) (w : Word) (rest : List Input),
    s.encOut = none → s.pending = .host (.regWrite 0 w) :: rest → s.faultFlag = false →
    (w.toNat = 0 ∨ 5 < w.toNat) →
    step s = .next { s with pending := rest, faultFlag := true, faultCode := 7, faultInfo := w }

/-- R176: while a fault is recorded every command word is dropped, and no step but a reset clears or replaces the
fault. -/
def Obligations.FaultIsSticky : Prop :=
  (∀ (s : State) (w : Word) (rest : List Input), s.faultFlag = true → s.encOut = none →
    s.pending = .host (.regWrite 0 w) :: rest → step s = .next { s with pending := rest }) ∧
  ∀ s t : State, s.faultFlag = true → s.encOut = none → step s = .next t →
    (t.faultFlag = true ∧ t.faultCode = s.faultCode ∧ t.faultInfo = s.faultInfo) ∨
    ∃ rest, s.pending = .hardReset :: rest ∨
      ∃ v : Word, v.getLsbD 31 = true ∧ s.pending = .host (.regWrite 2 v) :: rest

/-! ### The whole machine -/

/-- The invariant of a good state holds at reset. -/
def Obligations.ResetMeetsTheInvariant : Prop := State.reset.Inv

/-- Every step, from every state that meets the invariant, keeps it. -/
def Obligations.StepKeepsTheInvariant : Prop :=
  ∀ s t : State, s.Inv → step s = .next t → t.Inv

/-- R44: the parameters change neither at run time nor by a reset. -/
def Obligations.ParametersNeverChange : Prop :=
  ∀ s t : State, step s = .next t → t.cfg = s.cfg

/-- No instruction writes an operand register, CTRL, MSGLEN, RXLEN, MSGBUF or RXBUF, nor touches the host's side. -/
def Obligations.InstructionsLeaveTheirOperandsAlone : Prop :=
  ∀ (i : Instr) (s t : State), exec i s = .next t →
    t.srate = s.srate ∧ t.freq = s.freq ∧ t.dur = s.dur ∧ t.wstart = s.wstart ∧ t.wend = s.wend ∧
    t.msglen = s.msglen ∧ t.rxlen = s.rxlen ∧ t.strict = s.strict ∧ t.mem.msg = s.mem.msg ∧ t.mem.rx = s.mem.rx ∧
    t.cfg = s.cfg ∧ t.pending = s.pending ∧ t.reply = s.reply ∧ t.marks = s.marks

/-- Each result belongs to the instructions that are said to write it, and to no other. -/
def Obligations.ResultsHaveTheirWriters : Prop :=
  ∀ (i : Instr) (s t : State), exec i s = .next t →
    (i ≠ .det → t.dbin = s.dbin ∧ t.dlen = s.dlen ∧ t.dclass = s.dclass) ∧
    (i ≠ .enc → t.sympos = s.sympos) ∧
    (i ≠ .dec → t.widx = s.widx ∧ t.wtotal = s.wtotal ∧ t.accLen = s.accLen ∧ t.accVal = s.accVal ∧
      t.skip = s.skip ∧ t.outlen = s.outlen ∧ t.mem.out = s.mem.out) ∧
    (i ≠ .scr → t.symlen = s.symlen ∧ t.scrRan = s.scrRan ∧ t.mem.sym = s.mem.sym) ∧
    (i = .scr ∨ i = .det ∨ i = .dec → t.txlen = s.txlen ∧ t.mem.tx = s.mem.tx)

/-- A fault of an instruction records a code of the table and discards the outputs of the command it ends. -/
def Obligations.FaultDiscardsTheOutputs : Prop :=
  ∀ (i : Instr) (s t : State), exec i s = .next t → s.faultFlag = false → t.faultFlag = true →
    1 ≤ t.faultCode.toNat ∧ t.faultCode.toNat ≤ 6 ∧ t.encOut = none ∧
    (i = .gen ∨ i = .enc ∨ i = .symZero ∨ i = .symOne ∨ i = .symSilence → t.txlen = 0) ∧
    (i = .scr → t.symlen = 0) ∧ (i = .det → t.dbin = 0 ∧ t.dlen = 0 ∧ t.dclass = 0) ∧ (i = .dec → t.outlen = 0)

/-- MalformedBitGroup is never raised: no instruction records its code. -/
def Obligations.MalformedBitGroupIsUnreachable : Prop :=
  ∀ (i : Instr) (s t : State), exec i s = .next t → t.faultCode = 2 → s.faultCode = 2

/-- No instruction refuses, and one stops only on reading an element that holds no value, inside the length its
operand register gives: GEN and the symbols never, SCR in MSGBUF, ENC in SYMBUF, DET and DEC in RXBUF. (That the run
stops there is the model's choice among those the spec allows: notes/assumptions/9.md.) -/
def Obligations.InstructionsStopOnlyAtMissingElements : Prop :=
  ∀ (i : Instr) (s : State),
    (∃ t, exec i s = .next t) ∨
    ∃ (b : BufId) (j : Nat), exec i s = .fault (.noValue b j) ∧ s.mem.read b j = none ∧
      ((i = .scr ∧ b = .msg ∧ j < s.msglen.toNat) ∨ (i = .enc ∧ b = .sym ∧ j < s.symlen.toNat) ∨
        ((i = .det ∨ i = .dec) ∧ b = .rx ∧ j < s.rxlen.toNat))

/-! ### Numbers -/

/-- R90: COUNT is `sr * d / 1000` rounded half to even, with the examples of the rule. -/
def Obligations.CountRoundsHalfToEven : Prop :=
  (∀ sr d : Nat, IsRne ((sr : ℝ) * d / 1000) (count sr d)) ∧
    (∀ sr d : Nat, |(sr : ℝ) * d / 1000 - count sr d| = 1 / 2 ↔ sr * d % 1000 = 500) ∧
    count 44100 250 = 11025 ∧ count 44100 500 = 22050 ∧ count 44100 5 = 220 ∧ count 44100 15 = 662 ∧
    count 22050 250 = 5512 ∧ count 1 1 = 0

/-- R93: a segment is COUNT samples from phase 0, silent for frequency 0. -/
def Obligations.SegmentIsItsSamples : Prop :=
  ∀ (num : Numerics) (f d sr : Nat),
    (segment num f d sr).length = count sr d ∧
    (∀ n, n < count sr d → ∃ v, (segment num f d sr)[n]? = some v ∧ v.toInt = numSample num f n sr) ∧
    (∀ v, (segment num f d sr)[0]? = some v → v.toInt = 0) ∧
    segment num 0 d sr = List.replicate (count sr d) 0 ∧ (count sr d = 0 → segment num f d sr = [])

/-- Every instance of NUM.sample stays within the amplitude, is silent at frequency 0 and starts at 0. -/
def Obligations.SampleKeepsTheAdmittedProperties : Prop :=
  ∀ (num : Numerics) (f n sr : Nat),
    -32767 ≤ numSample num f n sr ∧ numSample num f n sr ≤ 32767 ∧ numSample num 0 n sr = 0 ∧
      numSample num f 0 sr = 0

/-- R91: the reference SAMPLE is `rne(32767 * sin(2 * pi * f * n / sr))` over the real numbers (`clamp16` changes
nothing). -/
def Obligations.ReferenceSampleIsTheRoundedSine : Prop :=
  ∀ f n sr : Nat, 0 < sr → sr < 2 ^ 32 →
    IsRne (32767 * Real.sin (2 * Real.pi * f * n / sr)) (numSample .reference f n sr)

/-- Whatever the sine search settles on is the rounded sine over the real numbers. -/
def Obligations.SettledSineIsTheRoundedSine : Prop :=
  ∀ fuel p u b m : Nat, 0 < b → 2 * u ≤ b → sineSearch fuel p u b = some m →
    IsRne (32767 * Real.sin (Real.pi * u / b)) m

/-- Phase reduction, exact quarter turns and odd symmetry of the reference SAMPLE. -/
def Obligations.ReferenceSampleSymmetries : Prop :=
  ∀ f n sr : Nat, 0 < sr →
    numSample .reference (f + sr) n sr = numSample .reference f n sr ∧
    numSample .reference f (n + sr) sr = numSample .reference f n sr ∧
    (f < sr → 0 < f → numSample .reference (sr - f) n sr = -numSample .reference f n sr) ∧
    (f * n % sr = 0 → numSample .reference f n sr = 0) ∧
    (2 * (f * n % sr) = sr → numSample .reference f n sr = 0) ∧
    (4 * (f * n % sr) = sr → numSample .reference f n sr = 32767) ∧
    (4 * (f * n % sr) = 3 * sr → numSample .reference f n sr = -32767) ∧
    (12 * (f * n % sr) = sr → numSample .reference f n sr = 16384) ∧
    (12 * (f * n % sr) = 7 * sr → numSample .reference f n sr = -16384)

/-- Every instance of NUM.peak stays in the range of bins and gives bin 0 for silence and for one sample. -/
def Obligations.PeakKeepsTheAdmittedProperties : Prop :=
  ∀ (num : Numerics) (x : List ℤ),
    numPeak num x ≤ x.length / 2 ∧ ((∀ v ∈ x, v = 0) → numPeak num x = 0) ∧ (x.length = 1 → numPeak num x = 0)

/-- R123 (with R122): whatever the reference peak search settles on is the least bin of maximum power over the real
numbers. -/
def Obligations.SettledPeakIsTheFirstMaximum : Prop :=
  ∀ (x : List ℤ) (fuel p k : Nat), x ≠ [] → peakSearch fuel p (autocorrelation x) = some k → IsPeak x k

/-- The peak search always settles, so the reference PEAK is exactly R122 and R123. -/
def Obligations.ReferencePeakIsTheFirstMaximum : Prop :=
  ∀ x : List ℤ, x ≠ [] → x.length < 2 ^ 29 → (∀ v ∈ x, -32768 ≤ v ∧ v ≤ 32767) → IsPeak x (numPeak .reference x)

/-- R120: the first index and the number of samples of a slice, from the exact quotients; and the slice holds exactly
the samples of the buffer whose index the window covers. -/
def Obligations.SliceHoldsTheWindow : Prop :=
  ∀ sr a b len n : Nat,
    (slice sr a b len).1 = min ⌊(a : ℚ) * sr / 1000⌋₊ len ∧
    (slice sr a b len).2 = min (⌊(b : ℚ) * sr / 1000⌋₊ + 1) len - min ⌊(a : ℚ) * sr / 1000⌋₊ len ∧
    ((slice sr a b len).1 ≤ n ∧ n < (slice sr a b len).1 + (slice sr a b len).2 ↔
      n < len ∧ a * sr < (n + 1) * 1000 ∧ n * 1000 ≤ b * sr) ∧
    (slice sr a b len).1 + (slice sr a b len).2 ≤ len

/-- R125 and R77: the class is decided by the dominant frequency `k * sr / N` as an exact rational. -/
def Obligations.ClassIsTheFrequencysBand : Prop :=
  (∀ k n sr : Nat, 0 < n → 0 < sr →
    (classify k n sr = .silence ↔ (k * sr : ℚ) / n = 0) ∧
    (classify k n sr = .zero ↔ 0 < (k * sr : ℚ) / n ∧ (k * sr : ℚ) / n < 100) ∧
    (classify k n sr = .one ↔ 100 < (k * sr : ℚ) / n) ∧
    (classify k n sr = .unclassified ↔ (k * sr : ℚ) / n = 100)) ∧
  (∀ sr : Nat, classify 0 0 sr = .silence) ∧
  ToneClass.silence.code = 0 ∧ ToneClass.zero.code = 1 ∧ ToneClass.one.code = 2 ∧ ToneClass.unclassified.code = 3

/-! ### Commands -/

/-- R95: GEN, its word, its result, its faults in their order, and what it leaves alone. -/
def Obligations.GenFollowsItsRule : Prop :=
  decode (.cmd32 0x00000001) = .ok .gen ∧
  ∀ s : State,
    (s.srate = 0 → exec .gen s = .next { s with
      txlen := 0, faultFlag := true, faultCode := 4, faultInfo := 1, encOut := none }) ∧
    (s.srate ≠ 0 → s.dur = 0 → exec .gen s = .next { s with
      txlen := 0, faultFlag := true, faultCode := 4, faultInfo := 2, encOut := none }) ∧
    (s.srate ≠ 0 → s.dur ≠ 0 → s.cfg.txDepth.val < count s.srate.toNat s.dur.toNat →
      exec .gen s = .next { s with
        txlen := 0, faultFlag := true, faultCode := 5, faultInfo := 3, encOut := none }) ∧
    (s.srate ≠ 0 → s.dur ≠ 0 → count s.srate.toNat s.dur.toNat ≤ s.cfg.txDepth.val →
      ∃ t, exec .gen s = .next t ∧ t.txlen.toNat = count s.srate.toNat s.dur.toNat ∧
        (∀ n, n < count s.srate.toNat s.dur.toNat → ∃ v, t.mem.tx.read n = some v ∧
          v.toInt = numSample s.cfg.num s.freq.toNat n s.srate.toNat) ∧
        (∀ n, count s.srate.toNat s.dur.toNat ≤ n → t.mem.tx.read n = s.mem.tx.read n) ∧
        { t with mem := { t.mem with tx := s.mem.tx }, txlen := s.txlen } = s)

/-- SCR (R101, with R100): its word, its text character by character, its faults in their order, and what it leaves
alone. (The model's choice in every clause: the field scrRan, which is set also where SCR ends with a fault,
notes/assumptions/10.md.) -/
def Obligations.ScrFollowsItsRule : Prop :=
  decode (.cmd32 0x00000002) = .ok .scr ∧
  ∀ s : State,
    (s.cfg.msgDepth.val < s.msglen.toNat → exec .scr s = .next { s with
      symlen := 0, scrRan := true, faultFlag := true, faultCode := 4, faultInfo := 3, encOut := none }) ∧
    (s.msglen.toNat ≤ s.cfg.msgDepth.val → s.msglen ≠ 0 → s.cfg.symDepth.val < 9 * s.msglen.toNat - 1 →
      exec .scr s = .next { s with
        symlen := 0, scrRan := true, faultFlag := true, faultCode := 5, faultInfo := 2, encOut := none }) ∧
    (s.msglen.toNat ≤ s.cfg.msgDepth.val → 9 * s.msglen.toNat - 1 ≤ s.cfg.symDepth.val →
      ∀ m : List Byte, m.length = s.msglen.toNat → (∀ j, j < m.length → s.mem.msg.read j = m[j]?) →
      ∃ t, exec .scr s = .next t ∧ t.symlen.toNat = 9 * m.length - 1 ∧
        (∀ j (h : j < m.length) (b : Nat), b < 8 →
          t.mem.sym.read (9 * j + (7 - b)) = some (if m[j].getLsbD b then 0x31 else 0x30)) ∧
        (∀ j, j + 1 < m.length → t.mem.sym.read (9 * j + 8) = some 0x20) ∧
        (∀ q, 9 * m.length - 1 ≤ q → t.mem.sym.read q = s.mem.sym.read q) ∧
        t.scrRan = true ∧
        { t with mem := { t.mem with sym := s.mem.sym }, symlen := s.symlen, scrRan := s.scrRan } = s)

/-- R102, R103, R104: each symbol appends its own segment after the samples written so far, or records BufferOverflow
when it does not fit. -/
def Obligations.SymbolsAppendTheirSegments : Prop :=
  decode (.sym8 0x30) = .ok .symZero ∧ decode (.sym8 0x31) = .ok .symOne ∧ decode (.sym8 0x20) = .ok .symSilence ∧
  ∀ (i : Instr) (f d : Nat),
    ((i = .symZero ∧ f = 36 ∧ d = 250) ∨ (i = .symOne ∧ f = 196 ∧ d = 250) ∨
      (i = .symSilence ∧ f = 0 ∧ d = 500)) →
    ∀ (s : State) (out : Nat), s.encOut = some out → s.srate ≠ 0 →
      (s.cfg.txDepth.val < out + count s.srate.toNat d → exec i s = .next { s with
        txlen := 0, faultFlag := true, faultCode := 5, faultInfo := 3, encOut := none }) ∧
      (out + count s.srate.toNat d ≤ s.cfg.txDepth.val →
        ∃ t, exec i s = .next t ∧ t.encOut = some (out + count s.srate.toNat d) ∧
          (∀ n, n < count s.srate.toNat d → ∃ v, t.mem.tx.read (out + n) = some v ∧
            v.toInt = numSample s.cfg.num f n s.srate.toNat) ∧
          (∀ n, n < out ∨ out + count s.srate.toNat d ≤ n → t.mem.tx.read n = s.mem.tx.read n) ∧
          { t with mem := { t.mem with tx := s.mem.tx }, encOut := s.encOut } = s)

/-- A symbol where no ENC has prepared for it, the model's choice: at SRATE = 0 it records ENC's fault
(notes/assumptions/7.md); with no ENC in progress it starts at sample 0 (notes/assumptions/8.md). -/
def Obligations.SymbolOutsideEncIsDefined : Prop :=
  ∀ (i : Instr) (s : State), i.isCommand = false →
    (s.srate = 0 → exec i s = .next { s with
      txlen := 0, faultFlag := true, faultCode := 4, faultInfo := 1, encOut := none }) ∧
    (s.srate ≠ 0 → s.encOut = none → exec i s = exec i { s with encOut := some 0 })

/-- R105: ENC, its word, its waveform, its faults in their order and where they leave SYMPOS, and what it leaves
alone. -/
def Obligations.EncFollowsItsRule : Prop :=
  decode (.cmd32 0x00000003) = .ok .enc ∧
  ∀ s : State,
    (s.srate = 0 → exec .enc s = .next { s with
      sympos := 0, txlen := 0, faultFlag := true, faultCode := 4, faultInfo := 1, encOut := none }) ∧
    (s.srate ≠ 0 → s.cfg.symDepth.val < s.symlen.toNat → exec .enc s = .next { s with
      sympos := 0, txlen := 0, faultFlag := true, faultCode := 4, faultInfo := 4, encOut := none }) ∧
    (s.srate ≠ 0 → s.symlen.toNat ≤ s.cfg.symDepth.val →
      ∀ text : List Byte, text.length = s.symlen.toNat → (∀ p, p < text.length → s.mem.sym.read p = text[p]?) →
      ((∀ c ∈ text, toneOf c ≠ none) →
        (waveform s.cfg.num s.srate.toNat text).length ≤ s.cfg.txDepth.val →
        ∃ t, exec .enc s = .next t ∧ t.sympos = s.symlen ∧ t.encOut = none ∧ t.faultFlag = s.faultFlag ∧
          t.faultCode = s.faultCode ∧ t.faultInfo = s.faultInfo ∧
          t.txlen.toNat = (waveform s.cfg.num s.srate.toNat text).length ∧
          (∀ n, n < t.txlen.toNat → t.mem.tx.read n = (waveform s.cfg.num s.srate.toNat text)[n]?) ∧
          (∀ n, t.txlen.toNat ≤ n → t.mem.tx.read n = s.mem.tx.read n) ∧ OnlyEncoderChanged s t) ∧
      (∀ p, p < text.length → (∀ c ∈ text.take p, toneOf c ≠ none) →
        (waveform s.cfg.num s.srate.toNat (text.take p)).length ≤ s.cfg.txDepth.val →
        (∀ c, text[p]? = some c → toneOf c = none) →
        ∃ t, exec .enc s = .next t ∧ Recorded t 1 p ∧ t.sympos.toNat = p ∧ t.txlen = 0 ∧ t.encOut = none ∧
          (∀ n, (waveform s.cfg.num s.srate.toNat (text.take p)).length ≤ n →
            t.mem.tx.read n = s.mem.tx.read n) ∧ OnlyEncoderChanged s t) ∧
      (∀ p, p < text.length → (∀ c ∈ text.take (p + 1), toneOf c ≠ none) →
        (waveform s.cfg.num s.srate.toNat (text.take p)).length ≤ s.cfg.txDepth.val →
        s.cfg.txDepth.val < (waveform s.cfg.num s.srate.toNat (text.take (p + 1))).length →
        ∃ t, exec .enc s = .next t ∧ Recorded t 5 3 ∧ t.sympos.toNat = p ∧ t.txlen = 0 ∧ t.encOut = none ∧
          (∀ n, (waveform s.cfg.num s.srate.toNat (text.take p)).length ≤ n →
            t.mem.tx.read n = s.mem.tx.read n) ∧ OnlyEncoderChanged s t))

/-- The length of the waveform by the numbers of its symbols. -/
def Obligations.WaveformLengthBySymbols : Prop :=
  ∀ (num : Numerics) (sr : Nat) (text : List Byte), (∀ c ∈ text, toneOf c ≠ none) →
    (waveform num sr text).length =
      (text.count 0x30 + text.count 0x31) * count sr 250 + text.count 0x20 * count sr 500

/-- The length of the waveform of a message of `m.length` bytes at 44100 Hz. -/
def Obligations.MessageLengthAtDefaultRate : Prop :=
  ∀ (num : Numerics) (m : List Byte), m ≠ [] →
    (waveform num 44100 (scramble m)).length = 110250 * m.length - 22050

/-- ENC as one step is its text interpreted character by character, one step each (the model's two views of ENC agree,
faults included: notes/assumptions/6.md). -/
def Obligations.EncIsItsSymbolsOneByOne : Prop :=
  ∀ s : State, s.srate ≠ 0 → s.symlen.toNat ≤ s.cfg.symDepth.val → s.pending = [] →
    core.run (s.symlen.toNat + 1) { s with sympos := 0, encOut := some 0 } = exec .enc s

/-- R127 (with R121): DET, its word, its result, its faults in their order, and what it leaves alone. -/
def Obligations.DetFollowsItsRule : Prop :=
  decode (.cmd32 0x00000004) = .ok .det ∧
  ∀ s : State,
    (s.srate = 0 → exec .det s = .next { s with
      dbin := 0, dlen := 0, dclass := 0, faultFlag := true, faultCode := 4, faultInfo := 1, encOut := none }) ∧
    (s.srate ≠ 0 → s.cfg.rxDepth.val < s.rxlen.toNat → exec .det s = .next { s with
      dbin := 0, dlen := 0, dclass := 0, faultFlag := true, faultCode := 4, faultInfo := 5, encOut := none }) ∧
    (s.srate ≠ 0 → s.rxlen.toNat ≤ s.cfg.rxDepth.val → s.mem.rx.Filled s.rxlen.toNat →
      ∃ t, exec .det s = .next t ∧
        (t.dbin.toNat, t.dlen.toNat, t.dclass) =
          ((windowResult s s.wstart.toNat s.wend.toNat).1, (windowResult s s.wstart.toNat s.wend.toNat).2.1,
            (windowResult s s.wstart.toNat s.wend.toNat).2.2.code) ∧
        { t with dbin := s.dbin, dlen := s.dlen, dclass := s.dclass } = s)

/-- R145 (with R135 to R143): DEC, its word, its operand faults in their order, and then what the decoder of the
source does over bit strings, given the classes of the windows; a fault leaves the registers at the window where it was
raised. -/
def Obligations.DecIsTheStringDecoder : Prop :=
  decode (.cmd32 0x00000005) = .ok .dec ∧
  ∀ s : State,
    (s.srate = 0 → exec .dec s = .next { s with
      widx := 0, skip := false, accLen := 0, accVal := 0, outlen := 0, wtotal := 0, faultFlag := true,
      faultCode := 4, faultInfo := 1, encOut := none }) ∧
    (s.srate ≠ 0 → s.cfg.rxDepth.val < s.rxlen.toNat → exec .dec s = .next { s with
      widx := 0, skip := false, accLen := 0, accVal := 0, outlen := 0, wtotal := 0, faultFlag := true,
      faultCode := 4, faultInfo := 5, encOut := none }) ∧
    (s.srate ≠ 0 → s.rxlen.toNat ≤ s.cfg.rxDepth.val → s.mem.rx.Filled s.rxlen.toNat →
      (∀ d, decodeText s.strict s.cfg.outDepth.val (windowClasses s) = .ok d →
        ∃ t, exec .dec s = .next t ∧ t.outlen.toNat = d.groups.length ∧
          (∀ j g, d.groups[j]? = some g → t.mem.out.read j = some (groupWord g)) ∧
          (∀ j, d.groups.length ≤ j → t.mem.out.read j = s.mem.out.read j) ∧
          t.skip = d.skip ∧ t.accLen = 0 ∧ t.accVal = 0 ∧
          t.wtotal.toNat = 8 * s.rxlen.toNat / s.srate.toNat ∧ t.widx = t.wtotal ∧
          t.faultFlag = s.faultFlag ∧ t.faultCode = s.faultCode ∧ t.faultInfo = s.faultInfo ∧ t.encOut = s.encOut ∧
          OnlyDecoderChanged s t) ∧
      (∀ e, decodeText s.strict s.cfg.outDepth.val (windowClasses s) = .error e →
        ∃ t, exec .dec s = .next t ∧ Recorded t e.cause.code e.info ∧ t.outlen = 0 ∧ t.widx.toNat = e.window ∧
          t.wtotal.toNat = 8 * s.rxlen.toNat / s.srate.toNat ∧ t.skip = e.text.skip ∧
          t.accLen.toNat = e.text.acc.length ∧ t.accVal.toNat = bitsValue e.text.acc ∧ t.encOut = none ∧
          (∀ j, e.text.groups.length ≤ j → t.mem.out.read j = s.mem.out.read j) ∧ OnlyDecoderChanged s t))

/-- DEC completes without a fault on every buffer of at most 24 windows that OUTBUF has room for, strict mode off. -/
def Obligations.DecCompletesOnShortBuffers : Prop :=
  ∀ s : State, s.srate ≠ 0 → s.rxlen.toNat ≤ s.cfg.rxDepth.val → s.mem.rx.Filled s.rxlen.toNat →
    s.strict = false → 8 * s.rxlen.toNat / s.srate.toNat ≤ 24 →
    8 * s.rxlen.toNat / s.srate.toNat ≤ 3 * s.cfg.outDepth.val →
    ∃ t, exec .dec s = .next t ∧ t.faultFlag = s.faultFlag ∧ t.faultCode = s.faultCode ∧
      t.widx.toNat = 8 * s.rxlen.toNat / s.srate.toNat ∧ t.wtotal = t.widx ∧ t.accLen = 0 ∧ t.accVal = 0 ∧
      t.outlen.toNat ≤ s.cfg.outDepth.val ∧ OnlyDecoderChanged s t

/-- What a DEC without fault emits: groups of 1 to 24 bits, and at most one for every three windows or part of it. -/
def Obligations.DecGroupsAreBounded : Prop :=
  ∀ s t : State, exec .dec s = .next t → t.faultFlag = false →
    3 * t.outlen.toNat ≤ t.wtotal.toNat + 2 ∧
    ∀ j, j < t.outlen.toNat → ∃ g, t.mem.out.read j = some g ∧ IsGroup g

/-- A buffer of zeros gives the empty message and no fault, whatever NUM is. -/
def Obligations.SilenceDecodesToNothing : Prop :=
  ∀ s : State, s.srate ≠ 0 → s.rxlen.toNat ≤ s.cfg.rxDepth.val →
    (∀ n, n < s.rxlen.toNat → s.mem.rx.read n = some 0) →
    ∃ t, exec .dec s = .next t ∧ t.outlen = 0 ∧ t.accLen = 0 ∧ t.accVal = 0 ∧ t.skip = false ∧
      t.faultFlag = s.faultFlag ∧ t.widx = t.wtotal ∧
      t.wtotal.toNat = 8 * s.rxlen.toNat / s.srate.toNat ∧ t.mem = s.mem

/-- DEC is a function of RXBUF, RXLEN, SRATE, STRICT and the parameters: nothing of an earlier command influences what
the host can read of its results. -/
def Obligations.DecDependsOnlyOnItsInputs : Prop :=
  ∀ s₁ s₂ t₁ : State, s₁.cfg = s₂.cfg → s₁.srate = s₂.srate → s₁.rxlen = s₂.rxlen → s₁.strict = s₂.strict →
    s₁.mem.rx = s₂.mem.rx → s₁.faultFlag = s₂.faultFlag → s₁.faultCode = s₂.faultCode → s₁.faultInfo = s₂.faultInfo →
    exec .dec s₁ = .next t₁ →
    ∃ t₂, exec .dec s₂ = .next t₂ ∧ t₁.outlen = t₂.outlen ∧ t₁.widx = t₂.widx ∧ t₁.wtotal = t₂.wtotal ∧
      t₁.accLen = t₂.accLen ∧ t₁.accVal = t₂.accVal ∧ t₁.skip = t₂.skip ∧ t₁.faultFlag = t₂.faultFlag ∧
      t₁.faultCode = t₂.faultCode ∧ t₁.faultInfo = t₂.faultInfo ∧
      ∀ j, j < t₁.outlen.toNat → t₁.mem.out.read j = t₂.mem.out.read j

/-- The host's transfer between TXBUF and RXBUF, run operation by operation: every sample, or every second one, stands
in RXBUF, RXLEN is their number, and SRATE is unchanged. -/
def Obligations.TransferCopiesTheSamples : Prop :=
  ∀ (s : State) (x : Xfer) (stride : Nat),
    ((x = .identity ∧ stride = 1) ∨ (x = .decimate2 ∧ stride = 2)) →
    s.encOut = none → s.txlen.toNat ≤ s.cfg.txDepth.val → s.mem.tx.Filled s.txlen.toNat →
    (s.txlen.toNat + stride - 1) / stride ≤ s.cfg.rxDepth.val →
    ∃ t, core.run (xferOps x s).length { s with pending := (xferOps x s).map Input.host } = .next t ∧
      t.rxlen.toNat = (s.txlen.toNat + stride - 1) / stride ∧
      (∀ n, n < t.rxlen.toNat → t.mem.rx.read n = s.mem.tx.read (stride * n)) ∧
      (∀ n, t.rxlen.toNat ≤ n → t.mem.rx.read n = s.mem.rx.read n) ∧
      { t with
        mem := { t.mem with rx := s.mem.rx }, rxlen := s.rxlen, pending := s.pending, reply := s.reply,
        marks := s.marks } = s

/-! ### The end of a run -/

/-- R193: a run of host operations has ended exactly when its last operation has completed, one step for each, and not
before; it then stays ended; and it has ended well when STATUS.FAULT = 0. (A run as a list of inputs: the model's choice,
notes/assumptions/4.md.) -/
def Obligations.RunEndsWithItsLastOperation : Prop :=
  ∀ (s : State) (ops : List HostOp), s.encOut = none →
    (∀ t, RunEndsIn ops s t ↔ core.run ops.length { s with pending := ops.map Input.host } = .next t) ∧
    (∀ k u, k < ops.length → core.run k { s with pending := ops.map Input.host } = .next u → ¬u.Ended) ∧
    (∀ t, RunEndsIn ops s t → step t = .next t) ∧
    (∀ t, RunEndsWellIn ops s t ↔ RunEndsIn ops s t ∧ regRead 1 t &&& 1 = 0)

end
end

