-- ==== Sys2Proof/Laws/Operands.lean ====
section
/-! SUPPORT. One spec lemma for each of the pure functions of the commands. -/

namespace Sys2Proof.Machine

/-- `rneDiv` is the nearest integer, and the even one on a tie (spec/00_scope.md R7). -/
theorem rneDiv_nearest (num den : Nat) (h : 0 < den) :
    2 * num ≤ (2 * rneDiv num den + 1) * den ∧ 2 * rneDiv num den * den ≤ 2 * num + den ∧
      ((2 * num = (2 * rneDiv num den + 1) * den ∨ 2 * rneDiv num den * den = 2 * num + den) →
        rneDiv num den % 2 = 0) := by
  have e := Nat.div_add_mod num den
  have hm := Nat.mod_lt num h
  unfold rneDiv
  simp only
  generalize num / den = q at *
  generalize num % den = r at *
  subst e
  split
  · refine ⟨by nlinarith, by nlinarith, ?_⟩
    rintro (h1 | h1) <;> exfalso <;> nlinarith
  · split
    · refine ⟨by nlinarith, by nlinarith, ?_⟩
      rintro (h1 | h1) <;> exfalso <;> nlinarith
    · have hr : 2 * r = den := by omega
      split
      · rename_i hq
        exact ⟨by nlinarith, by nlinarith, fun _ => hq⟩
      · exact ⟨by nlinarith, by nlinarith, fun _ => by omega⟩

theorem bits8_length (b : Byte) : (bits8 b).length = 8 := rfl

/-- Entry `i` of BITS8 is bit `7 - i` (R100). -/
theorem bits8_get (b : Byte) (i : Nat) (h : i < 8) : (bits8 b)[i]? = some (bitChar b (7 - i)) := by
  obtain rfl | rfl | rfl | rfl | rfl | rfl | rfl | rfl :
      i = 0 ∨ i = 1 ∨ i = 2 ∨ i = 3 ∨ i = 4 ∨ i = 5 ∨ i = 6 ∨ i = 7 := by omega
  all_goals rfl

theorem scramble_cons_cons (b c : Byte) (m : List Byte) :
    scramble (b :: c :: m) = bits8 b ++ 0x20 :: scramble (c :: m) := by
  rw [scramble]

/-- `len(SCRAMBLE(m))` (R100). -/
theorem scramble_length (m : List Byte) : (scramble m).length = symbolsNeeded m.length := by
  induction m with
  | nil => rfl
  | cons b m ih =>
    cases m with
    | nil => rfl
    | cons c m =>
      rw [scramble_cons_cons, List.length_append, bits8_length, List.length_cons, ih]
      simp only [symbolsNeeded, List.length_cons]
      split <;> split <;> omega

/-- Character `9 * j + i` of SCRAMBLE is bit `7 - i` of byte `j` (R100, R79). -/
theorem scramble_bit (m : List Byte) (j i : Nat) (hj : j < m.length) (hi : i < 8) :
    (scramble m)[9 * j + i]? = some (bitChar m[j] (7 - i)) := by
  induction m generalizing j with
  | nil => simp at hj
  | cons b m ih =>
    cases m with
    | nil =>
      obtain rfl : j = 0 := by simp at hj; exact hj
      simpa [scramble] using bits8_get b i hi
    | cons c m =>
      rw [scramble_cons_cons]
      cases j with
      | zero =>
        rw [List.getElem?_append_left (by rw [bits8_length]; omega)]
        simpa using bits8_get b i hi
      | succ j =>
        rw [List.getElem?_append_right (by rw [bits8_length]; omega), bits8_length,
          show 9 * (j + 1) + i - 8 = (9 * j + i) + 1 by omega, List.getElem?_cons_succ]
        simpa using ih j (by simpa using hj)

/-- Character `9 * j + 8` of SCRAMBLE is the space between byte `j` and the next (R100). -/
theorem scramble_space (m : List Byte) (j : Nat) (hj : j + 1 < m.length) :
    (scramble m)[9 * j + 8]? = some 0x20 := by
  induction m generalizing j with
  | nil => simp at hj
  | cons b m ih =>
    cases m with
    | nil => simp at hj
    | cons c m =>
      rw [scramble_cons_cons, List.getElem?_append_right (by rw [bits8_length]; omega), bits8_length]
      cases j with
      | zero => rfl
      | succ j =>
        rw [show 9 * (j + 1) + 8 - 8 = (9 * j + 8) + 1 by omega, List.getElem?_cons_succ]
        exact ih j (by simpa using hj)

/-- A slice lies inside the buffer (R120, spec/20_memory.md R54). -/
theorem slice_inside (sr a b len : Nat) : (slice sr a b len).1 + (slice sr a b len).2 ≤ len := by
  simp only [slice]
  omega

theorem segment_length (num : Numerics) (f d sr : Nat) : (segment num f d sr).length = count sr d := by
  simp [segment]

/-- Sample `n` of a segment is SAMPLE(f, n, sr) (R93). -/
theorem segment_get (num : Numerics) (f d sr n : Nat) (h : n < count sr d) :
    (segment num f d sr)[n]? = some (BitVec.ofInt 16 (numSample num f n sr)) := by
  simp [segment, h]

/-- The properties every admitted instance of NUM.sample keeps (R92 items 1 to 3, R94). -/
theorem numSample_range (num : Numerics) (f n sr : Nat) : -32767 ≤ numSample num f n sr ∧ numSample num f n sr ≤ 32767 := by
  unfold numSample
  split
  · omega
  · simp only [Config.amp]
    omega

theorem numSample_silent (num : Numerics) (n sr : Nat) : numSample num 0 n sr = 0 := by simp [numSample]

theorem numSample_first (num : Numerics) (f sr : Nat) : numSample num f 0 sr = 0 := by simp [numSample]

/-- A sample is stored as the pattern that reads back as it (spec/20_memory.md R53). -/
theorem numSample_toInt (num : Numerics) (f n sr : Nat) :
    (BitVec.ofInt 16 (numSample num f n sr)).toInt = numSample num f n sr := by
  have := numSample_range num f n sr
  rw [BitVec.toInt_ofInt, Int.bmod_eq_of_le] <;> omega

/-- The properties every admitted instance of NUM.peak keeps (R128 items 1 to 3, R126). -/
theorem numPeak_le (num : Numerics) (x : List Int) : numPeak num x ≤ x.length / 2 := by
  unfold numPeak
  split
  · omega
  · exact Nat.min_le_right _ _

theorem numPeak_zeros (num : Numerics) (x : List Int) (h : ∀ v ∈ x, v = 0) : numPeak num x = 0 := by
  unfold numPeak
  rw [if_pos (.inl (List.all_eq_true.2 fun v hv => by simpa using h v hv))]

theorem numPeak_single (num : Numerics) (x : List Int) (h : x.length = 1) : numPeak num x = 0 := by
  unfold numPeak
  rw [if_pos (.inr h)]

/-- A group word keeps its two fields (spec/30_encoding.md R78). -/
theorem pack_toNat {len val : Nat} (hl : len < 32) (hv : val < 2 ^ 24) :
    (pack len val).toNat = len * 2 ^ 24 + val := by
  rw [pack, BitVec.toNat_ofNat]
  omega

theorem groupLen_eq (g : Word) : groupLen g = g.toNat / 2 ^ 24 % 2 ^ 5 := by
  rw [groupLen, BitVec.extractLsb'_toNat, Nat.shiftRight_eq_div_pow]

theorem groupVal_eq (g : Word) : groupVal g = g.toNat % 2 ^ 24 := by
  rw [groupVal, BitVec.extractLsb'_toNat, Nat.shiftRight_eq_div_pow]
  simp

theorem groupLen_pack {len val : Nat} (hl : len < 32) (hv : val < 2 ^ 24) : groupLen (pack len val) = len := by
  rw [groupLen_eq, pack_toNat hl hv]
  omega

theorem groupVal_pack {len val : Nat} (hl : len < 32) (hv : val < 2 ^ 24) : groupVal (pack len val) = val := by
  rw [groupVal_eq, pack_toNat hl hv]
  omega

/-- WTOTAL fits its register for every sample rate (R136, R200). -/
theorem windowCount_lt (rxlen sr : Nat) (h : rxlen < 2 ^ 29) : windowCount rxlen sr < 2 ^ 32 := by
  unfold windowCount Config.wDiv
  exact (Nat.div_le_self _ _).trans_lt (by omega)

end Sys2Proof.Machine
end

