-- ==== Sys2Proof/Laws/Memory.lean ====
section
/-! SUPPORT. The laws of element access: reading after writing, the canonical form, reading a run of elements. -/

namespace Sys2Proof.Machine

variable {w : Nat}

@[simp] theorem Buf.read_nil (j : Nat) : Buf.read ([] : Buf w) j = none := rfl

theorem Buf.read_cons (e : Nat × BitVec w) (b : Buf w) (j : Nat) :
    Buf.read (e :: b) j = if e.1 = j then some e.2 else Buf.read b j := rfl

theorem Buf.read_append (a b : Buf w) (j : Nat) :
    Buf.read (a ++ b) j = (Buf.read a j).or (Buf.read b j) := by
  induction a with
  | nil => simp
  | cons e a ih =>
    simp only [List.cons_append, Buf.read_cons, ih]
    split <;> simp

theorem Buf.read_filter (p : Nat → Bool) (b : Buf w) (j : Nat) :
    Buf.read (b.filter fun e => p e.1) j = if p j then Buf.read b j else none := by
  induction b with
  | nil => simp
  | cons e b ih =>
    by_cases he : e.1 = j
    · subst he
      by_cases hp : p e.1 <;> simp [hp, Buf.read_cons, ih]
    · by_cases hp : p e.1 <;> simp [hp, Buf.read_cons, ih, he]

theorem Buf.read_run (start : Nat) (vs : List (BitVec w)) (j : Nat) :
    Buf.read (Buf.run start vs) j = if start ≤ j then vs[j - start]? else none := by
  induction vs generalizing start with
  | nil => simp [Buf.run]
  | cons v vs ih =>
    rw [Buf.run, Buf.read_cons, ih]
    rcases Nat.lt_trichotomy start j with h | h | h
    · have h1 : j - start = (j - (start + 1)) + 1 := by omega
      have h2 : start ≠ j := by omega
      rw [if_neg h2, if_pos (by omega), if_pos (by omega), h1, List.getElem?_cons_succ]
    · simp [h]
    · rw [if_neg (by omega), if_neg (by omega), if_neg (by omega)]

/-- Reading after a store: the stored value inside the run, the old one outside it. -/
theorem Buf.read_store (b : Buf w) (start : Nat) (vs : List (BitVec w)) (j : Nat) :
    (b.store start vs).read j =
      if start ≤ j ∧ j < start + vs.length then vs[j - start]? else b.read j := by
  unfold Buf.store
  rw [Buf.read_append, Buf.read_append, Buf.read_run,
    Buf.read_filter (fun i => decide (i < start)),
    Buf.read_filter (fun i => decide (start + vs.length ≤ i))]
  by_cases h1 : start ≤ j
  · by_cases h2 : j < start + vs.length
    · have h4 : j - start < vs.length := by omega
      have h5 : ¬ j < start := by omega
      have h6 : ¬ start + vs.length ≤ j := by omega
      simp [h1, h2, h4, h5, h6]
    · have h3 : vs[j - start]? = none := by rw [List.getElem?_eq_none_iff]; omega
      have h4 : ¬ j < start := by omega
      have h5 : start + vs.length ≤ j := by omega
      simp [h1, h2, h3, h4, h5]
  · have h4 : j < start := by omega
    have h5 : ¬ start + vs.length ≤ j := by omega
    simp [h1, h4, h5]

theorem Buf.read_store_inside (b : Buf w) {start : Nat} {vs : List (BitVec w)} {i : Nat} (h : i < vs.length) :
    (b.store start vs).read (start + i) = some vs[i] := by
  rw [Buf.read_store, if_pos ⟨by omega, by omega⟩, Nat.add_sub_cancel_left, List.getElem?_eq_getElem h]

theorem Buf.read_store_outside (b : Buf w) {start : Nat} {vs : List (BitVec w)} {j : Nat}
    (h : j < start ∨ start + vs.length ≤ j) : (b.store start vs).read j = b.read j := by
  rw [Buf.read_store, if_neg (by omega)]

/-- Reading after storing one element. -/
theorem Buf.read_store_one (b : Buf w) (j : Nat) (v : BitVec w) (i : Nat) :
    (b.store j [v]).read i = if i = j then some v else b.read i := by
  rw [Buf.read_store]
  by_cases h : i = j
  · subst h; simp
  · rw [if_neg h, if_neg (by simp only [List.length_singleton]; omega)]

theorem Buf.key_run {start : Nat} {vs : List (BitVec w)} {e : Nat × BitVec w} (h : e ∈ Buf.run start vs) :
    start ≤ e.1 ∧ e.1 < start + vs.length := by
  induction vs generalizing start with
  | nil => simp [Buf.run] at h
  | cons v vs ih =>
    simp only [Buf.run, List.mem_cons] at h
    rcases h with h | h
    · subst h; simp
    · have := ih h
      simp only [List.length_cons]; omega

/-- Every index of a buffer after a store is an old one or one of the run. -/
theorem Buf.key_store {b : Buf w} {start : Nat} {vs : List (BitVec w)} {e : Nat × BitVec w}
    (h : e ∈ b.store start vs) : e ∈ b ∨ (start ≤ e.1 ∧ e.1 < start + vs.length) := by
  simp only [Buf.store, List.mem_append, List.mem_filter] at h
  rcases h with (h | h) | h
  · exact .inl h.1
  · exact .inr (Buf.key_run h)
  · exact .inl h.1

theorem Buf.rising_run (start : Nat) (vs : List (BitVec w)) : (Buf.run start vs).Rising := by
  induction vs generalizing start with
  | nil => exact List.Pairwise.nil
  | cons v vs ih =>
    refine List.Pairwise.cons (fun e he => ?_) (ih _)
    have := Buf.key_run he
    show start < e.1
    omega

/-- A store keeps the canonical form. -/
theorem Buf.rising_store {b : Buf w} (hb : b.Rising) (start : Nat) (vs : List (BitVec w)) :
    (b.store start vs).Rising := by
  unfold Buf.store
  refine List.pairwise_append.2 ⟨List.pairwise_append.2 ⟨hb.filter _, Buf.rising_run _ _, ?_⟩, hb.filter _, ?_⟩
  · intro x hx y hy
    have := Buf.key_run hy
    have hx := (List.mem_filter.1 hx).2
    simp only [decide_eq_true_eq] at hx
    omega
  · intro x hx y hy
    have hy := (List.mem_filter.1 hy).2
    simp only [decide_eq_true_eq] at hy
    rcases List.mem_append.1 hx with hx | hx
    · have hx := (List.mem_filter.1 hx).2
      simp only [decide_eq_true_eq] at hx
      omega
    · have := Buf.key_run hx
      omega

/-- Memory operations keep the canonical form, one lemma for each space. -/
theorem Memory.wf_store_msg {m : Memory} (h : m.wf) (start : Nat) (vs : List (BitVec 8)) :
    Memory.wf { m with msg := m.msg.store start vs } := ⟨Buf.rising_store h.1 start vs, h.2⟩

theorem Memory.wf_store_sym {m : Memory} (h : m.wf) (start : Nat) (vs : List (BitVec 8)) :
    Memory.wf { m with sym := m.sym.store start vs } := ⟨h.1, Buf.rising_store h.2.1 start vs, h.2.2⟩

theorem Memory.wf_store_tx {m : Memory} (h : m.wf) (start : Nat) (vs : List (BitVec 16)) :
    Memory.wf { m with tx := m.tx.store start vs } := ⟨h.1, h.2.1, Buf.rising_store h.2.2.1 start vs, h.2.2.2⟩

theorem Memory.wf_store_rx {m : Memory} (h : m.wf) (start : Nat) (vs : List (BitVec 16)) :
    Memory.wf { m with rx := m.rx.store start vs } :=
  ⟨h.1, h.2.1, h.2.2.1, Buf.rising_store h.2.2.2.1 start vs, h.2.2.2.2⟩

theorem Memory.wf_store_out {m : Memory} (h : m.wf) (start : Nat) (vs : List (BitVec 32)) :
    Memory.wf { m with out := m.out.store start vs } :=
  ⟨h.1, h.2.1, h.2.2.1, h.2.2.2.1, Buf.rising_store h.2.2.2.2 start vs⟩

/-- The memory after a hard reset, and so that of `State.reset`, is in canonical form. -/
theorem Memory.wf_empty : Memory.empty.wf := by
  unfold Memory.wf Memory.empty Buf.Rising
  exact ⟨List.Pairwise.nil, List.Pairwise.nil, List.Pairwise.nil, List.Pairwise.nil, List.Pairwise.nil⟩

theorem State.reset_mem_wf : State.reset.mem.wf := Memory.wf_empty

/-- In canonical form an entry of the list is what its index reads as. -/
theorem Buf.read_of_mem {b : Buf w} (hb : b.Rising) {e : Nat × BitVec w} (he : e ∈ b) : b.read e.1 = some e.2 := by
  induction b with
  | nil => simp at he
  | cons x b ih =>
    rcases List.mem_cons.1 he with h | h
    · subst h; simp [Buf.read_cons]
    · have := (List.pairwise_cons.1 hb).1 e h
      rw [Buf.read_cons, if_neg (by omega)]
      exact ih (List.pairwise_cons.1 hb).2 h

theorem Buf.mem_of_read {b : Buf w} {j : Nat} {v : BitVec w} (h : b.read j = some v) : (j, v) ∈ b := by
  induction b with
  | nil => simp at h
  | cons x b ih =>
    rw [Buf.read_cons] at h
    split at h
    · rename_i hx
      subst hx
      simp only [Option.some.injEq] at h
      subst h
      exact List.mem_cons_self
    · exact List.mem_cons_of_mem _ (ih h)

/-- Equal readings, equal memories: the canonical form is one form. -/
theorem Buf.ext_of_read {a b : Buf w} (ha : a.Rising) (hb : b.Rising) (h : ∀ j, a.read j = b.read j) : a = b := by
  induction a generalizing b with
  | nil =>
    cases b with
    | nil => rfl
    | cons y b => have := h y.1; simp [Buf.read_cons] at this
  | cons x a ih =>
    cases b with
    | nil => have := h x.1; simp [Buf.read_cons] at this
    | cons y b =>
      have hx : Buf.read (y :: b) x.1 = some x.2 := by rw [← h]; simp [Buf.read_cons]
      have hy : Buf.read (x :: a) y.1 = some y.2 := by rw [h]; simp [Buf.read_cons]
      have hxy : x = y := by
        rcases List.mem_cons.1 (Buf.mem_of_read hx) with h1 | h1
        · exact h1
        · rcases List.mem_cons.1 (Buf.mem_of_read hy) with h2 | h2
          · exact h2.symm
          · have e1 := (List.pairwise_cons.1 hb).1 _ h1
            have e2 := (List.pairwise_cons.1 ha).1 _ h2
            simp only at e1 e2
            omega
      subst hxy
      congr 1
      refine ih (List.pairwise_cons.1 ha).2 (List.pairwise_cons.1 hb).2 fun j => ?_
      by_cases hj : x.1 = j
      · subst hj
        have na : Buf.read a x.1 = none := by
          rw [Option.eq_none_iff_forall_ne_some]
          intro v hv
          have := (List.pairwise_cons.1 ha).1 _ (Buf.mem_of_read hv)
          simp at this
        have nb : Buf.read b x.1 = none := by
          rw [Option.eq_none_iff_forall_ne_some]
          intro v hv
          have := (List.pairwise_cons.1 hb).1 _ (Buf.mem_of_read hv)
          simp at this
        rw [na, nb]
      · have := h j
        simpa [Buf.read_cons, hj] using this

/-- A store inside the depth stays below it. -/
theorem Buf.below_store {b : Buf w} {d start : Nat} {vs : List (BitVec w)} (hb : b.Below d)
    (h : start + vs.length ≤ d) : (b.store start vs).Below d := by
  intro e he
  rcases Buf.key_store he with h1 | h1
  · exact hb e h1
  · omega

/-- A store that starts inside the filled part, or at its end, extends it. -/
theorem Buf.filled_store {b : Buf w} {n start : Nat} {vs : List (BitVec w)} (hb : b.Filled n) (h : start ≤ n) :
    (b.store start vs).Filled (max n (start + vs.length)) := by
  intro j hj
  rw [Buf.read_store]
  split
  · rw [List.getElem?_eq_getElem (by omega)]
    rfl
  · exact hb j (by omega)

/-- A run reads as `vs` exactly when each of its elements does. -/
theorem Buf.readRun_eq_ok {b : Buf w} {start n : Nat} {vs : List (BitVec w)} :
    b.readRun start n = .ok vs ↔ vs.length = n ∧ ∀ i, i < n → b.read (start + i) = vs[i]? := by
  induction n generalizing start vs with
  | zero =>
    simp only [Buf.readRun, Except.ok.injEq, List.length_eq_zero_iff]
    constructor
    · intro h; exact ⟨h.symm, fun i hi => absurd hi (by omega)⟩
    · intro h; exact h.1.symm
  | succ n ih =>
    rw [Buf.readRun]
    cases hv : b.read start with
    | none =>
      simp only [reduceCtorEq, false_iff, not_and]
      intro hl h
      have := h 0 (by omega)
      rw [Nat.add_zero, hv, List.getElem?_eq_getElem (by omega)] at this
      simp at this
    | some v =>
      cases hr : b.readRun (start + 1) n with
      | error j =>
        simp only [reduceCtorEq, false_iff, not_and]
        intro hl h
        cases vs with
        | nil => simp at hl
        | cons v' vs' =>
          have : b.readRun (start + 1) n = .ok vs' := ih.2 ⟨by simpa using hl, fun i hi => by
            have := h (i + 1) (by omega)
            simpa [Nat.add_assoc, Nat.add_comm 1] using this⟩
          rw [hr] at this
          cases this
      | ok us =>
        have := ih.1 hr
        simp only [Except.ok.injEq]
        constructor
        · intro h
          subst h
          refine ⟨by simp [this.1], fun i hi => ?_⟩
          cases i with
          | zero => simpa using hv
          | succ i =>
            have := this.2 i (by omega)
            simpa [Nat.add_assoc, Nat.add_comm 1] using this
        · rintro ⟨hl, h⟩
          cases vs with
          | nil => simp at hl
          | cons v' vs' =>
            have h0 := h 0 (by omega)
            simp only [Nat.add_zero, hv, List.getElem?_cons_zero, Option.some.injEq] at h0
            have : b.readRun (start + 1) n = .ok vs' := ih.2 ⟨by simpa using hl, fun i hi => by
              have := h (i + 1) (by omega)
              simpa [Nat.add_assoc, Nat.add_comm 1] using this⟩
            rw [hr, Except.ok.injEq] at this
            rw [h0, this]

/-- A run stops at its first element without value. -/
theorem Buf.readRun_eq_error {b : Buf w} {start n j : Nat} (h : b.readRun start n = .error j) :
    start ≤ j ∧ j < start + n ∧ b.read j = none ∧ ∀ i, start ≤ i → i < j → (b.read i).isSome := by
  induction n generalizing start with
  | zero => simp [Buf.readRun] at h
  | succ n ih =>
    rw [Buf.readRun] at h
    cases hv : b.read start with
    | none =>
      rw [hv] at h
      simp only [Except.error.injEq] at h
      subst h
      exact ⟨Nat.le_refl _, by omega, hv, fun i h1 h2 => absurd h1 (by omega)⟩
    | some v =>
      rw [hv] at h
      cases hr : b.readRun (start + 1) n with
      | ok us => rw [hr] at h; simp at h
      | error j' =>
        rw [hr] at h
        simp only [Except.error.injEq] at h
        subst h
        obtain ⟨h1, h2, h3, h4⟩ := ih hr
        refine ⟨by omega, by omega, h3, fun i hi hj => ?_⟩
        by_cases he : i = start
        · subst he; simp [hv]
        · exact h4 i (by omega) hj

/-- A run all of whose elements have a value reads as some list. -/
theorem Buf.readRun_isOk {b : Buf w} {start n : Nat} (h : ∀ i, i < n → (b.read (start + i)).isSome) :
    ∃ vs, b.readRun start n = .ok vs := by
  cases hr : b.readRun start n with
  | ok vs => exact ⟨vs, rfl⟩
  | error j =>
    obtain ⟨h1, h2, h3, -⟩ := Buf.readRun_eq_error hr
    have := h (j - start) (by omega)
    rw [show start + (j - start) = j by omega, h3] at this
    simp at this

/-! ### The marks -/

theorem Marks.sound_empty (m : Memory) : Marks.empty.Sound m := by
  refine ⟨⟨.nil, .nil, .nil⟩, fun b j h => ?_⟩
  cases b <;> cases h

/-- The buffers the block alone writes carry no marks. -/
theorem Marks.sound_blockWritten {k : Marks} {m : Memory} (tx : Buf 16) (out : Buf 32) (h : k.Sound m) :
    k.Sound { m with tx := tx, out := out } := by
  refine ⟨h.1, fun b j hb => ?_⟩
  cases b <;> first | exact h.2 _ j hb | cases hb

/-- What SCR stores leaves a marked element with a value. -/
theorem Marks.sound_store_sym {k : Marks} {m : Memory} (start : Nat) (vs : List Byte) (h : k.Sound m) :
    k.Sound { m with sym := m.sym.store start vs } := by
  refine ⟨h.1, fun b j hb => ?_⟩
  cases b
  · exact h.2 .msg j hb
  · show ((m.sym.store start vs).read j).isSome = true
    rw [Buf.read_store]
    split
    · rw [List.getElem?_eq_getElem (by omega)]
      rfl
    · exact h.2 .sym j hb
  · cases hb
  · exact h.2 .rx j hb
  · cases hb

end Sys2Proof.Machine
end

