-- ==== Sys2Proof/Laws/State.lean ====
section
/-! SUPPORT. One lemma per named update of the state: what it changes, and that it changes nothing else. -/

namespace Sys2Proof.Machine

/-- Fault entry, written out: the discarded outputs, the fault registers, the end of the command (R174). -/
theorem faultEntry_issue (c : Cause) (info : Nat) (s : State) : faultEntry .issue c info s =
    { s with faultCode := c.code, faultInfo := BitVec.ofNat 32 info, faultFlag := true, encOut := none } := rfl

theorem faultEntry_gen (c : Cause) (info : Nat) (s : State) : faultEntry .gen c info s =
    { s with txlen := 0, faultCode := c.code, faultInfo := BitVec.ofNat 32 info, faultFlag := true,
             encOut := none } := rfl

theorem faultEntry_scr (c : Cause) (info : Nat) (s : State) : faultEntry .scr c info s =
    { s with symlen := 0, scrRan := true, faultCode := c.code, faultInfo := BitVec.ofNat 32 info, faultFlag := true,
             encOut := none } := rfl

theorem faultEntry_enc (c : Cause) (info : Nat) (s : State) : faultEntry .enc c info s =
    { s with txlen := 0, faultCode := c.code, faultInfo := BitVec.ofNat 32 info, faultFlag := true,
             encOut := none } := rfl

theorem faultEntry_det (c : Cause) (info : Nat) (s : State) : faultEntry .det c info s =
    { s with dbin := 0, dlen := 0, dclass := 0, faultCode := c.code, faultInfo := BitVec.ofNat 32 info,
             faultFlag := true, encOut := none } := rfl

theorem faultEntry_dec (c : Cause) (info : Nat) (s : State) : faultEntry .dec c info s =
    { s with outlen := 0, faultCode := c.code, faultInfo := BitVec.ofNat 32 info, faultFlag := true,
             encOut := none } := rfl

section
variable (r : Running) (c : Cause) (info : Nat) (s : State)

@[simp] theorem faultEntry_faultFlag : (faultEntry r c info s).faultFlag = true := rfl
@[simp] theorem faultEntry_faultCode : (faultEntry r c info s).faultCode = c.code := rfl
@[simp] theorem faultEntry_faultInfo : (faultEntry r c info s).faultInfo = BitVec.ofNat 32 info := rfl
@[simp] theorem faultEntry_encOut : (faultEntry r c info s).encOut = none := rfl
@[simp] theorem faultEntry_cfg : (faultEntry r c info s).cfg = s.cfg := by cases r <;> rfl
@[simp] theorem faultEntry_skip : (faultEntry r c info s).skip = s.skip := by cases r <;> rfl
@[simp] theorem faultEntry_strict : (faultEntry r c info s).strict = s.strict := by cases r <;> rfl
@[simp] theorem faultEntry_srate : (faultEntry r c info s).srate = s.srate := by cases r <;> rfl
@[simp] theorem faultEntry_freq : (faultEntry r c info s).freq = s.freq := by cases r <;> rfl
@[simp] theorem faultEntry_dur : (faultEntry r c info s).dur = s.dur := by cases r <;> rfl
@[simp] theorem faultEntry_wstart : (faultEntry r c info s).wstart = s.wstart := by cases r <;> rfl
@[simp] theorem faultEntry_wend : (faultEntry r c info s).wend = s.wend := by cases r <;> rfl
@[simp] theorem faultEntry_msglen : (faultEntry r c info s).msglen = s.msglen := by cases r <;> rfl
@[simp] theorem faultEntry_rxlen : (faultEntry r c info s).rxlen = s.rxlen := by cases r <;> rfl
@[simp] theorem faultEntry_sympos : (faultEntry r c info s).sympos = s.sympos := by cases r <;> rfl
@[simp] theorem faultEntry_widx : (faultEntry r c info s).widx = s.widx := by cases r <;> rfl
@[simp] theorem faultEntry_wtotal : (faultEntry r c info s).wtotal = s.wtotal := by cases r <;> rfl
@[simp] theorem faultEntry_accLen : (faultEntry r c info s).accLen = s.accLen := by cases r <;> rfl
@[simp] theorem faultEntry_accVal : (faultEntry r c info s).accVal = s.accVal := by cases r <;> rfl
@[simp] theorem faultEntry_mem : (faultEntry r c info s).mem = s.mem := by cases r <;> rfl
@[simp] theorem faultEntry_pending : (faultEntry r c info s).pending = s.pending := by cases r <;> rfl
@[simp] theorem faultEntry_marks : (faultEntry r c info s).marks = s.marks := by cases r <;> rfl
@[simp] theorem faultEntry_reply : (faultEntry r c info s).reply = s.reply := by cases r <;> rfl
@[simp] theorem faultEntry_symlen :
    (faultEntry r c info s).symlen = if r = .scr then 0 else s.symlen := by cases r <;> rfl
@[simp] theorem faultEntry_scrRan :
    (faultEntry r c info s).scrRan = if r = .scr then true else s.scrRan := by cases r <;> rfl
@[simp] theorem faultEntry_txlen :
    (faultEntry r c info s).txlen = if r = .gen ∨ r = .enc then 0 else s.txlen := by cases r <;> rfl
@[simp] theorem faultEntry_outlen :
    (faultEntry r c info s).outlen = if r = .dec then 0 else s.outlen := by cases r <;> rfl
@[simp] theorem faultEntry_dbin :
    (faultEntry r c info s).dbin = if r = .det then 0 else s.dbin := by cases r <;> rfl
@[simp] theorem faultEntry_dlen :
    (faultEntry r c info s).dlen = if r = .det then 0 else s.dlen := by cases r <;> rfl
@[simp] theorem faultEntry_dclass :
    (faultEntry r c info s).dclass = if r = .det then 0 else s.dclass := by cases r <;> rfl

end

/-- FAULTCODE of a cause lies in 1 to 7 (R165). -/
theorem Cause.code_range (c : Cause) : 1 ≤ c.code.toNat ∧ c.code.toNat ≤ 7 := by cases c <;> decide

/-- The soft reset, written out (R158, R45). -/
theorem softReset_eq (s : State) : softReset s =
    { cfg := s.cfg, faultFlag := false, skip := false, strict := false, faultCode := 0, faultInfo := 0,
      srate := 44100, freq := 0, dur := 0, wstart := 0, wend := 0, msglen := 0, symlen := 0, txlen := 0, rxlen := 0,
      outlen := 0, dbin := 0, dlen := 0, dclass := 0, sympos := 0, widx := 0, wtotal := 0, accLen := 0, accVal := 0,
      mem := s.mem, encOut := none, pending := s.pending, scrRan := s.scrRan, marks := Marks.empty,
      reply := s.reply } := rfl

@[simp] theorem softReset_mem (s : State) : (softReset s).mem = s.mem := rfl
@[simp] theorem softReset_scrRan (s : State) : (softReset s).scrRan = s.scrRan := rfl
@[simp] theorem softReset_marks (s : State) : (softReset s).marks = Marks.empty := rfl

@[simp] theorem Marks.has_empty (b : BufId) (j : Nat) : Marks.empty.has b j = false := by cases b <;> rfl

/-- After a soft reset no element is valid (R45, R158). -/
theorem readable_softReset (b : BufId) (j : Nat) (s : State) : readable b j (softReset s) = false := by
  have h : lengthOf b (softReset s) = 0 := by cases b <;> rfl
  simp [readable, h]

/-- A write to a register leaves the buffers, the parameters and the input queue alone, and SCR's remains are remains
after it. -/
theorem regWrite_kept (i : Fin 32) (v : Word) (s : State) :
    (regWrite i v s).cfg = s.cfg ∧ (regWrite i v s).mem = s.mem ∧ (regWrite i v s).pending = s.pending ∧
      (regWrite i v s).reply = s.reply ∧ (regWrite i v s).scrRan = s.scrRan := by
  unfold regWrite writeCtrl
  split <;> (try split) <;> exact ⟨rfl, rfl, rfl, rfl, rfl⟩

/-- A write to a register other than CMD leaves the fault registers as they are, unless it is the soft reset. -/
theorem regWrite_fault (i : Fin 32) (v : Word) (s : State) (h : ¬(i = 2 ∧ v.getLsbD 31 = true)) :
    (regWrite i v s).faultFlag = s.faultFlag ∧ (regWrite i v s).faultCode = s.faultCode ∧
      (regWrite i v s).faultInfo = s.faultInfo := by
  by_cases h2 : i = 2
  · have hv : v.getLsbD 31 = false := by simpa [h2] using h
    subst h2
    show (writeCtrl v s).faultFlag = _ ∧ (writeCtrl v s).faultCode = _ ∧ (writeCtrl v s).faultInfo = _
    unfold writeCtrl
    rw [hv]
    exact ⟨rfl, rfl, rfl⟩
  · unfold regWrite
    split <;> first | exact ⟨rfl, rfl, rfl⟩ | exact absurd (Fin.ext (by assumption)) h2

/-- What a write to a register other than CTRL changes: one read-write register, or nothing (R156). -/
theorem regWrite_cases (i : Fin 32) (v : Word) (s : State) :
    (i = 2 ∧ regWrite i v s = writeCtrl v s) ∨ (i = 5 ∧ regWrite i v s = { s with srate := v }) ∨
    (i = 6 ∧ regWrite i v s = { s with freq := v }) ∨ (i = 7 ∧ regWrite i v s = { s with dur := v }) ∨
    (i = 8 ∧ regWrite i v s = { s with wstart := v }) ∨ (i = 9 ∧ regWrite i v s = { s with wend := v }) ∨
    (i = 10 ∧ regWrite i v s = { s with msglen := v }) ∨
    (i = 11 ∧ regWrite i v s = { s with symlen := v }) ∨
    (i = 13 ∧ regWrite i v s = { s with rxlen := v }) ∨
    (i ∉ ([2, 5, 6, 7, 8, 9, 10, 11, 13] : List (Fin 32)) ∧ regWrite i v s = s) := by
  fin_cases i <;> simp [regWrite]

/-- What a host write to a buffer does: one element of a buffer the host may write, marked as the host's, or nothing
(R159, R54). -/
theorem bufWrite_cases (b : BufId) (j : Nat) (v : BitVec b.width) (s : State) :
    bufWrite b j v s = s ∨
    (j < s.cfg.msgDepth.val ∧ ∃ x : BitVec 8,
      bufWrite b j v s = { s with
        mem := { s.mem with msg := s.mem.msg.store j [x] }, marks := { s.marks with msg := s.marks.msg.store j [0] } }) ∨
    (j < s.cfg.symDepth.val ∧ ∃ x : BitVec 8,
      bufWrite b j v s = { s with
        mem := { s.mem with sym := s.mem.sym.store j [x] }, marks := { s.marks with sym := s.marks.sym.store j [0] } }) ∨
    (j < s.cfg.rxDepth.val ∧ ∃ x : BitVec 16,
      bufWrite b j v s = { s with
        mem := { s.mem with rx := s.mem.rx.store j [x] }, marks := { s.marks with rx := s.marks.rx.store j [0] } }) := by
  unfold bufWrite
  split
  · exact .inl rfl
  · rename_i h
    cases b <;> simp only [depthOf, Nat.not_le] at h
    · exact .inr (.inl ⟨h, v, rfl⟩)
    · exact .inr (.inr (.inl ⟨h, v, rfl⟩))
    · exact .inl rfl
    · exact .inr (.inr (.inr ⟨h, v, rfl⟩))
    · exact .inl rfl

/-- A host write to a buffer changes the buffers and the marks only. -/
theorem bufWrite_kept (b : BufId) (j : Nat) (v : BitVec b.width) (s : State) :
    { bufWrite b j v s with mem := s.mem, marks := s.marks } = s := by
  rcases bufWrite_cases b j v s with h | ⟨-, x, h⟩ | ⟨-, x, h⟩ | ⟨-, x, h⟩ <;> rw [h]

theorem bufWrite_faultFlag (b : BufId) (j : Nat) (v : BitVec b.width) (s : State) :
    (bufWrite b j v s).faultFlag = s.faultFlag ∧ (bufWrite b j v s).faultCode = s.faultCode ∧
      (bufWrite b j v s).faultInfo = s.faultInfo ∧ (bufWrite b j v s).cfg = s.cfg := by
  rcases bufWrite_cases b j v s with h | ⟨-, x, h⟩ | ⟨-, x, h⟩ | ⟨-, x, h⟩ <;> rw [h] <;> exact ⟨rfl, rfl, rfl, rfl⟩

/-- The element written reads as the value written (R159). -/
theorem bufWrite_read_same (b : BufId) (j : Nat) (v : BitVec b.width) (s : State) (hj : j < depthOf s.cfg b)
    (hb : b.hostWritable = true) : (bufWrite b j v s).mem.read b j = some v := by
  have h : ¬ depthOf s.cfg b ≤ j := by omega
  unfold bufWrite
  rw [if_neg h]
  cases b
  · exact (Buf.read_store_one s.mem.msg j v j).trans (if_pos rfl)
  · exact (Buf.read_store_one s.mem.sym j v j).trans (if_pos rfl)
  · cases hb
  · exact (Buf.read_store_one s.mem.rx j v j).trans (if_pos rfl)
  · cases hb

/-- Every other element of every space reads as before. -/
theorem bufWrite_read_other (b : BufId) (j : Nat) (v : BitVec b.width) (s : State) (b' : BufId) (j' : Nat)
    (hne : ¬(b' = b ∧ j' = j)) : (bufWrite b j v s).mem.read b' j' = s.mem.read b' j' := by
  unfold bufWrite
  split
  · rfl
  · cases b <;> cases b' <;> first | rfl | skip
    · exact (Buf.read_store_one s.mem.msg j v j').trans (if_neg fun e => hne ⟨rfl, e⟩)
    · exact (Buf.read_store_one s.mem.sym j v j').trans (if_neg fun e => hne ⟨rfl, e⟩)
    · exact (Buf.read_store_one s.mem.rx j v j').trans (if_neg fun e => hne ⟨rfl, e⟩)

/-- The element written is marked as the host's, and no other mark changes. -/
theorem bufWrite_has (b : BufId) (j : Nat) (v : BitVec b.width) (s : State) (hj : j < depthOf s.cfg b)
    (hb : b.hostWritable = true) (b' : BufId) (j' : Nat) :
    (bufWrite b j v s).marks.has b' j' = (decide (b' = b ∧ j' = j) || s.marks.has b' j') := by
  have h : ¬ depthOf s.cfg b ≤ j := by omega
  unfold bufWrite
  rw [if_neg h]
  cases b <;> cases b' <;> first | cases hb; done | skip
  all_goals simp only [Marks.has, Buf.read_store_one]
  all_goals by_cases e : j' = j <;> simp [e]

/-- A write beyond the depth, or to TXBUF or OUTBUF, is ignored (R54, R159). -/
theorem bufWrite_ignored (b : BufId) (j : Nat) (v : BitVec b.width) (s : State)
    (h : depthOf s.cfg b ≤ j ∨ b.hostWritable = false) : bufWrite b j v s = s := by
  unfold bufWrite
  split
  · rfl
  · rename_i hj
    rcases h with h | h
    · exact absurd h hj
    · cases b <;> first | rfl | cases h

/-- A host write keeps the marks canonical, and what it marks has a value. -/
theorem bufWrite_marks_sound (b : BufId) (j : Nat) (v : BitVec b.width) (s : State) (h : s.marks.Sound s.mem) :
    (bufWrite b j v s).marks.Sound (bufWrite b j v s).mem := by
  by_cases hw : j < depthOf s.cfg b ∧ b.hostWritable = true
  · refine ⟨?_, fun b' j' hb => ?_⟩
    · rcases bufWrite_cases b j v s with e | ⟨-, x, e⟩ | ⟨-, x, e⟩ | ⟨-, x, e⟩ <;> rw [e]
      · exact h.1
      · exact ⟨Buf.rising_store h.1.1 _ _, h.1.2⟩
      · exact ⟨h.1.1, Buf.rising_store h.1.2.1 _ _, h.1.2.2⟩
      · exact ⟨h.1.1, h.1.2.1, Buf.rising_store h.1.2.2 _ _⟩
    · rw [bufWrite_has b j v s hw.1 hw.2] at hb
      by_cases e : b' = b ∧ j' = j
      · obtain ⟨rfl, rfl⟩ := e
        rw [bufWrite_read_same b' j' v s hw.1 hw.2]
        rfl
      · rw [bufWrite_read_other b j v s b' j' e]
        exact h.2 b' j' (by simpa [e] using hb)
  · rw [bufWrite_ignored b j v s]
    · exact h
    · by_cases hj : j < depthOf s.cfg b
      · exact .inr (by simpa [hj] using hw)
      · exact .inl (Nat.le_of_not_lt hj)

/-- What a host read does (R159, R54, R42): no value beyond the depth, a stop at an element that holds none or is not
readable, else the element. -/
theorem bufRead_cases (b : BufId) (j : Nat) (s : State) :
    (depthOf s.cfg b ≤ j ∧ bufRead b j s = .next { s with reply := none }) ∨
    (j < depthOf s.cfg b ∧ s.mem.read b j = none ∧ bufRead b j s = .fault (.noValue b j)) ∨
    ∃ v, j < depthOf s.cfg b ∧ s.mem.read b j = some v ∧
      ((readable b j s = true ∧ bufRead b j s = .next { s with reply := some (v.setWidth 32) }) ∨
        (readable b j s = false ∧ bufRead b j s = .refused (.notValid b j))) := by
  unfold bufRead
  by_cases h : depthOf s.cfg b ≤ j
  · exact .inl ⟨h, if_pos h⟩
  · rw [if_neg h]
    cases hv : s.mem.read b j with
    | none => exact .inr (.inl ⟨by omega, rfl, rfl⟩)
    | some v =>
      refine .inr (.inr ⟨v, by omega, rfl, ?_⟩)
      cases hr : readable b j s <;> simp

/-- An element that holds a value and is readable is what the read returns. -/
theorem bufRead_value {b : BufId} {j : Nat} {s : State} {v : BitVec b.width} (hj : j < depthOf s.cfg b)
    (hv : s.mem.read b j = some v) (hr : readable b j s = true) :
    bufRead b j s = .next { s with reply := some (v.setWidth 32) } := by
  unfold bufRead
  rw [if_neg (by omega), hv]
  exact if_pos hr

/-- Below the length register every element is readable. -/
theorem readable_below {b : BufId} {j : Nat} {s : State} (h : j < (lengthOf b s).toNat) : readable b j s = true := by
  simp [readable, h]

/-- A value of an element, as the host reads it: zero-extended to 32 bits. -/
theorem element_setWidth_toNat (b : BufId) (v : BitVec b.width) : (v.setWidth 32 : Word).toNat = v.toNat := by
  have hv := v.isLt
  have hw : b.width ≤ 32 := by cases b <;> decide
  rw [BitVec.toNat_setWidth, Nat.mod_eq_of_lt (hv.trans_le (Nat.pow_le_pow_right (by decide) hw))]

end Sys2Proof.Machine
end

