-- ==== Sys2Proof/Laws/Decoder.lean ====
section
/-! SUPPORT. What the parts of DEC can do: each part either goes on with a state that is written out, or ends the command
with a fault that is written out. -/

namespace Sys2Proof.Machine

/-! ### The analysis of a window -/

/-- The analysis looks at SRATE, RXLEN, RXBUF and the parameters only. -/
theorem analyse_congr {a b : Nat} {s t : State} (h1 : s.srate = t.srate) (h2 : s.rxlen = t.rxlen)
    (h3 : s.mem.rx = t.mem.rx) (h4 : s.cfg = t.cfg) : analyse a b s = analyse a b t := by
  unfold analyse
  rw [h1, h2, h3, h4]

/-- The bin and the length of a window lie in their ranges (R123). -/
theorem analyse_range {a b : Nat} {s : State} {r : Analysis} (h : analyse a b s = .ok r) :
    r.bin ≤ r.len / 2 ∧ r.len ≤ s.rxlen.toNat := by
  unfold analyse at h
  simp only at h
  split at h
  · cases h; exact ⟨Nat.zero_le _, Nat.zero_le _⟩
  · split at h
    · cases h
    · rename_i x hx
      cases h
      have hl := (Buf.readRun_eq_ok.1 hx).1
      have := numPeak_le s.cfg.num (x.map BitVec.toInt)
      rw [List.length_map, hl] at this
      have := slice_inside s.srate.toNat a b s.rxlen.toNat
      exact ⟨by assumption, by show (slice _ _ _ _).2 ≤ _; omega⟩

/-- The analysis stops only at a sample of RXBUF[0 .. RXLEN-1] that holds no value. -/
theorem analyse_error {a b j : Nat} {s : State} (h : analyse a b s = .error j) :
    j < s.rxlen.toNat ∧ s.mem.rx.read j = none := by
  unfold analyse at h
  simp only at h
  split at h
  · cases h
  · split at h
    · rename_i hx
      cases h
      obtain ⟨-, h2, h3, -⟩ := Buf.readRun_eq_error hx
      have := slice_inside s.srate.toNat a b s.rxlen.toNat
      exact ⟨by omega, h3⟩
    · cases h

/-! ### The parts of DEC -/

/-- EMIT (R142). -/
def emitted (s : State) : State :=
  { s with
    mem := { s.mem with out := s.mem.out.store s.outlen.toNat [accWord s] }
    outlen := BitVec.ofNat 32 (s.outlen.toNat + 1) }

theorem emit_full {s : State} (h : s.outlen.toNat = s.cfg.outDepth.val) :
    emit s = .error (.next (faultEntry .dec .bufferOverflow 5 s)) := by
  unfold emit
  simp only
  rw [if_pos h]
  rfl

theorem emit_fits {s : State} (h : s.outlen.toNat ≠ s.cfg.outDepth.val) : emit s = .ok (emitted s) := by
  unfold emit
  simp only
  rw [if_neg h]
  rfl

/-- A bit appended (R140). -/
def bitAppended (b : Bool) (s : State) : State :=
  { s with
    accLen := BitVec.ofNat 5 (s.accLen.toNat + 1)
    accVal := BitVec.ofNat 24 (2 * s.accVal.toNat + b.toNat) }

theorem appendBit_full {b : Bool} {i : Nat} {s : State} (h : s.accLen.toNat = 24) :
    appendBit b i s = .error (.next (faultEntry .dec .groupOverflow i s)) := by
  unfold appendBit Config.accBits
  rw [if_pos h]
  rfl

theorem appendBit_fits {b : Bool} {i : Nat} {s : State} (h : s.accLen.toNat ≠ 24) :
    appendBit b i s = .ok (bitAppended b s) := by
  unfold appendBit Config.accBits
  rw [if_neg h]
  rfl

/-- The action on a window's class (R139 to R141): nothing, a bit, the end of a group, or a fault. -/
theorem windowAction_cases (cls : ToneClass) (i : Nat) (s : State) :
    (windowAction cls i s = .ok s ∧ ((cls = .silence ∧ s.accLen = 0) ∨ (cls = .unclassified ∧ s.strict = false))) ∨
    (windowAction cls i s = .ok { emptyAcc (emitted s) with skip := true } ∧ cls = .silence ∧ s.accLen ≠ 0 ∧
      s.outlen.toNat ≠ s.cfg.outDepth.val) ∨
    (∃ b : Bool, windowAction cls i s = .ok (bitAppended b s) ∧ cls = (if b then .one else .zero) ∧
      s.accLen.toNat ≠ 24) ∨
    (windowAction cls i s = .error (.next (faultEntry .dec .bufferOverflow 5 s)) ∧ cls = .silence ∧ s.accLen ≠ 0 ∧
      s.outlen.toNat = s.cfg.outDepth.val) ∨
    (windowAction cls i s = .error (.next (faultEntry .dec .groupOverflow i s)) ∧ (cls = .zero ∨ cls = .one) ∧
      s.accLen.toNat = 24) ∨
    (windowAction cls i s = .error (.next (faultEntry .dec .unclassifiedFrequency i s)) ∧ cls = .unclassified ∧
      s.strict = true) := by
  cases cls with
  | silence =>
    unfold windowAction
    simp only
    by_cases ha : s.accLen = 0
    · rw [if_pos ha]
      exact .inl ⟨rfl, .inl ⟨trivial, ha⟩⟩
    · rw [if_neg ha]
      by_cases hj : s.outlen.toNat = s.cfg.outDepth.val
      · rw [emit_full hj]
        exact .inr (.inr (.inr (.inl ⟨rfl, trivial, ha, hj⟩)))
      · rw [emit_fits hj]
        exact .inr (.inl ⟨rfl, trivial, ha, hj⟩)
  | zero =>
    by_cases hl : s.accLen.toNat = 24
    · exact .inr (.inr (.inr (.inr (.inl ⟨appendBit_full hl, .inl rfl, hl⟩))))
    · exact .inr (.inr (.inl ⟨false, appendBit_fits hl, rfl, hl⟩))
  | one =>
    by_cases hl : s.accLen.toNat = 24
    · exact .inr (.inr (.inr (.inr (.inl ⟨appendBit_full hl, .inr rfl, hl⟩))))
    · exact .inr (.inr (.inl ⟨true, appendBit_fits hl, rfl, hl⟩))
  | unclassified =>
    unfold windowAction
    simp only
    cases hs : s.strict
    · exact .inl ⟨by simp, .inr ⟨trivial, rfl⟩⟩
    · exact .inr (.inr (.inr (.inr (.inr ⟨by simp [decRaise], trivial, rfl⟩))))

/-- WIDX is `i` (R138). -/
abbrev atWindow (i : Nat) (s : State) : State := { s with widx := BitVec.ofNat 32 i }

/-- The step of one window: it is skipped (R137), or its class is acted on (R138), or the run stops at a sample without
value. -/
theorem windowStep_cases (i : Nat) (s : State) :
    (s.skip = true ∧ windowStep i s = .ok { s with skip := false, widx := BitVec.ofNat 32 (i + 1) }) ∨
    (s.skip = false ∧ ∃ j, analyse (125 * i) (125 * i + 125) s = .error j ∧
      windowStep i s = .error (.fault (.noValue .rx j))) ∨
    (s.skip = false ∧ ∃ r, analyse (125 * i) (125 * i + 125) s = .ok r ∧
      ((∃ o, windowAction r.cls i (atWindow i s) = .error o ∧ windowStep i s = .error o) ∨
        ∃ t, windowAction r.cls i (atWindow i s) = .ok t ∧ windowStep i s = .ok (atWindow (i + 1) t))) := by
  unfold windowStep Config.wMs
  simp only
  cases hs : s.skip with
  | true => exact .inl ⟨rfl, rfl⟩
  | false =>
    have hc : analyse (125 * i) (125 * i + 125) (atWindow i s) = analyse (125 * i) (125 * i + 125) s :=
      analyse_congr rfl rfl rfl rfl
    rw [if_neg (by decide)]
    have hb : ({ s with widx := BitVec.ofNat 32 i, skip := false } : State) = atWindow i s := by rw [← hs]
    cases ha : analyse (125 * i) (125 * i + 125) s with
    | error j =>
      refine .inr (.inl ⟨rfl, j, rfl, ?_⟩)
      rw [ha] at hc
      simp only [hb, hc]
    | ok r =>
      refine .inr (.inr ⟨rfl, r, rfl, ?_⟩)
      rw [ha] at hc
      simp only [hb, hc]
      cases hw : windowAction r.cls i (atWindow i s) with
      | error o => exact .inl ⟨o, rfl, rfl⟩
      | ok t => exact .inr ⟨t, rfl, rfl⟩

/-- The windows in order: what every window keeps, the index counting on, holds at the end or at the window that ended
the command. -/
theorem windowSteps_induct {P : Nat → State → Prop}
    (keep : ∀ i s t, P i s → windowStep i s = .ok t → P (i + 1) t) :
    ∀ (n i : Nat) (s : State), P i s →
      (∀ t, windowSteps n i s = .ok t → P (i + n) t) ∧
      ∀ o, windowSteps n i s = .error o → ∃ k u, k < n ∧ P (i + k) u ∧ windowStep (i + k) u = .error o := by
  intro n
  induction n with
  | zero =>
    intro i s hs
    refine ⟨fun t h => ?_, fun o h => (by cases h)⟩
    cases h
    exact hs
  | succ n ih =>
    intro i s hs
    rw [windowSteps]
    cases hw : windowStep i s with
    | error o =>
      refine ⟨fun t h => (by cases h), fun o' h => ?_⟩
      cases h
      exact ⟨0, s, by omega, hs, hw⟩
    | ok t =>
      obtain ⟨h1, h2⟩ := ih (i + 1) t (keep i s t hs hw)
      refine ⟨fun u h => ?_, fun o h => ?_⟩
      · have := h1 u h
        rwa [show i + 1 + n = i + (n + 1) by omega] at this
      · obtain ⟨k, u, hk, hp, hu⟩ := h2 o h
        exact ⟨k + 1, u, by omega, by rwa [show i + 1 + k = i + (k + 1) by omega] at hp,
          by rwa [show i + 1 + k = i + (k + 1) by omega] at hu⟩

/-- The final flush (R143). -/
theorem flush_cases (s : State) :
    (s.accLen = 0 ∧ flush s = .ok s) ∨
    (s.accLen ≠ 0 ∧ s.outlen.toNat ≠ s.cfg.outDepth.val ∧ flush s = .ok (emptyAcc (emitted s))) ∨
    (s.accLen ≠ 0 ∧ s.outlen.toNat = s.cfg.outDepth.val ∧
      flush s = .error (.next (faultEntry .dec .bufferOverflow 5 s))) := by
  unfold flush
  by_cases ha : s.accLen = 0
  · rw [if_pos ha]
    exact .inl ⟨ha, rfl⟩
  · rw [if_neg ha]
    by_cases hj : s.outlen.toNat = s.cfg.outDepth.val
    · rw [emit_full hj]
      exact .inr (.inr ⟨ha, hj, rfl⟩)
    · rw [emit_fits hj]
      exact .inr (.inl ⟨ha, hj, rfl⟩)

/-- The conversion pass changes nothing (R144). -/
theorem conversion_ok {n j : Nat} {s t : State} (h : conversion n j s = .ok t) : t = s := by
  induction n generalizing j with
  | zero => cases h; rfl
  | succ n ih =>
    rw [conversion] at h
    split at h
    · cases h
    · split at h
      · cases h
      · exact ih h

/-- It passes over groups none of which is empty. -/
theorem conversion_passes {n j : Nat} {s : State}
    (h : ∀ i, j ≤ i → i < j + n → ∃ g, s.mem.out.read i = some g ∧ groupLen g ≠ 0) : conversion n j s = .ok s := by
  induction n generalizing j with
  | zero => rfl
  | succ n ih =>
    obtain ⟨g, hg, hl⟩ := h j (by omega) (by omega)
    rw [conversion, hg]
    simp only
    rw [if_neg hl]
    exact ih fun i h1 h2 => h i (by omega) (by omega)

/-! ### What the decoder has emitted so far -/

/-- The accumulator holds at most 24 bits and VAL < 2 ^ LEN; the groups emitted so far are groups and lie in OUTBUF
(R32, R78). -/
structure Decoded (s : State) : Prop where
  len : s.accLen.toNat ≤ 24
  val : s.accVal.toNat < 2 ^ s.accLen.toNat
  room : s.outlen.toNat ≤ s.cfg.outDepth.val
  groups : ∀ j, j < s.outlen.toNat → ∃ g, s.mem.out.read j = some g ∧ IsGroup g

theorem accWord_isGroup {s : State} (h1 : s.accLen.toNat ≤ 24) (h2 : s.accVal.toNat < 2 ^ s.accLen.toNat)
    (h0 : s.accLen ≠ 0) : IsGroup (accWord s) := by
  have hv : s.accVal.toNat < 2 ^ 24 := s.accVal.isLt
  have hl : s.accLen.toNat < 32 := s.accLen.isLt
  have h0' : s.accLen.toNat ≠ 0 := fun e => h0 (by rw [BitVec.toNat_eq]; exact e)
  unfold accWord IsGroup Config.accBits
  rw [groupLen_pack hl hv, groupVal_pack hl hv]
  exact ⟨by omega, h1, h2, rfl⟩

theorem outlen_succ {s : State} (h : s.outlen.toNat ≤ s.cfg.outDepth.val) (hj : s.outlen.toNat ≠ s.cfg.outDepth.val) :
    (BitVec.ofNat 32 (s.outlen.toNat + 1)).toNat = s.outlen.toNat + 1 := by
  have := s.cfg.outDepth.isLt
  rw [BitVec.toNat_ofNat, Nat.mod_eq_of_lt (by omega)]

theorem Decoded.emitted {s : State} (h : Decoded s) (h0 : s.accLen ≠ 0) (hj : s.outlen.toNat ≠ s.cfg.outDepth.val) :
    Decoded (emptyAcc (emitted s)) := by
  have hl := outlen_succ h.room hj
  refine ⟨Nat.zero_le _, Nat.one_pos, ?_, fun j hj' => ?_⟩
  · show (BitVec.ofNat 32 (s.outlen.toNat + 1)).toNat ≤ _
    have := h.room
    rw [hl]
    show _ ≤ s.cfg.outDepth.val
    omega
  · have hj' : j < (BitVec.ofNat 32 (s.outlen.toNat + 1)).toNat := hj'
    rw [hl] at hj'
    show ∃ g, (s.mem.out.store s.outlen.toNat [accWord s]).read j = some g ∧ _
    rw [Buf.read_store_one]
    by_cases e : j = s.outlen.toNat
    · rw [if_pos e]
      exact ⟨_, rfl, accWord_isGroup h.len h.val h0⟩
    · rw [if_neg e]
      exact h.groups j (by omega)

theorem accLen_bitAppended {b : Bool} {s : State} (h : s.accLen.toNat ≤ 24) :
    (bitAppended b s).accLen.toNat = s.accLen.toNat + 1 := by
  show (BitVec.ofNat 5 (s.accLen.toNat + 1)).toNat = _
  rw [BitVec.toNat_ofNat]
  omega

theorem accVal_bitAppended {b : Bool} {s : State} (h : s.accLen.toNat ≤ 24) (hl : s.accLen.toNat ≠ 24)
    (hv : s.accVal.toNat < 2 ^ s.accLen.toNat) :
    (bitAppended b s).accVal.toNat = 2 * s.accVal.toNat + b.toNat := by
  show (BitVec.ofNat 24 (2 * s.accVal.toNat + b.toNat)).toNat = _
  have h1 : 2 ^ s.accLen.toNat ≤ 2 ^ 23 := Nat.pow_le_pow_right (by decide) (by omega)
  have hb : b.toNat ≤ 1 := Bool.toNat_le b
  rw [BitVec.toNat_ofNat, Nat.mod_eq_of_lt]
  omega

theorem Decoded.bitAppended {b : Bool} {s : State} (h : Decoded s) (hl : s.accLen.toNat ≠ 24) :
    Decoded (bitAppended b s) := by
  have hlen := h.len
  have hb : b.toNat ≤ 1 := Bool.toNat_le b
  refine ⟨?_, ?_, h.room, h.groups⟩
  · rw [accLen_bitAppended hlen]
    omega
  · rw [accLen_bitAppended hlen, accVal_bitAppended hlen hl h.val, Nat.pow_succ]
    have := h.val
    omega

/-- The action on a window keeps it. -/
theorem Decoded.windowAction {cls : ToneClass} {i : Nat} {s t : State} (h : Decoded s)
    (e : windowAction cls i s = .ok t) : Decoded t := by
  rcases windowAction_cases cls i s with ⟨e', -⟩ | ⟨e', -, h0, hj⟩ | ⟨b, e', -, hl⟩ | ⟨e', -⟩ | ⟨e', -⟩ | ⟨e', -⟩ <;>
    rw [e'] at e <;> cases e
  · exact h
  · exact ⟨(h.emitted h0 hj).len, (h.emitted h0 hj).val, (h.emitted h0 hj).room, (h.emitted h0 hj).groups⟩
  · exact h.bitAppended hl

theorem Decoded.windowStep {i : Nat} {s t : State} (h : Decoded s) (e : windowStep i s = .ok t) : Decoded t := by
  rcases windowStep_cases i s with ⟨-, e'⟩ | ⟨-, j, -, e'⟩ | ⟨-, r, -, ⟨o, -, e'⟩ | ⟨u, hu, e'⟩⟩ <;>
    rw [e'] at e <;> cases e
  · exact ⟨h.len, h.val, h.room, h.groups⟩
  · have h' : Decoded (atWindow i s) := ⟨h.len, h.val, h.room, h.groups⟩
    have := h'.windowAction hu
    exact ⟨this.len, this.val, this.room, this.groups⟩

theorem Decoded.flush {s t : State} (h : Decoded s) (e : flush s = .ok t) : Decoded t ∧ t.accLen = 0 ∧ t.accVal = 0 := by
  rcases flush_cases s with ⟨h0, e'⟩ | ⟨h0, hj, e'⟩ | ⟨-, -, e'⟩ <;> rw [e'] at e <;> cases e
  · refine ⟨h, h0, ?_⟩
    have := h.val
    rw [h0] at this
    rw [BitVec.toNat_eq]
    exact Nat.lt_one_iff.1 this
  · exact ⟨h.emitted h0 hj, rfl, rfl⟩

/-- The conversion pass finds no empty group (R146 item 2). -/
theorem Decoded.conversion {s : State} (h : Decoded s) : conversion s.outlen.toNat 0 s = .ok s := by
  refine conversion_passes fun i _ hi => ?_
  obtain ⟨g, hg, h1, -⟩ := h.groups i (by omega)
  exact ⟨g, hg, by omega⟩

theorem Decoded.decodeStart (s : State) : Decoded (decodeStart s) :=
  ⟨Nat.zero_le _, Nat.one_pos, Nat.zero_le _, fun j hj => absurd hj (Nat.not_lt_zero j)⟩

/-! ### DEC -/

/-- `t` differs from `s` only in OUTBUF, OUTLEN, WIDX, WTOTAL, ACC and SKIP. -/
def DecoderFrame (s t : State) : Prop :=
  { t with
    mem := { t.mem with out := s.mem.out }, outlen := s.outlen, widx := s.widx, wtotal := s.wtotal,
    accLen := s.accLen, accVal := s.accVal, skip := s.skip } = s

theorem DecoderFrame.refl (s : State) : DecoderFrame s s := rfl

theorem DecoderFrame.trans {s t u : State} (h1 : DecoderFrame s t) (h2 : DecoderFrame t u) : DecoderFrame s u := by
  unfold DecoderFrame at *
  rw [← h1, ← h2]

theorem windowAction_frame {cls : ToneClass} {i : Nat} {s t : State} (e : windowAction cls i s = .ok t) :
    DecoderFrame s t ∧ t.widx = s.widx ∧ t.wtotal = s.wtotal := by
  rcases windowAction_cases cls i s with ⟨e', -⟩ | ⟨e', -⟩ | ⟨b, e', -⟩ | ⟨e', -⟩ | ⟨e', -⟩ | ⟨e', -⟩ <;>
    rw [e'] at e <;> cases e <;> exact ⟨rfl, rfl, rfl⟩

theorem windowStep_frame {i : Nat} {s t : State} (e : windowStep i s = .ok t) :
    DecoderFrame s t ∧ t.widx = BitVec.ofNat 32 (i + 1) ∧ t.wtotal = s.wtotal := by
  rcases windowStep_cases i s with ⟨-, e'⟩ | ⟨-, j, -, e'⟩ | ⟨-, r, -, ⟨o, -, e'⟩ | ⟨u, hu, e'⟩⟩ <;>
    rw [e'] at e <;> cases e
  · exact ⟨rfl, rfl, rfl⟩
  · obtain ⟨h1, -, h3⟩ := windowAction_frame hu
    refine ⟨?_, rfl, h3⟩
    have h0 : DecoderFrame s (atWindow i s) := rfl
    have h4 : DecoderFrame u (atWindow (i + 1) u) := rfl
    exact (h0.trans h1).trans h4

theorem flush_frame {s t : State} (e : flush s = .ok t) :
    DecoderFrame s t ∧ t.widx = s.widx ∧ t.wtotal = s.wtotal := by
  rcases flush_cases s with ⟨-, e'⟩ | ⟨-, -, e'⟩ | ⟨-, -, e'⟩ <;> rw [e'] at e <;> cases e <;> exact ⟨rfl, rfl, rfl⟩

/-- A window ends DEC with one of three faults, or stops at a sample of RXBUF without value. -/
theorem windowStep_error {i : Nat} {s : State} {o : Host.Outcome State Fault Refusal}
    (e : windowStep i s = .error o) :
    (∃ c info, c ≠ .malformedBitGroup ∧ c ≠ .illegalCommand ∧ o = .next (faultEntry .dec c info (atWindow i s))) ∨
    ∃ j, j < s.rxlen.toNat ∧ s.mem.rx.read j = none ∧ o = .fault (.noValue .rx j) := by
  rcases windowStep_cases i s with ⟨-, e'⟩ | ⟨-, j, hj, e'⟩ | ⟨-, r, -, ⟨o', ho, e'⟩ | ⟨u, -, e'⟩⟩ <;>
    rw [e'] at e <;> cases e
  · obtain ⟨h1, h2⟩ := analyse_error hj
    exact .inr ⟨j, h1, h2, rfl⟩
  · refine .inl ?_
    rcases windowAction_cases r.cls i (atWindow i s) with ⟨e', -⟩ | ⟨e', -⟩ | ⟨b, e', -⟩ | ⟨e', -⟩ | ⟨e', -⟩ | ⟨e', -⟩ <;>
      rw [e'] at ho <;> cases ho
    · exact ⟨_, _, by decide, by decide, rfl⟩
    · exact ⟨_, _, by decide, by decide, rfl⟩
    · exact ⟨_, _, by decide, by decide, rfl⟩

/-- Everything DEC can do: a fault, an end without fault, or a stop at a sample of RXBUF without value. -/
theorem execDec_cases (s : State) :
    (∃ c info u, execDec s = .next (faultEntry .dec c info u) ∧ c ≠ .malformedBitGroup ∧ c ≠ .illegalCommand ∧
      DecoderFrame s u ∧ u.accLen.toNat ≤ 24 ∧ u.accVal.toNat < 2 ^ u.accLen.toNat ∧
      u.widx.toNat ≤ u.wtotal.toNat) ∨
    (∃ t, execDec s = .next t ∧ DecoderFrame s t ∧ Decoded t ∧ t.accLen = 0 ∧ t.accVal = 0 ∧ t.widx = t.wtotal) ∨
    ∃ j, execDec s = .fault (.noValue .rx j) ∧ j < s.rxlen.toNat ∧ s.mem.rx.read j = none := by
  unfold execDec
  simp only
  split
  · exact .inl ⟨_, _, _, rfl, by decide, by decide, rfl, Nat.zero_le _, Nat.one_pos, Nat.zero_le _⟩
  · split
    · exact .inl ⟨_, _, _, rfl, by decide, by decide, rfl, Nat.zero_le _, Nat.one_pos, Nat.zero_le _⟩
    · generalize hs0 : ({ decodeStart s with
        wtotal := BitVec.ofNat 32 (windowCount (decodeStart s).rxlen.toNat (decodeStart s).srate.toNat) } : State) = s0
      have hf : DecoderFrame s s0 := by subst hs0; rfl
      have hw : s0.widx = BitVec.ofNat 32 0 := by subst hs0; rfl
      have hd : Decoded s0 := by
        subst hs0
        exact ⟨Nat.zero_le _, Nat.one_pos, Nat.zero_le _, fun j hj => absurd hj (Nat.not_lt_zero j)⟩
      have key := windowSteps_induct
        (P := fun i u => DecoderFrame s u ∧ Decoded u ∧ u.widx = BitVec.ofNat 32 i ∧ u.wtotal = s0.wtotal)
        (fun i u t hu e => by
          obtain ⟨h1, h2, h3⟩ := windowStep_frame e
          exact ⟨hu.1.trans h1, hu.2.1.windowStep e, h2, h3.trans hu.2.2.2⟩)
        s0.wtotal.toNat 0 s0 ⟨hf, hd, hw, rfl⟩
      unfold decodeAll
      cases hws : windowSteps s0.wtotal.toNat 0 s0 with
      | error o =>
        obtain ⟨k, u, hk, ⟨hu1, hu2, hu3, hu4⟩, hu⟩ := key.2 o hws
        simp only
        rcases windowStep_error hu with ⟨c, info, h1, h2, e⟩ | ⟨j, h1, h2, e⟩
        · refine .inl ⟨c, info, atWindow (0 + k) u, by rw [e], h1, h2, hu1.trans rfl, hu2.len, hu2.val, ?_⟩
          show (BitVec.ofNat 32 (0 + k)).toNat ≤ u.wtotal.toNat
          rw [hu4, BitVec.toNat_ofNat]
          exact (Nat.mod_le _ _).trans (by omega)
        · refine .inr (.inr ⟨j, by rw [e], ?_, ?_⟩)
          · have : u.rxlen = s.rxlen := (congrArg State.rxlen hu1 :)
            rwa [← this]
          · have : u.mem.rx = s.mem.rx := (congrArg (fun x => x.mem.rx) hu1 :)
            rwa [← this]
      | ok t =>
        obtain ⟨ht1, ht2, ht3, ht4⟩ := key.1 t hws
        have hwt : t.widx = t.wtotal := by
          rw [ht3, ht4, Nat.zero_add, BitVec.toNat_eq, BitVec.toNat_ofNat, Nat.mod_eq_of_lt (s0.wtotal.isLt)]
        simp only
        rcases flush_cases t with ⟨h0, e⟩ | ⟨h0, hj, e⟩ | ⟨h0, hj, e⟩
        · obtain ⟨hu, h1, h2⟩ := ht2.flush e
          rw [e]
          simp only
          rw [hu.conversion]
          exact .inr (.inl ⟨t, rfl, ht1, hu, h1, h2, hwt⟩)
        · obtain ⟨hu, h1, h2⟩ := ht2.flush e
          obtain ⟨h3, h4, h5⟩ := flush_frame e
          rw [e]
          simp only
          rw [hu.conversion]
          exact .inr (.inl ⟨_, rfl, ht1.trans h3, hu, h1, h2, by rw [h4, h5, hwt]⟩)
        · rw [e]
          exact .inl ⟨_, _, t, rfl, by decide, by decide, ht1, ht2.len, ht2.val, by rw [hwt]⟩

end Sys2Proof.Machine
end

