-- ==== Sys2Proof/Laws/Encoder.lean ====
section
/-! SUPPORT. What a symbol, a character of ENC, and ENC can do. -/

namespace Sys2Proof.Machine

/-- The state after a segment has been appended. -/
def appended (f d : Nat) (s : State) : State :=
  { s with
    mem := { s.mem with tx := s.mem.tx.store (s.encOut.getD 0) (segment s.cfg.num f d s.srate.toNat) }
    encOut := some (s.encOut.getD 0 + count s.srate.toNat d) }

/-- APPEND, its three cases (spec/41_encoder.md section 2). -/
theorem appendSegment_zero {f d : Nat} {s : State} (h : s.srate = 0) :
    appendSegment f d s = .next (faultEntry .enc .contractViolation 1 s) := by
  simp [appendSegment, h]

theorem appendSegment_overflow {f d : Nat} {s : State} (h : s.srate ≠ 0)
    (hf : s.cfg.txDepth.val < s.encOut.getD 0 + count s.srate.toNat d) :
    appendSegment f d s = .next (faultEntry .enc .bufferOverflow 3 s) := by
  unfold appendSegment
  simp only
  rw [if_neg h, if_pos hf]

theorem appendSegment_fits {f d : Nat} {s : State} (h : s.srate ≠ 0)
    (hf : s.encOut.getD 0 + count s.srate.toNat d ≤ s.cfg.txDepth.val) :
    appendSegment f d s = .next (appended f d s) := by
  have : ¬ s.cfg.txDepth.val < s.encOut.getD 0 + count s.srate.toNat d := by omega
  unfold appendSegment
  simp only
  rw [if_neg h, if_neg this]
  rfl

/-- A symbol always gives a next state, one of three. -/
theorem appendSegment_cases (f d : Nat) (s : State) :
    (s.srate = 0 ∧ appendSegment f d s = .next (faultEntry .enc .contractViolation 1 s)) ∨
    (s.srate ≠ 0 ∧ s.cfg.txDepth.val < s.encOut.getD 0 + count s.srate.toNat d ∧
      appendSegment f d s = .next (faultEntry .enc .bufferOverflow 3 s)) ∨
    (s.srate ≠ 0 ∧ s.encOut.getD 0 + count s.srate.toNat d ≤ s.cfg.txDepth.val ∧
      appendSegment f d s = .next (appended f d s)) := by
  by_cases h : s.srate = 0
  · exact .inl ⟨h, appendSegment_zero h⟩
  · by_cases hf : s.cfg.txDepth.val < s.encOut.getD 0 + count s.srate.toNat d
    · exact .inr (.inl ⟨h, hf, appendSegment_overflow h hf⟩)
    · exact .inr (.inr ⟨h, by omega, appendSegment_fits h (by omega)⟩)

/-- The tone and duration of a symbol code are the ones of its rule, every other code is InvalidSymbol (R75, R102 to
R104, R166). -/
theorem encSymbol_zero (p : Nat) (s : State) : encSymbol 0x30 p s = appendSegment 36 250 s := rfl
theorem encSymbol_one (p : Nat) (s : State) : encSymbol 0x31 p s = appendSegment 196 250 s := rfl
theorem encSymbol_silence (p : Nat) (s : State) : encSymbol 0x20 p s = appendSegment 0 500 s := rfl

theorem encSymbol_invalid {c : Byte} (p : Nat) (s : State) (h0 : c ≠ 0x30) (h1 : c ≠ 0x31) (h2 : c ≠ 0x20) :
    encSymbol c p s = .next (faultEntry .enc .invalidSymbol p s) := by
  have h : decodeSymbol c = .error (.illegalSymbol c) := by
    unfold decodeSymbol symbolRows
    simp only [lookupRow]
    rw [if_neg (Ne.symm h0), if_neg (Ne.symm h1), if_neg (Ne.symm h2)]
  rw [encSymbol, h]

theorem encSymbol_cases (c : Byte) (p : Nat) (s : State) :
    (∃ f d, encSymbol c p s = appendSegment f d s) ∨
    encSymbol c p s = .next (faultEntry .enc .invalidSymbol p s) := by
  by_cases h0 : c = 0x30
  · exact .inl ⟨36, 250, by rw [h0, encSymbol_zero]⟩
  by_cases h1 : c = 0x31
  · exact .inl ⟨196, 250, by rw [h1, encSymbol_one]⟩
  by_cases h2 : c = 0x20
  · exact .inl ⟨0, 500, by rw [h2, encSymbol_silence]⟩
  · exact .inr (encSymbol_invalid p s h0 h1 h2)

/-- What one character of an ENC does: it ends the ENC, it faults, or it appends a segment and SYMPOS moves on. -/
theorem encStep_cases {s t : State} (h : encStep s = .next t) :
    (s.symlen.toNat ≤ s.sympos.toNat ∧ t = encFinish s) ∨
    (∃ c info, c ≠ .malformedBitGroup ∧ c ≠ .illegalCommand ∧ t = faultEntry .enc c info s) ∨
    (∃ f d, s.sympos.toNat < s.symlen.toNat ∧ s.encOut.getD 0 + count s.srate.toNat d ≤ s.cfg.txDepth.val ∧
      t = { appended f d s with sympos := s.sympos + 1 }) := by
  unfold encStep at h
  simp only at h
  split at h
  · rename_i hp
    cases hr : s.mem.sym.read s.sympos.toNat with
    | none => rw [hr] at h; cases h
    | some c =>
      rw [hr] at h
      simp only at h
      rcases encSymbol_cases c s.sympos.toNat s with ⟨f, d, e⟩ | e
      · rcases appendSegment_cases f d s with ⟨-, e'⟩ | ⟨-, -, e'⟩ | ⟨-, hf, e'⟩
        · rw [e, e'] at h
          simp only [advanceSymbol, faultEntry_encOut, Option.isSome_none, Bool.false_eq_true, if_false] at h
          cases h
          exact .inr (.inl ⟨_, _, by decide, by decide, rfl⟩)
        · rw [e, e'] at h
          simp only [advanceSymbol, faultEntry_encOut, Option.isSome_none, Bool.false_eq_true, if_false] at h
          cases h
          exact .inr (.inl ⟨_, _, by decide, by decide, rfl⟩)
        · rw [e, e'] at h
          simp only [advanceSymbol, appended, Option.isSome_some, if_true] at h
          cases h
          exact .inr (.inr ⟨f, d, hp, hf, rfl⟩)
      · rw [e] at h
        simp only [advanceSymbol, faultEntry_encOut, Option.isSome_none, Bool.false_eq_true, if_false] at h
        cases h
        exact .inr (.inl ⟨_, _, by decide, by decide, rfl⟩)
  · cases h
    exact .inl ⟨by omega, rfl⟩

/-- A character of an ENC never refuses, and it stops only at an element of the text that holds no value. -/
theorem encStep_stops (s : State) :
    (∀ r, encStep s ≠ .refused r) ∧
    ∀ f, encStep s = .fault f →
      s.sympos.toNat < s.symlen.toNat ∧ f = .noValue .sym s.sympos.toNat ∧
        s.mem.sym.read s.sympos.toNat = none := by
  unfold encStep
  simp only
  split
  · rename_i hp
    cases hr : s.mem.sym.read s.sympos.toNat with
    | none =>
      refine ⟨fun r h => (by cases h), fun f h => ?_⟩
      cases h
      exact ⟨hp, rfl, rfl⟩
    | some c =>
      have : ∃ t, encSymbol c s.sympos.toNat s = .next t := by
        rcases encSymbol_cases c s.sympos.toNat s with ⟨f, d, e⟩ | e
        · rcases appendSegment_cases f d s with ⟨-, e'⟩ | ⟨-, -, e'⟩ | ⟨-, -, e'⟩ <;> exact ⟨_, e.trans e'⟩
        · exact ⟨_, e⟩
      obtain ⟨t, e⟩ := this
      simp only [e, advanceSymbol]
      split <;> exact ⟨fun r h => (by cases h), fun f h => (by cases h)⟩
  · exact ⟨fun r h => (by cases h), fun f h => (by cases h)⟩

/-- What holds at every character of an ENC and is turned into `Q` by its end and by a fault, holds as `Q` after it. -/
theorem encRun_induct {P Q : State → Prop}
    (append : ∀ s f d, P s → s.encOut.getD 0 + count s.srate.toNat d ≤ s.cfg.txDepth.val →
      P { appended f d s with sympos := s.sympos + 1 })
    (fault : ∀ s c info, P s → c ≠ .malformedBitGroup → c ≠ .illegalCommand → Q (faultEntry .enc c info s))
    (finish : ∀ s, P s → Q (encFinish s)) :
    ∀ (n : Nat) (s t : State), P s → encRun n s = .next t → Q t := by
  intro n
  induction n with
  | zero =>
    intro s t hs h
    cases h
    exact finish s hs
  | succ n ih =>
    intro s t hs h
    rw [encRun] at h
    cases hst : encStep s with
    | fault f => rw [hst] at h; cases h
    | refused r => rw [hst] at h; cases h
    | next u =>
      rw [hst] at h
      simp only at h
      rcases encStep_cases hst with ⟨-, e⟩ | ⟨c, info, h1, h2, e⟩ | ⟨f, d, -, hf, e⟩ <;> subst e
      · cases h
        exact finish s hs
      · simp only [faultEntry_encOut, Option.isSome_none, Bool.false_eq_true, if_false] at h
        cases h
        exact fault s c info hs h1 h2
      · simp only [appended, Option.isSome_some, if_true] at h
        exact ih _ t (append s f d hs hf) h

/-- The same for the command ENC: `P` has to hold where its loop starts. -/
theorem execEnc_induct {P Q : State → Prop} {s t : State}
    (append : ∀ s f d, P s → s.encOut.getD 0 + count s.srate.toNat d ≤ s.cfg.txDepth.val →
      P { appended f d s with sympos := s.sympos + 1 })
    (fault : ∀ s c info, P s → c ≠ .malformedBitGroup → c ≠ .illegalCommand → Q (faultEntry .enc c info s))
    (finish : ∀ s, P s → Q (encFinish s))
    (check : ∀ info, Q (faultEntry .enc .contractViolation info { s with sympos := 0 }))
    (start : P { s with sympos := 0, encOut := some 0 }) (h : execEnc s = .next t) : Q t := by
  unfold execEnc at h
  simp only at h
  split at h
  · cases h; exact check 1
  · split at h
    · cases h; exact check 4
    · exact encRun_induct append fault finish _ _ _ start h

end Sys2Proof.Machine
end

