-- ==== Sys2Proof/Laws/Commands.lean ====
section
/-! SUPPORT. Everything each command can do, once for each: the next states and the stops. `execDec_cases` is in
Laws/Decoder.lean. -/

namespace Sys2Proof.Machine

/-- GEN (spec/40_generator.md R95). -/
theorem execGen_cases (s : State) :
    (∃ c info, execGen s = .next (faultEntry .gen c info s) ∧ c ≠ .malformedBitGroup ∧ c ≠ .illegalCommand) ∨
    (s.srate ≠ 0 ∧ s.dur ≠ 0 ∧ count s.srate.toNat s.dur.toNat ≤ s.cfg.txDepth.val ∧
      execGen s = .next { s with
        mem := { s.mem with tx := s.mem.tx.store 0 (segment s.cfg.num s.freq.toNat s.dur.toNat s.srate.toNat) }
        txlen := BitVec.ofNat 32 (count s.srate.toNat s.dur.toNat) }) := by
  unfold execGen
  simp only
  split
  · exact .inl ⟨_, _, rfl, by decide, by decide⟩
  · split
    · exact .inl ⟨_, _, rfl, by decide, by decide⟩
    · split
      · exact .inl ⟨_, _, rfl, by decide, by decide⟩
      · exact .inr ⟨by assumption, by assumption, by omega, rfl⟩

/-- SCR (spec/41_encoder.md R101). -/
theorem execScr_cases (s : State) :
    (∃ c info, execScr s = .next (faultEntry .scr c info s) ∧ c ≠ .malformedBitGroup ∧ c ≠ .illegalCommand) ∨
    (∃ m : List Byte, m.length = s.msglen.toNat ∧ (∀ i, i < m.length → s.mem.msg.read i = m[i]?) ∧
      symbolsNeeded s.msglen.toNat ≤ s.cfg.symDepth.val ∧
      execScr s = .next { s with
        mem := { s.mem with sym := s.mem.sym.store 0 (scramble m) }
        symlen := BitVec.ofNat 32 (symbolsNeeded s.msglen.toNat)
        scrRan := true }) ∨
    ∃ j, execScr s = .fault (.noValue .msg j) ∧ j < s.msglen.toNat ∧ s.mem.msg.read j = none := by
  unfold execScr
  simp only
  split
  · exact .inl ⟨_, _, rfl, by decide, by decide⟩
  · split
    · exact .inl ⟨_, _, rfl, by decide, by decide⟩
    · cases hr : s.mem.msg.readRun 0 s.msglen.toNat with
      | error j =>
        obtain ⟨-, h2, h3, -⟩ := Buf.readRun_eq_error hr
        exact .inr (.inr ⟨j, rfl, by omega, h3⟩)
      | ok m =>
        obtain ⟨h1, h2⟩ := Buf.readRun_eq_ok.1 hr
        refine .inr (.inl ⟨m, h1, fun i hi => ?_, by omega, rfl⟩)
        have := h2 i (by omega)
        rwa [Nat.zero_add] at this

/-- DET (spec/42_detector.md R127). -/
theorem execDet_cases (s : State) :
    (∃ c info, execDet s = .next (faultEntry .det c info s) ∧ c ≠ .malformedBitGroup ∧ c ≠ .illegalCommand) ∨
    (∃ r : Analysis, analyse s.wstart.toNat s.wend.toNat s = .ok r ∧ r.bin ≤ r.len / 2 ∧ r.len ≤ s.rxlen.toNat ∧
      execDet s = .next { s with
        dbin := BitVec.ofNat 32 r.bin
        dlen := BitVec.ofNat 32 r.len
        dclass := r.cls.code }) ∨
    ∃ j, execDet s = .fault (.noValue .rx j) ∧ j < s.rxlen.toNat ∧ s.mem.rx.read j = none := by
  unfold execDet
  split
  · exact .inl ⟨_, _, rfl, by decide, by decide⟩
  · split
    · exact .inl ⟨_, _, rfl, by decide, by decide⟩
    · cases h : analyse s.wstart.toNat s.wend.toNat s with
      | error j =>
        obtain ⟨h1, h2⟩ := analyse_error h
        exact .inr (.inr ⟨j, rfl, h1, h2⟩)
      | ok r =>
        obtain ⟨h1, h2⟩ := analyse_range h
        exact .inr (.inl ⟨r, rfl, h1, h2, rfl⟩)

/-- GEN completes when its operands are in range and the segment fits (R95). -/
theorem execGen_completes {s : State} (h1 : s.srate ≠ 0) (h2 : s.dur ≠ 0)
    (h3 : count s.srate.toNat s.dur.toNat ≤ s.cfg.txDepth.val) :
    execGen s = .next { s with
      mem := { s.mem with tx := s.mem.tx.store 0 (segment s.cfg.num s.freq.toNat s.dur.toNat s.srate.toNat) }
      txlen := BitVec.ofNat 32 (count s.srate.toNat s.dur.toNat) } := by
  unfold execGen
  simp only
  rw [if_neg h1, if_neg h2, if_neg (by omega)]

/-- SCR completes when the message lies in MSGBUF, has values, and its text fits (R101). -/
theorem execScr_completes {s : State} {m : List Byte} (h1 : s.msglen.toNat ≤ s.cfg.msgDepth.val)
    (h2 : symbolsNeeded s.msglen.toNat ≤ s.cfg.symDepth.val) (h3 : m.length = s.msglen.toNat)
    (h4 : ∀ i, i < m.length → s.mem.msg.read i = m[i]?) :
    execScr s = .next { s with
      mem := { s.mem with sym := s.mem.sym.store 0 (scramble m) }
      symlen := BitVec.ofNat 32 (symbolsNeeded s.msglen.toNat)
      scrRan := true } := by
  have hr : s.mem.msg.readRun 0 s.msglen.toNat = .ok m :=
    Buf.readRun_eq_ok.2 ⟨h3, fun i hi => by rw [Nat.zero_add]; exact h4 i (by omega)⟩
  unfold execScr
  simp only
  rw [if_neg (by omega), if_neg (by omega), hr]

/-- DET completes when RXLEN is in range and the window can be analysed (R127). -/
theorem execDet_completes {s : State} {r : Analysis} (h1 : s.srate ≠ 0) (h2 : s.rxlen.toNat ≤ s.cfg.rxDepth.val)
    (h3 : analyse s.wstart.toNat s.wend.toNat s = .ok r) :
    execDet s = .next { s with
      dbin := BitVec.ofNat 32 r.bin
      dlen := BitVec.ofNat 32 r.len
      dclass := r.cls.code } := by
  unfold execDet
  rw [if_neg h1, if_neg (by omega), h3]

/-- A symbol appends its segment (R102 to R104). -/
theorem exec_symbol {i : Instr} (hi : i.isCommand = false) : ∃ f d, ∀ s, exec i s = appendSegment f d s := by
  cases i <;> first | exact ⟨_, _, fun _ => rfl⟩ | cases hi

/-- `t` differs from `s` only in TXBUF, TXLEN, SYMPOS, the fault registers and the progress of an ENC. -/
def EncoderFrame (s t : State) : Prop :=
  { t with
    mem := { t.mem with tx := s.mem.tx }, txlen := s.txlen, sympos := s.sympos, faultFlag := s.faultFlag,
    faultCode := s.faultCode, faultInfo := s.faultInfo, encOut := s.encOut } = s

/-- ENC changes only those, and it leaves the fault registers as they were or records a fault and discards TXLEN. -/
theorem execEnc_frame {s t : State} (h : execEnc s = .next t) :
    EncoderFrame s t ∧ t.encOut = none ∧
      ((t.faultFlag = s.faultFlag ∧ t.faultCode = s.faultCode ∧ t.faultInfo = s.faultInfo) ∨
        (t.faultFlag = true ∧ t.txlen = 0 ∧
          ∃ c : Cause, c ≠ .malformedBitGroup ∧ c ≠ .illegalCommand ∧ t.faultCode = c.code)) := by
  refine execEnc_induct (P := fun u => EncoderFrame s u ∧ u.faultFlag = s.faultFlag ∧ u.faultCode = s.faultCode ∧
    u.faultInfo = s.faultInfo)
    (Q := fun t => EncoderFrame s t ∧ t.encOut = none ∧
      ((t.faultFlag = s.faultFlag ∧ t.faultCode = s.faultCode ∧ t.faultInfo = s.faultInfo) ∨
        (t.faultFlag = true ∧ t.txlen = 0 ∧
          ∃ c : Cause, c ≠ .malformedBitGroup ∧ c ≠ .illegalCommand ∧ t.faultCode = c.code))) ?_ ?_ ?_ ?_ ?_ h
  · rintro u f d ⟨h1, h2⟩ -
    refine ⟨?_, h2⟩
    unfold EncoderFrame at *
    rw [← h1]
    rfl
  · rintro u c info ⟨h1, -⟩ hc hc'
    refine ⟨?_, rfl, .inr ⟨rfl, rfl, c, hc, hc', rfl⟩⟩
    unfold EncoderFrame at *
    rw [← h1]
    rfl
  · rintro u ⟨h1, h2⟩
    refine ⟨?_, rfl, .inl h2⟩
    unfold EncoderFrame at *
    rw [← h1]
    rfl
  · intro info
    exact ⟨rfl, rfl, .inr ⟨rfl, rfl, .contractViolation, by decide, by decide, rfl⟩⟩
  · exact ⟨rfl, rfl, rfl, rfl⟩

/-- ENC never refuses, and it stops only at a character of the text without value. -/
theorem execEnc_stops (s : State) :
    (∃ t, execEnc s = .next t) ∨
    ∃ j, execEnc s = .fault (.noValue .sym j) ∧ j < s.symlen.toNat ∧ s.mem.sym.read j = none := by
  have run : ∀ (n : Nat) (u : State), u.mem.sym = s.mem.sym → u.symlen = s.symlen →
      (∃ t, encRun n u = .next t) ∨
      ∃ j, encRun n u = .fault (.noValue .sym j) ∧ j < s.symlen.toNat ∧ s.mem.sym.read j = none := by
    intro n
    induction n with
    | zero => exact fun u _ _ => .inl ⟨_, rfl⟩
    | succ n ih =>
      intro u h1 h2
      rw [encRun]
      obtain ⟨hr, hf⟩ := encStep_stops u
      cases hst : encStep u with
      | refused r => exact absurd hst (hr r)
      | fault f =>
        obtain ⟨h3, rfl, h4⟩ := hf f hst
        exact .inr ⟨_, rfl, by rwa [← h2], by rwa [← h1]⟩
      | next v =>
        simp only
        split
        · rcases encStep_cases hst with ⟨-, e⟩ | ⟨c, info, -, -, e⟩ | ⟨f, d, -, -, e⟩ <;> subst e
          · exact ih _ h1 h2
          · exact ih _ (by rw [faultEntry_mem]; exact h1) (by simpa using h2)
          · exact ih _ h1 h2
        · exact .inl ⟨_, rfl⟩
  unfold execEnc
  simp only
  split
  · exact .inl ⟨_, rfl⟩
  · split
    · exact .inl ⟨_, rfl⟩
    · exact run _ _ rfl rfl

end Sys2Proof.Machine
end

