-- ==== Sys2Proof/Laws/Enclosures.lean ====
section
/-! SUPPORT. The enclosures of the reference numerics hold: alternating sums, pi, the sine and the cosine over the
reals. -/

namespace Sys2Proof.Machine

open Finset in
theorem altLower_le_partial (t : Nat → Nat) (a : Nat → ℝ) (ht : ∀ j, (t j : ℝ) ≤ a j ∧ a j ≤ t j + 1) (n : Nat) :
    (altLower t n : ℝ) ≤ ∑ j ∈ range (2 * n), (-1) ^ j * a j := by
  induction n with
  | zero => simp [altLower]
  | succ n ih =>
    rw [show 2 * (n + 1) = 2 * n + 1 + 1 by ring, sum_range_succ, sum_range_succ, altLower]
    have h1 := (ht (2 * n)).1
    have h2 := (ht (2 * n + 1)).2
    have e1 : (-1 : ℝ) ^ (2 * n) = 1 := by rw [pow_mul]; simp
    have e2 : (-1 : ℝ) ^ (2 * n + 1) = -1 := by rw [pow_succ, e1]; simp
    push_cast
    rw [e1, e2]
    linarith

open Finset in
theorem partial_le_altPairs (t : Nat → Nat) (a : Nat → ℝ) (ht : ∀ j, (t j : ℝ) ≤ a j ∧ a j ≤ t j + 1) (n : Nat) :
    ∑ j ∈ range (2 * n), (-1) ^ j * a j ≤ (altPairs t n : ℝ) := by
  induction n with
  | zero => simp [altPairs]
  | succ n ih =>
    rw [show 2 * (n + 1) = 2 * n + 1 + 1 by ring, sum_range_succ, sum_range_succ, altPairs]
    have h1 := (ht (2 * n)).2
    have h2 := (ht (2 * n + 1)).1
    have e1 : (-1 : ℝ) ^ (2 * n) = 1 := by rw [pow_mul]; simp
    have e2 : (-1 : ℝ) ^ (2 * n + 1) = -1 := by rw [pow_succ, e1]; simp
    push_cast
    rw [e1, e2]
    linarith

/-- The two bounds enclose the sum of the alternating series. -/
theorem alt_encloses {t : Nat → Nat} {a : Nat → ℝ} {l : ℝ} (ht : ∀ j, (t j : ℝ) ≤ a j ∧ a j ≤ t j + 1)
    (ha : Antitone a) (hs : HasSum (fun j => (-1) ^ j * a j) l) (n : Nat) :
    (altLower t n : ℝ) ≤ l ∧ l ≤ (altUpper t n : ℝ) := by
  have hl := hs.tendsto_sum_nat
  constructor
  · exact (altLower_le_partial t a ht n).trans (ha.alternating_series_le_tendsto hl n)
  · refine (ha.tendsto_le_alternating_series hl n).trans ?_
    rw [Finset.sum_range_succ, altUpper]
    have e1 : (-1 : ℝ) ^ (2 * n) = 1 := by rw [pow_mul]; simp
    have := partial_le_altPairs t a ht n
    have := (ht (2 * n)).2
    push_cast
    rw [e1]
    linarith

/-- Integer division encloses the quotient. -/
theorem natDiv_encloses (a b : Nat) (hb : 0 < b) :
    ((a / b : Nat) : ℝ) ≤ (a : ℝ) / b ∧ (a : ℝ) / b ≤ ((a / b : Nat) : ℝ) + 1 := by
  have hb' : (0 : ℝ) < b := by exact_mod_cast hb
  constructor
  · exact Nat.cast_div_le
  · rw [div_le_iff₀ hb']
    have : a < (a / b + 1) * b := by
      have := Nat.div_add_mod a b
      have := Nat.mod_lt a hb
      nlinarith
    exact_mod_cast this.le

theorem arctan_encloses (p k n : Nat) (hk : 2 ≤ k) :
    (altLower (arctanTerm p k) n : ℝ) ≤ 2 ^ p * Real.arctan (k : ℝ)⁻¹ ∧
      2 ^ p * Real.arctan (k : ℝ)⁻¹ ≤ (altUpper (arctanTerm p k) n : ℝ) := by
  have hk0 : (0 : ℝ) < k := by exact_mod_cast (by omega : 0 < k)
  have hk1 : (1 : ℝ) ≤ k := by exact_mod_cast (by omega : 1 ≤ k)
  have hlt : ‖(k : ℝ)⁻¹‖ < 1 := by
    rw [norm_inv, Real.norm_of_nonneg hk0.le]
    exact inv_lt_one_of_one_lt₀ (by exact_mod_cast (by omega : 1 < k))
  refine alt_encloses (a := fun j => 2 ^ p / ((2 * j + 1) * k ^ (2 * j + 1))) (fun j => ?_) ?_ ?_ n
  · have := natDiv_encloses (2 ^ p) ((2 * j + 1) * k ^ (2 * j + 1)) (by positivity)
    push_cast at this
    exact this
  · intro i j hij
    have h1 : (2 * (i : ℝ) + 1) ≤ 2 * j + 1 := by
      have : (i : ℝ) ≤ j := by exact_mod_cast hij
      linarith
    have h2 : (k : ℝ) ^ (2 * i + 1) ≤ k ^ (2 * j + 1) := pow_le_pow_right₀ hk1 (by omega)
    have h3 : (0 : ℝ) < (2 * (i : ℝ) + 1) * k ^ (2 * i + 1) := by positivity
    show (2 : ℝ) ^ p / ((2 * j + 1) * k ^ (2 * j + 1)) ≤ 2 ^ p / ((2 * i + 1) * k ^ (2 * i + 1))
    gcongr
  · refine ((Real.hasSum_arctan hlt).mul_left (2 ^ p)).congr_fun fun j => ?_
    push_cast
    rw [inv_pow]
    field_simp

theorem pi_encloses (p : Nat) : (piLower p : ℝ) ≤ 2 ^ p * Real.pi ∧ 2 ^ p * Real.pi ≤ (piUpper p : ℝ) := by
  have m := Real.four_mul_arctan_inv_5_sub_arctan_inv_239
  have a5 := arctan_encloses p 5 (p / 8 + 1) (by norm_num)
  have a239 := arctan_encloses p 239 (p / 16 + 1) (by norm_num)
  push_cast at a5 a239
  have hpi : 2 ^ p * Real.pi = 16 * (2 ^ p * Real.arctan 5⁻¹) - 4 * (2 ^ p * Real.arctan 239⁻¹) := by
    have : Real.pi = 16 * Real.arctan 5⁻¹ - 4 * Real.arctan 239⁻¹ := by linarith
    rw [this]; ring
  have hpos : (0 : ℝ) ≤ 2 ^ p * Real.pi := by positivity
  have hc : ∀ z : Int, ((z.toNat : Nat) : ℝ) = max (z : ℝ) 0 := by
    intro z
    rw [show ((z.toNat : Nat) : ℝ) = (((z.toNat : Nat) : Int) : ℝ) by push_cast; rfl, Int.toNat_eq_max]
    push_cast
    rfl
  constructor
  · rw [piLower, hc]
    refine max_le ?_ hpos
    push_cast
    rw [hpi]
    linarith
  · rw [piUpper, hc]
    refine le_max_of_le_left ?_
    push_cast
    rw [hpi]
    linarith

/-- The two sums enclose the sine of `x / 2 ^ p`, for an angle of at most 2. -/
theorem sine_encloses (p x n : Nat) (hx : (x : ℝ) / 2 ^ p ≤ 2) :
    (altLower (sineTerm p x) n : ℝ) ≤ 2 ^ p * Real.sin (x / 2 ^ p) ∧
      2 ^ p * Real.sin (x / 2 ^ p) ≤ (altUpper (sineTerm p x) n : ℝ) := by
  set q : ℝ := x / 2 ^ p with hq
  have hq0 : 0 ≤ q := by positivity
  refine alt_encloses (a := fun j => 2 ^ p * (q ^ (2 * j + 1) / (2 * j + 1).factorial)) (fun j => ?_) ?_ ?_ n
  · have := natDiv_encloses (x ^ (2 * j + 1)) ((2 ^ p) ^ (2 * j) * (2 * j + 1).factorial)
      (by have := Nat.factorial_pos (2 * j + 1); positivity)
    push_cast at this
    have e : (2 : ℝ) ^ p * (q ^ (2 * j + 1) / (2 * j + 1).factorial) =
        (x : ℝ) ^ (2 * j + 1) / ((2 ^ p) ^ (2 * j) * (2 * j + 1).factorial) := by
      rw [hq, div_pow, pow_succ ((2 : ℝ) ^ p)]
      field_simp
    simp only [e]
    exact this
  · refine antitone_nat_of_succ_le fun j => ?_
    have e : (2 * (j + 1) + 1).factorial = (2 * j + 3) * (2 * j + 2) * (2 * j + 1).factorial := by
      rw [show 2 * (j + 1) + 1 = (2 * j + 1 + 1) + 1 by ring, Nat.factorial_succ, Nat.factorial_succ]; ring
    have hf : (0 : ℝ) < (2 * j + 1).factorial := by exact_mod_cast Nat.factorial_pos _
    refine mul_le_mul_of_nonneg_left ?_ (by positivity)
    rw [e, div_le_div_iff₀ (by positivity) hf]
    push_cast
    have h4 : q ^ 2 ≤ 4 := by nlinarith
    have h6 : (4 : ℝ) ≤ (2 * j + 3) * (2 * j + 2) := by
      have : (0 : ℝ) ≤ j := by positivity
      nlinarith
    have hle : q ^ 2 ≤ (2 * j + 3) * (2 * j + 2) := h4.trans h6
    have hpow : q ^ (2 * (j + 1) + 1) = q ^ 2 * q ^ (2 * j + 1) := by ring
    rw [hpow]
    calc q ^ 2 * q ^ (2 * j + 1) * ((2 * j + 1).factorial : ℝ)
        = q ^ 2 * (q ^ (2 * j + 1) * ((2 * j + 1).factorial : ℝ)) := by ring
      _ ≤ ((2 * j + 3) * (2 * j + 2)) * (q ^ (2 * j + 1) * ((2 * j + 1).factorial : ℝ)) :=
          mul_le_mul_of_nonneg_right hle (by positivity)
      _ = q ^ (2 * j + 1) * ((2 * j + 3) * (2 * j + 2) * ((2 * j + 1).factorial : ℝ)) := by ring
  · refine ((Real.hasSum_sin q).mul_left (2 ^ p)).congr_fun fun j => ?_
    ring

/-- An enclosure holds: it has the scaled real between its ends. -/
def Encloses (p : Nat) (e : Int × Int) (x : ℝ) : Prop := (e.1 : ℝ) ≤ 2 ^ p * x ∧ 2 ^ p * x ≤ (e.2 : ℝ)

theorem sineEnclosure_encloses (p u b : Nat) (hu : 2 * u ≤ b) (hb : 0 < b) :
    Encloses p (sineEnclosure p u b) (Real.sin (Real.pi * u / b)) := by
  have hb' : (0 : ℝ) < b := by exact_mod_cast hb
  have hS : (0 : ℝ) < 2 ^ p := by positivity
  obtain ⟨hpl, hpu⟩ := pi_encloses p
  set lo := piLower p * u / b with hlo
  set hi := piUpper p * u / b + 1 with hhi
  have h1 : (lo : ℝ) ≤ 2 ^ p * (Real.pi * u / b) := by
    have := (natDiv_encloses (piLower p * u) b hb).1
    push_cast at this
    refine this.trans ?_
    have hu0 : (0 : ℝ) ≤ u := by positivity
    rw [show (2 : ℝ) ^ p * (Real.pi * u / b) = (2 ^ p * Real.pi) * u / b by ring]
    gcongr
  have h2 : 2 ^ p * (Real.pi * u / b) ≤ (hi : ℝ) := by
    have := (natDiv_encloses (piUpper p * u) b hb).2
    push_cast at this
    rw [hhi]
    push_cast
    refine le_trans ?_ this
    rw [show (2 : ℝ) ^ p * (Real.pi * u / b) = (2 ^ p * Real.pi) * u / b by ring]
    gcongr
  set x : ℝ := Real.pi * u / b with hx
  set q : ℝ := lo / 2 ^ p with hq
  have hqx : q ≤ x := by rw [hq, div_le_iff₀ hS]; linarith
  have hq0 : 0 ≤ q := by positivity
  have hx2 : x ≤ Real.pi / 2 := by
    rw [hx, div_le_div_iff₀ hb' (by norm_num)]
    have : (u : ℝ) * 2 ≤ b := by exact_mod_cast (by omega : u * 2 ≤ b)
    nlinarith [Real.pi_pos]
  have hq2 : q ≤ 2 := by linarith [Real.pi_lt_four]
  have hs := sine_encloses p lo (sinePairs p) hq2
  have hmono : Real.sin q ≤ Real.sin x :=
    Real.sin_le_sin_of_le_of_le_pi_div_two (by linarith [Real.pi_pos]) hx2 hqx
  have hlip : Real.sin x ≤ Real.sin q + (x - q) := by
    have e := Real.sin_sub_sin x q
    have h0 : 0 ≤ (x - q) / 2 := by linarith
    have hs : Real.sin ((x - q) / 2) ≤ (x - q) / 2 := Real.sin_le h0
    have hs0 : 0 ≤ Real.sin ((x - q) / 2) :=
      Real.sin_nonneg_of_nonneg_of_le_pi h0 (by linarith [Real.pi_pos])
    have hc : Real.cos ((x + q) / 2) ≤ 1 := Real.cos_le_one _
    nlinarith
  constructor
  · show (altLower (sineTerm p lo) (sinePairs p) : ℝ) ≤ 2 ^ p * Real.sin x
    exact hs.1.trans (mul_le_mul_of_nonneg_left hmono hS.le)
  · show 2 ^ p * Real.sin x ≤ ((altUpper (sineTerm p lo) (sinePairs p) + ((hi : Int) - (lo : Int)) : Int) : ℝ)
    push_cast
    have h3 : 2 ^ p * Real.sin x ≤ 2 ^ p * (Real.sin q + (x - q)) := mul_le_mul_of_nonneg_left hlip hS.le
    have h4 : (2 : ℝ) ^ p * q = lo := by rw [hq]; field_simp
    have h5 := hs.2
    have h6 : (2 : ℝ) ^ p * (Real.sin q + (x - q)) = 2 ^ p * Real.sin q + (2 ^ p * x - 2 ^ p * q) := by ring
    rw [h6, h4] at h3
    linarith

theorem cosineEnclosure_encloses (p n t : Nat) (ht : t < n) :
    Encloses p (cosineEnclosure p n t) (Real.cos (2 * Real.pi * t / n)) := by
  have hn : (0 : ℝ) < n := by exact_mod_cast (by omega : 0 < n)
  have hfold : Real.cos (2 * Real.pi * t / n) = Real.cos (2 * Real.pi * (min t (n - t) : Nat) / n) := by
    rcases le_total t (n - t) with h | h
    · rw [min_eq_left h]
    · rw [min_eq_right h, Nat.cast_sub ht.le,
        show 2 * Real.pi * ((n : ℝ) - t) / n = 2 * Real.pi - 2 * Real.pi * t / n by field_simp,
        Real.cos_two_pi_sub]
  rw [hfold, cosineEnclosure]
  set a := min t (n - t) with ha
  have ha2 : 2 * a ≤ n := by omega
  by_cases h4 : 4 * a ≤ n
  · simp only [h4, if_true]
    have := sineEnclosure_encloses p (n - 4 * a) (2 * n) (by omega) (by omega)
    have e : Real.cos (2 * Real.pi * a / n) = Real.sin (Real.pi * ((n - 4 * a : Nat) : ℝ) / ((2 * n : Nat) : ℝ)) := by
      rw [← Real.sin_pi_div_two_sub, Nat.cast_sub h4]
      congr 1
      push_cast
      field_simp
      ring
    rw [e]
    exact this
  · simp only [h4, if_false]
    have h4' : n ≤ 4 * a := by omega
    have := sineEnclosure_encloses p (4 * a - n) (2 * n) (by omega) (by omega)
    have e : Real.cos (2 * Real.pi * a / n) = -Real.sin (Real.pi * ((4 * a - n : Nat) : ℝ) / ((2 * n : Nat) : ℝ)) := by
      rw [← Real.sin_neg, ← Real.sin_pi_div_two_sub, Nat.cast_sub h4']
      congr 1
      push_cast
      field_simp
      ring
    rw [e]
    refine ⟨?_, ?_⟩
    · rw [Int.cast_neg, mul_neg]
      exact neg_le_neg this.2
    · rw [Int.cast_neg, mul_neg]
      exact neg_le_neg this.1

end Sys2Proof.Machine
end

