-- ==== Sys2Proof/Laws/Sine.lean ====
section
/-! SUPPORT. The sine search is right, and it always ends: a value `32767 * sin (pi * u / b)` that is not a tie stays
away from every tie by a distance that the enclosures undercut. -/

namespace Sys2Proof.Machine

/-! ### What the search settles on is right -/

/-- A settled rounding is the nearest integer, with no tie possible. -/
theorem roundEnclosure_sound {p a m : Nat} {e : Int × Int} {x : ℝ} (he : Encloses p e x) (hx : 0 ≤ x)
    (h : roundEnclosure p a e = some m) : |(a : ℝ) * x - m| < 1 / 2 := by
  unfold roundEnclosure at h
  simp only at h
  split at h
  · rename_i hc
    generalize (2 * (a : Int) * e.1 + 2 ^ p) / (2 * 2 ^ p) = z at *
    simp only [Option.some.injEq] at h
    obtain ⟨h1, h2⟩ := hc
    have hS : (0 : ℝ) < 2 ^ p := by positivity
    have h1' : (2 * (z : ℝ) - 1) * 2 ^ p < 2 * a * e.1 := by exact_mod_cast h1
    have h2' : 2 * (a : ℝ) * e.2 < (2 * z + 1) * 2 ^ p := by exact_mod_cast h2
    have ha : (0 : ℝ) ≤ a := by positivity
    have l1 : 2 * (a : ℝ) * e.1 ≤ 2 * a * (2 ^ p * x) := mul_le_mul_of_nonneg_left he.1 (by positivity)
    have l2 : 2 * (a : ℝ) * (2 ^ p * x) ≤ 2 * a * e.2 := mul_le_mul_of_nonneg_left he.2 (by positivity)
    have u1 : (2 * (z : ℝ) - 1) < 2 * (a * x) := by
      refine lt_of_mul_lt_mul_right ?_ hS.le
      calc (2 * (z : ℝ) - 1) * 2 ^ p < 2 * a * (2 ^ p * x) := h1'.trans_le l1
        _ = 2 * (a * x) * 2 ^ p := by ring
    have u2 : 2 * ((a : ℝ) * x) < 2 * z + 1 := by
      refine lt_of_mul_lt_mul_right ?_ hS.le
      calc 2 * ((a : ℝ) * x) * 2 ^ p = 2 * a * (2 ^ p * x) := by ring
        _ < (2 * z + 1) * 2 ^ p := l2.trans_lt h2'
    have hax : 0 ≤ (a : ℝ) * x := by positivity
    have hz : (0 : ℤ) ≤ z := by
      have : (-1 : ℝ) < 2 * z := by linarith
      have : (-1 : ℤ) < 2 * z := by exact_mod_cast this
      omega
    have hm : (m : ℝ) = z := by
      rw [← h]
      exact_mod_cast congrArg (fun t : ℤ => (t : ℝ)) (Int.toNat_of_nonneg hz)
    rw [hm, abs_lt]
    constructor <;> linarith
  · cases h

/-- The search settles on a rounding of one of its enclosures. -/
theorem sineSearch_eq_some {fuel p u b m : Nat} (h : sineSearch fuel p u b = some m) :
    ∃ q, roundEnclosure q Config.amp (sineEnclosure q u b) = some m := by
  induction fuel generalizing p with
  | zero => cases h
  | succ fuel ih =>
    rw [sineSearch] at h
    split at h
    · rename_i m' hm
      cases h
      exact ⟨p, hm⟩
    · exact ih h

/-- Whatever the search settles on lies within 1/2 of the scaled sine. -/
theorem sineSearch_sound {fuel p u b m : Nat} (hb : 0 < b) (hu : 2 * u ≤ b) (h : sineSearch fuel p u b = some m) :
    |32767 * Real.sin (Real.pi * u / b) - m| < 1 / 2 := by
  obtain ⟨q, hq⟩ := sineSearch_eq_some h
  have hb' : (0 : ℝ) < b := by exact_mod_cast hb
  have hs : 0 ≤ Real.sin (Real.pi * u / b) := by
    apply Real.sin_nonneg_of_nonneg_of_le_pi
    · have := Real.pi_pos; positivity
    · rw [div_le_iff₀ hb']
      have : (u : ℝ) ≤ b := by exact_mod_cast (by omega : u ≤ b)
      exact mul_le_mul_of_nonneg_left this Real.pi_pos.le
  have := roundEnclosure_sound (sineEnclosure_encloses q u b hu hb) hs hq
  simpa [Config.amp] using this

/-! ### The width of the enclosures -/

theorem alt_width (t : Nat → Nat) (n : Nat) : altUpper t n - altLower t n = 2 * n + 1 + t (2 * n) := by
  have : ∀ n, altPairs t n - altLower t n = 2 * n := by
    intro n
    induction n with
    | zero => rfl
    | succ n ih =>
      rw [altPairs, altLower]
      push_cast
      omega
  have := this n
  rw [altUpper]
  omega

theorem arctanTerm_le_one (p k j c : Nat) (hc : 2 ^ c ≤ k) (h : p ≤ c * (2 * j + 1)) : arctanTerm p k j ≤ 1 := by
  unfold arctanTerm
  have h1 : 2 ^ p ≤ k ^ (2 * j + 1) :=
    calc 2 ^ p ≤ 2 ^ (c * (2 * j + 1)) := Nat.pow_le_pow_right (by decide) h
      _ = (2 ^ c) ^ (2 * j + 1) := by rw [pow_mul]
      _ ≤ k ^ (2 * j + 1) := Nat.pow_le_pow_left hc _
  have hk : 0 < k ^ (2 * j + 1) := lt_of_lt_of_le (by positivity) h1
  refine Nat.div_le_of_le_mul ?_
  calc 2 ^ p ≤ k ^ (2 * j + 1) := h1
    _ ≤ (2 * j + 1) * k ^ (2 * j + 1) * 1 := by nlinarith

theorem pi_width (p : Nat) : piUpper p ≤ piLower p + (5 * p + 80) := by
  have w5 := alt_width (arctanTerm p 5) (p / 8 + 1)
  have w239 := alt_width (arctanTerm p 239) (p / 16 + 1)
  have t5 := arctanTerm_le_one p 5 (2 * (p / 8 + 1)) 2 (by norm_num) (by omega)
  have t239 := arctanTerm_le_one p 239 (2 * (p / 16 + 1)) 7 (by norm_num) (by omega)
  unfold piUpper piLower
  push_cast at w5 w239
  omega

/-- Factorials overtake the powers of 32. -/
theorem pow_le_factorial (m : Nat) : 32 ^ m ≤ 2 ^ 52 * m.factorial := by
  rcases Nat.lt_or_ge m 33 with h | h
  · have : ∀ m, m < 33 → 32 ^ m ≤ 2 ^ 52 * m.factorial := by decide
    exact this m h
  · induction m, h using Nat.le_induction with
    | base => decide
    | succ m hm ih =>
      rw [pow_succ, Nat.factorial_succ]
      calc 32 ^ m * 32 ≤ 2 ^ 52 * m.factorial * (m + 1) := Nat.mul_le_mul ih (by omega)
        _ = 2 ^ 52 * ((m + 1) * m.factorial) := by ring

theorem sineTerm_le_one (p x j : Nat) (hx : x ≤ 2 * 2 ^ p) (h : p + 52 ≤ 4 * (2 * j + 1)) : sineTerm p x j ≤ 1 := by
  unfold sineTerm
  refine Nat.div_le_of_le_mul ?_
  set m := 2 * j + 1 with hm
  have e1 : (2 * 2 ^ p) ^ m = 2 ^ m * (2 ^ p * (2 ^ p) ^ (2 * j)) := by
    rw [mul_pow, hm, pow_succ (2 ^ p)]
    ring
  have e2 : 2 ^ 52 * (2 ^ m * 2 ^ p) ≤ 2 ^ 52 * m.factorial :=
    calc 2 ^ 52 * (2 ^ m * 2 ^ p) = 2 ^ (52 + (m + p)) := by rw [pow_add 2 52, pow_add 2 m]
      _ ≤ 2 ^ (5 * m) := Nat.pow_le_pow_right (by decide) (by omega)
      _ = 32 ^ m := by rw [show (32 : ℕ) = 2 ^ 5 by norm_num, ← pow_mul]
      _ ≤ 2 ^ 52 * m.factorial := pow_le_factorial m
  have e3 : 2 ^ m * 2 ^ p ≤ m.factorial := Nat.le_of_mul_le_mul_left e2 (by positivity)
  calc x ^ m ≤ (2 * 2 ^ p) ^ m := Nat.pow_le_pow_left hx m
    _ = (2 ^ m * 2 ^ p) * (2 ^ p) ^ (2 * j) := by rw [e1]; ring
    _ ≤ m.factorial * (2 ^ p) ^ (2 * j) := Nat.mul_le_mul_right _ e3
    _ = (2 ^ p) ^ (2 * j) * m.factorial * 1 := by ring

/-- The lower angle of a sine enclosure is at most 2. -/
theorem lowerAngle_le (p u b : Nat) (hu : 2 * u ≤ b) : piLower p * u / b ≤ 2 * 2 ^ p := by
  have h1 := (pi_encloses p).1
  have h2 : (piLower p : ℝ) ≤ 4 * 2 ^ p := by
    have : 2 ^ p * Real.pi ≤ 2 ^ p * 4 := mul_le_mul_of_nonneg_left Real.pi_lt_four.le (by positivity)
    linarith
  have h3 : piLower p ≤ 4 * 2 ^ p := by exact_mod_cast h2
  refine Nat.div_le_of_le_mul ?_
  calc piLower p * u ≤ 4 * 2 ^ p * u := Nat.mul_le_mul_right _ h3
    _ = 2 * 2 ^ p * (2 * u) := by ring
    _ ≤ 2 * 2 ^ p * b := Nat.mul_le_mul_left _ hu
    _ = b * (2 * 2 ^ p) := by ring

theorem sineEnclosure_width (p u b : Nat) (hu : 2 * u ≤ b) (hb : 0 < b) :
    (sineEnclosure p u b).2 - (sineEnclosure p u b).1 ≤ 6 * p + 100 := by
  unfold sineEnclosure sinePairs
  simp only
  have hlo := lowerAngle_le p u b hu
  have hw := pi_width p
  have hhi : piUpper p * u / b ≤ piLower p * u / b + (5 * p + 80) + 1 := by
    have : piUpper p * u ≤ piLower p * u + (5 * p + 80) * b :=
      calc piUpper p * u ≤ (piLower p + (5 * p + 80)) * u := Nat.mul_le_mul_right _ hw
        _ = piLower p * u + (5 * p + 80) * u := by ring
        _ ≤ piLower p * u + (5 * p + 80) * b := by
          have : (5 * p + 80) * u ≤ (5 * p + 80) * b := Nat.mul_le_mul_left _ (by omega)
          omega
    calc piUpper p * u / b ≤ (piLower p * u + (5 * p + 80) * b) / b := Nat.div_le_div_right this
      _ = piLower p * u / b + (5 * p + 80) := Nat.add_mul_div_right _ _ hb
      _ ≤ _ := by omega
  generalize piLower p * u / b = lo at *
  generalize piUpper p * u / b = hi at *
  have ws := alt_width (sineTerm p lo) (p / 16 + 4)
  have ts := sineTerm_le_one p lo (2 * (p / 16 + 4)) hlo (by omega)
  push_cast at ws ⊢
  omega

/-! ### The distance from the ties -/

/-- On the upper half circle, cosines are apart at least as the square of the angles. -/
theorem cos_gap {x y : ℝ} (hx0 : 0 ≤ x) (hx1 : x ≤ Real.pi) (hy0 : 0 ≤ y) (hy1 : y ≤ Real.pi) :
    (x - y) ^ 2 / 5 ≤ |Real.cos x - Real.cos y| := by
  wlog h : x ≤ y generalizing x y
  · have := this hy0 hy1 hx0 hx1 (le_of_not_ge h)
    rw [abs_sub_comm, show (x - y) ^ 2 = (y - x) ^ 2 by ring]
    exact this
  have hpi := Real.pi_pos
  set d := (y - x) / 2 with hd
  have hd0 : 0 ≤ d := by rw [hd]; linarith
  have hd1 : d ≤ Real.pi / 2 := by rw [hd]; linarith
  set a := (x + y) / 2 with ha
  have had : d ≤ a := by rw [hd, ha]; linarith
  have had' : a ≤ Real.pi - d := by rw [hd, ha]; linarith
  have hsd : 2 / Real.pi * d ≤ Real.sin d := Real.mul_le_sin hd0 hd1
  have hsd0 : 0 ≤ 2 / Real.pi * d := by positivity
  have hsa : Real.sin d ≤ Real.sin a := by
    rcases le_total a (Real.pi / 2) with h' | h'
    · exact Real.sin_le_sin_of_le_of_le_pi_div_two (by linarith) h' had
    · rw [← Real.sin_pi_sub a]
      exact Real.sin_le_sin_of_le_of_le_pi_div_two (by linarith) (by linarith) (by linarith)
  have e : Real.cos x - Real.cos y = 2 * Real.sin a * Real.sin d := by
    rw [Real.cos_sub_cos x y, ← ha, show (x - y) / 2 = -d by rw [hd]; ring, Real.sin_neg]
    ring
  have hprod : (2 / Real.pi * d) * (2 / Real.pi * d) ≤ Real.sin a * Real.sin d :=
    mul_le_mul (hsd.trans hsa) hsd hsd0 (hsd0.trans (hsd.trans hsa))
  rw [e, abs_of_nonneg (by nlinarith)]
  have hpi2 : Real.pi ^ 2 ≤ 10 := by
    have := Real.pi_lt_d2
    nlinarith
  have hq : (x - y) ^ 2 / 5 ≤ 2 * ((2 / Real.pi * d) * (2 / Real.pi * d)) := by
    have : 2 * ((2 / Real.pi * d) * (2 / Real.pi * d)) = 2 * (x - y) ^ 2 / Real.pi ^ 2 := by
      rw [hd]
      field_simp
      ring
    rw [this, div_le_div_iff₀ (by norm_num) (by positivity)]
    nlinarith [sq_nonneg (x - y)]
  linarith

/-- A rational cosine whose multiple angle is not a full turn keeps that multiple away from a full turn. -/
theorem multiple_cos_gap (n : ℕ) (c : ℤ) (d : ℕ) (hd : 0 < d) (y : ℝ) (hy : Real.cos y = c / d)
    (h1 : Real.cos (n * y) ≠ 1) : 1 ≤ (d : ℝ) ^ n * |Real.cos (n * y) - 1| := by
  set f : Polynomial ℤ := Polynomial.Chebyshev.T ℤ n - 1 with hf
  have hev : Polynomial.eval ((c : ℝ) / ((d : ℤ) : ℝ)) (f.map (algebraMap ℤ ℝ)) = Real.cos (n * y) - 1 := by
    rw [hf, Polynomial.map_sub, Polynomial.map_one, Polynomial.eval_sub, Polynomial.eval_one,
      Polynomial.Chebyshev.map_T]
    have : Polynomial.eval (Real.cos y) (Polynomial.Chebyshev.T ℝ n) = Real.cos ((n : ℤ) * y) :=
      Polynomial.Chebyshev.T_real_cos y n
    rw [hy] at this
    push_cast at this ⊢
    rw [this]
  have hd' : (0 : ℤ) < d := by exact_mod_cast hd
  have key := one_le_pow_mul_abs_eval_div (K := ℝ) (f := f) (a := c) (b := (d : ℤ)) hd'
    (by rw [hev]; exact sub_ne_zero.2 h1)
  rw [hev] at key
  have hdeg : f.natDegree ≤ n := by
    rw [hf]
    refine (Polynomial.natDegree_sub_le _ _).trans (max_le ?_ (by simp))
    rw [Polynomial.Chebyshev.natDegree_T]
    simp
  have hd1 : (1 : ℝ) ≤ d := by exact_mod_cast hd
  push_cast at key
  exact key.trans (mul_le_mul_of_nonneg_right (pow_le_pow_right₀ hd1 hdeg) (abs_nonneg _))

/-- A lower bound for the distance of `sin (pi * u / b)` from an odd multiple of `1 / 65534`. -/
noncomputable def tieGap (b : ℕ) : ℝ := 1 / (5 * (4 * b : ℝ) ^ 2 * (65534 : ℝ) ^ (8 * b))

theorem tieGap_le {b : ℕ} (hb : 0 < b) {x : ℝ} (hx : 1 / (80 * (b : ℝ) ^ 2) ≤ x) : tieGap b ≤ x := by
  refine le_trans ?_ hx
  unfold tieGap
  have hb' : (0 : ℝ) < b := by exact_mod_cast hb
  have h1 : (1 : ℝ) ≤ 65534 ^ (8 * b) := one_le_pow₀ (by norm_num)
  apply one_div_le_one_div_of_le (by positivity)
  calc 80 * (b : ℝ) ^ 2 = 5 * (4 * (b : ℝ)) ^ 2 * 1 := by ring
    _ ≤ 5 * (4 * (b : ℝ)) ^ 2 * 65534 ^ (8 * b) := mul_le_mul_of_nonneg_left h1 (by positivity)

theorem tieGap_le_tick {b : ℕ} (hb : 0 < b) : tieGap b ≤ 1 / 65534 := by
  unfold tieGap
  have hb1 : (1 : ℝ) ≤ b := by exact_mod_cast hb
  apply one_div_le_one_div_of_le (by norm_num)
  have h1 : (65534 : ℝ) ^ 1 ≤ 65534 ^ (8 * b) := pow_le_pow_right₀ (by norm_num) (by omega)
  have h2 : (1 : ℝ) ≤ 5 * (4 * b) ^ 2 := by nlinarith
  calc (65534 : ℝ) = 1 * 65534 ^ 1 := by norm_num
    _ ≤ 5 * (4 * b) ^ 2 * 65534 ^ (8 * b) := mul_le_mul h2 h1 (by norm_num) (by positivity)

/-- The angle whose cosine is `sin (pi * u / b)`. -/
noncomputable abbrev coAngle (u b : ℕ) : ℝ := Real.pi / 2 - Real.pi * u / b

theorem coAngle_range {u b : ℕ} (hu : 0 < u) (hub : 2 * u < b) : 0 < coAngle u b ∧ coAngle u b < Real.pi / 2 := by
  have hb' : (0 : ℝ) < b := by exact_mod_cast (by omega : 0 < b)
  have hu' : (0 : ℝ) < u := by exact_mod_cast hu
  have hub' : 2 * (u : ℝ) < b := by exact_mod_cast hub
  have hpi := Real.pi_pos
  have hux : Real.pi * u / b < Real.pi / 2 := by
    rw [div_lt_div_iff₀ hb' (by norm_num)]
    nlinarith
  have hux0 : 0 < Real.pi * u / b := by positivity
  exact ⟨by unfold coAngle; linarith, by unfold coAngle; linarith⟩

theorem coAngle_multiple {u b : ℕ} (hb : 0 < b) : Real.cos ((4 * b : ℕ) * coAngle u b) = 1 := by
  have hb' : (0 : ℝ) < b := by exact_mod_cast hb
  have : ((4 * b : ℕ) : ℝ) * coAngle u b = ((b : ℤ) - 2 * (u : ℤ) : ℤ) * (2 * Real.pi) := by
    unfold coAngle
    push_cast
    field_simp
    ring
  rw [this, Real.cos_int_mul_two_pi]

/-- Away from 1/2, where the sine is not 1/2. -/
theorem half_gap {u b : ℕ} (hu : 0 < u) (hub : 2 * u < b) (h6 : 6 * u ≠ b) :
    1 / (80 * (b : ℝ) ^ 2) ≤ |Real.cos (coAngle u b) - 1 / 2| := by
  have hb' : (0 : ℝ) < b := by exact_mod_cast (by omega : 0 < b)
  obtain ⟨h0, h1⟩ := coAngle_range hu hub
  have hpi := Real.pi_pos
  have hgap := cos_gap h0.le (by linarith) (y := Real.pi / 3) (by positivity) (by linarith)
  rw [Real.cos_pi_div_three] at hgap
  refine le_trans ?_ hgap
  have hdiff : coAngle u b - Real.pi / 3 = Real.pi * ((b : ℝ) - 6 * u) / (6 * b) := by
    unfold coAngle
    field_simp
    ring
  have hne : (1 : ℝ) ≤ |(b : ℝ) - 6 * u| := by
    have : (1 : ℤ) ≤ |(b : ℤ) - 6 * u| := Int.one_le_abs (by omega)
    exact_mod_cast this
  have hsq : (1 : ℝ) ≤ ((b : ℝ) - 6 * u) ^ 2 := by
    rw [← sq_abs]
    nlinarith
  have hpi2 : (9 : ℝ) ≤ Real.pi ^ 2 := by nlinarith [Real.pi_gt_three]
  have hnum : (9 : ℝ) ≤ Real.pi ^ 2 * ((b : ℝ) - 6 * u) ^ 2 :=
    calc (9 : ℝ) = 9 * 1 := by norm_num
      _ ≤ _ := mul_le_mul hpi2 hsq (by norm_num) (by positivity)
  rw [hdiff, div_pow, mul_pow, div_div, div_le_div_iff₀ (by positivity) (by positivity)]
  calc 1 * ((6 * (b : ℝ)) ^ 2 * 5) = 180 * (b : ℝ) ^ 2 := by ring
    _ ≤ 9 * (80 * (b : ℝ) ^ 2) := by nlinarith [sq_nonneg (b : ℝ)]
    _ ≤ Real.pi ^ 2 * ((b : ℝ) - 6 * u) ^ 2 * (80 * (b : ℝ) ^ 2) :=
      mul_le_mul_of_nonneg_right hnum (by positivity)

/-- Away from a rational cosine whose multiple angle is no full turn. -/
theorem rational_gap {u b : ℕ} (hu : 0 < u) (hub : 2 * u < b) (c : ℤ) {y : ℝ} (hy0 : 0 ≤ y) (hy1 : y ≤ Real.pi)
    (hy : Real.cos y = c / 65534) (h1 : Real.cos ((4 * b : ℕ) * y) ≠ 1) :
    tieGap b ≤ |Real.cos (coAngle u b) - Real.cos y| := by
  have hb : 0 < b := by omega
  obtain ⟨h0, h2⟩ := coAngle_range hu hub
  have hpi := Real.pi_pos
  have hgap := cos_gap h0.le (by linarith) hy0 hy1
  refine le_trans ?_ hgap
  have hkey := multiple_cos_gap (4 * b) c 65534 (by norm_num) y (by rw [hy]; norm_num) h1
  set n : ℕ := 4 * b with hn
  have hn0 : (0 : ℝ) < n := by exact_mod_cast (by omega : 0 < n)
  set δ : ℝ := coAngle u b - y with hδ
  have hlip : |Real.cos (n * y) - 1| ≤ n * |δ| := by
    rw [← coAngle_multiple (u := u) hb]
    refine (Real.abs_cos_sub_cos_le _ _).trans ?_
    rw [← hn, ← mul_sub, abs_mul, abs_of_pos hn0, abs_sub_comm]
  have hP : (0 : ℝ) < 65534 ^ n := by positivity
  have h3 : 1 ≤ (65534 : ℝ) ^ n * (n * |δ|) := by
    push_cast at hkey
    exact hkey.trans (mul_le_mul_of_nonneg_left hlip hP.le)
  have h4 : 1 ≤ ((65534 : ℝ) ^ n * (n * |δ|)) ^ 2 := one_le_pow₀ h3
  have e : (65534 : ℝ) ^ (8 * b) = (65534 ^ n) ^ 2 := by
    rw [← pow_mul, hn]
    congr 1
    ring
  have e' : ((65534 : ℝ) ^ n * (n * |δ|)) ^ 2 = (n : ℝ) ^ 2 * (65534 ^ n) ^ 2 * δ ^ 2 := by
    rw [mul_pow, mul_pow, sq_abs]
    ring
  have en : (4 * (b : ℝ)) = n := by
    rw [hn]
    push_cast
    ring
  unfold tieGap
  rw [e, en, div_le_div_iff₀ (by positivity) (by norm_num)]
  rw [e'] at h4
  calc (1 : ℝ) * 5 ≤ ((n : ℝ) ^ 2 * (65534 ^ n) ^ 2 * δ ^ 2) * 5 := mul_le_mul_of_nonneg_right h4 (by norm_num)
    _ = δ ^ 2 * (5 * (n : ℝ) ^ 2 * (65534 ^ n) ^ 2) := by ring

/-- `32767 * sin (pi * u / b)` stays away from every tie, but for the angles of the sines 0, 1/2 and 1. -/
theorem sine_gap {u b : ℕ} (hu : 0 < u) (hub : 2 * u < b) (h6 : 6 * u ≠ b) (m : ℤ) :
    tieGap b ≤ |Real.sin (Real.pi * u / b) - ((2 * m + 1 : ℤ) : ℝ) / 65534| := by
  have hb : 0 < b := by omega
  obtain ⟨h0, h2⟩ := coAngle_range hu hub
  have hpi := Real.pi_pos
  have hcα : Real.cos (coAngle u b) = Real.sin (Real.pi * u / b) := Real.cos_pi_div_two_sub _
  have hy0 : 0 < Real.cos (coAngle u b) := Real.cos_pos_of_mem_Ioo ⟨by linarith, h2⟩
  have hy1 : Real.cos (coAngle u b) ≤ 1 := Real.cos_le_one _
  rw [← hcα]
  generalize hc : 2 * m + 1 = c
  have hodd : c % 2 = 1 := by omega
  have htick := tieGap_le_tick hb
  have hbig : 1 / (80 * (b : ℝ) ^ 2) ≤ 1 / 80 := by
    have : (1 : ℝ) ≤ b := by exact_mod_cast hb
    apply one_div_le_one_div_of_le (by norm_num)
    nlinarith
  by_cases hq1 : 65534 < c
  · have : (65535 : ℝ) ≤ c := by exact_mod_cast (by omega : (65535 : ℤ) ≤ c)
    have : (65535 : ℝ) / 65534 ≤ c / 65534 := by gcongr
    rw [abs_sub_comm, abs_of_pos (by linarith)]
    linarith
  by_cases hq2 : c < -65534
  · have : (c : ℝ) ≤ -65534 := by exact_mod_cast (by omega : c ≤ -65534)
    have : (c : ℝ) / 65534 ≤ -65534 / 65534 := by gcongr
    rw [abs_of_pos (by linarith)]
    linarith
  have hl : (-1 : ℝ) ≤ (c : ℝ) / 65534 := by
    rw [le_div_iff₀ (by norm_num)]
    have : (-65534 : ℝ) ≤ c := by exact_mod_cast (by omega : (-65534 : ℤ) ≤ c)
    linarith
  have hr : (c : ℝ) / 65534 ≤ 1 := by
    rw [div_le_iff₀ (by norm_num)]
    have : (c : ℝ) ≤ 65534 := by exact_mod_cast (by omega : c ≤ 65534)
    linarith
  have hcβ : Real.cos (Real.arccos ((c : ℝ) / 65534)) = (c : ℝ) / 65534 := Real.cos_arccos hl hr
  by_cases h1 : Real.cos ((4 * b : ℕ) * Real.arccos ((c : ℝ) / 65534)) = 1
  · obtain ⟨k, hk⟩ := (Real.cos_eq_one_iff _).1 h1
    have hrat : ∃ r : ℚ, Real.arccos ((c : ℝ) / 65534) = r * Real.pi := by
      refine ⟨(2 * k : ℚ) / (4 * b : ℕ), ?_⟩
      have : ((4 * b : ℕ) : ℝ) ≠ 0 := by exact_mod_cast (by omega : 4 * b ≠ 0)
      rw [Rat.cast_div, div_mul_eq_mul_div, eq_div_iff (by exact_mod_cast this)]
      push_cast
      push_cast at hk
      linarith
    have hniven := niven hrat ⟨(c : ℚ) / 65534, by rw [hcβ]; push_cast; rfl⟩
    rw [hcβ] at hniven
    have hz : ∀ z : ℤ, (c : ℝ) / 65534 ≠ z / 2 ∨ c = 32767 * z := by
      intro z
      by_cases h : (c : ℝ) / 65534 = z / 2
      · right
        have : (c : ℝ) = 32767 * z := by
          rw [div_eq_div_iff (by norm_num) (by norm_num)] at h
          linarith
        exact_mod_cast this
      · exact .inl h
    simp only [Set.mem_insert_iff, Set.mem_singleton_iff] at hniven
    rcases hniven with h | h | h | h | h
    · rcases hz (-2) with h' | h'
      · exact absurd (h.trans (by norm_num)) h'
      · omega
    · refine tieGap_le hb (hbig.trans ?_)
      rw [h, abs_of_pos (by linarith)]
      linarith
    · rcases hz 0 with h' | h'
      · exact absurd (h.trans (by norm_num)) h'
      · omega
    · rw [h]
      exact tieGap_le hb (half_gap hu hub h6)
    · rcases hz 2 with h' | h'
      · exact absurd (h.trans (by norm_num)) h'
      · omega
  · have := rational_gap hu hub c (Real.arccos_nonneg _) (Real.arccos_le_pi _) hcβ h1
    rwa [hcβ] at this

/-! ### The search ends -/

/-- An enclosure that is narrow against the distance from the ties settles the rounding. -/
theorem roundEnclosure_isSome {p : ℕ} {e : ℤ × ℤ} {x g : ℝ} (he : Encloses p e x)
    (hg : ∀ m : ℤ, g ≤ |x - ((2 * m + 1 : ℤ) : ℝ) / 65534|) (hw : ((e.2 - e.1 : ℤ) : ℝ) < g * 2 ^ p) :
    ∃ m, roundEnclosure p Config.amp e = some m := by
  unfold roundEnclosure
  simp only
  have hS : (0 : ℝ) < 2 ^ p := by positivity
  have hSz : (0 : ℤ) < 2 ^ p := by positivity
  set z : ℤ := (2 * ((Config.amp : ℕ) : ℤ) * e.1 + 2 ^ p) / (2 * 2 ^ p) with hz
  have hamp : 2 * ((Config.amp : ℕ) : ℤ) = 65534 := by decide
  rw [hamp] at hz ⊢
  -- no odd multiple lies in the enclosure
  have hout : ∀ m : ℤ, ¬((65534 : ℤ) * e.1 ≤ (2 * m + 1) * 2 ^ p ∧ (2 * m + 1) * 2 ^ p ≤ 65534 * e.2) := by
    rintro m ⟨h1, h2⟩
    have h1' : (65534 : ℝ) * e.1 ≤ (2 * m + 1) * 2 ^ p := by exact_mod_cast h1
    have h2' : (2 * (m : ℝ) + 1) * 2 ^ p ≤ 65534 * e.2 := by exact_mod_cast h2
    have hb : |2 ^ p * x - (2 * (m : ℝ) + 1) / 65534 * 2 ^ p| ≤ (e.2 : ℝ) - e.1 := by
      have t1 : (e.1 : ℝ) ≤ (2 * (m : ℝ) + 1) / 65534 * 2 ^ p := by
        rw [div_mul_eq_mul_div, le_div_iff₀ (by norm_num)]
        linarith
      have t2 : (2 * (m : ℝ) + 1) / 65534 * 2 ^ p ≤ e.2 := by
        rw [div_mul_eq_mul_div, div_le_iff₀ (by norm_num)]
        linarith
      rw [abs_le]
      constructor <;> linarith [he.1, he.2]
    have hm := hg m
    push_cast at hm hw
    have : |2 ^ p * x - (2 * (m : ℝ) + 1) / 65534 * 2 ^ p| = |x - (2 * (m : ℝ) + 1) / 65534| * 2 ^ p := by
      rw [← abs_of_pos hS, ← abs_mul, abs_of_pos hS]
      congr 1
      ring
    rw [this] at hb
    have := mul_le_mul_of_nonneg_right hm hS.le
    linarith
  have hdiv1 : 2 * 2 ^ p * z ≤ 65534 * e.1 + 2 ^ p := by
    rw [hz]
    exact Int.mul_ediv_self_le (by positivity)
  have hdiv2 : 65534 * e.1 + 2 ^ p < 2 * 2 ^ p * z + 2 * 2 ^ p := by
    rw [hz]
    exact Int.lt_mul_ediv_self_add (by positivity)
  have hle : e.1 ≤ e.2 := by
    have : (e.1 : ℝ) ≤ e.2 := he.1.trans he.2
    exact_mod_cast this
  have c1 := hout (z - 1)
  have c2 := hout z
  rw [if_pos]
  · exact ⟨_, rfl⟩
  · constructor
    · by_contra hcon
      refine c1 ⟨?_, ?_⟩ <;> nlinarith
    · by_contra hcon
      refine c2 ⟨?_, ?_⟩ <;> nlinarith

theorem sineSearch_isSome_of {fuel p u b k : ℕ} (hk : k < fuel)
    (h : ∃ m, roundEnclosure (p * 2 ^ k) Config.amp (sineEnclosure (p * 2 ^ k) u b) = some m) :
    ∃ m, sineSearch fuel p u b = some m := by
  induction fuel generalizing p k with
  | zero => omega
  | succ fuel ih =>
    rw [sineSearch]
    cases hr : roundEnclosure p Config.amp (sineEnclosure p u b) with
    | some m => exact ⟨m, rfl⟩
    | none =>
      simp only
      cases k with
      | zero =>
        rw [pow_zero, mul_one, hr] at h
        obtain ⟨m, hm⟩ := h
        cases hm
      | succ k =>
        refine ih (p := 2 * p) (k := k) (by omega) ?_
        rwa [show 2 * p * 2 ^ k = p * 2 ^ (k + 1) by rw [pow_succ]; ring]

/-- The enclosures of precision `2 ^ 46` are narrow enough for every rate. -/
theorem width_lt_tieGap {b p : ℕ} (hb : 0 < b) (hb32 : b ≤ 2 ^ 33) (hp : p = 2 ^ 46) :
    ((6 * p + 100 : ℕ) : ℝ) < tieGap b * 2 ^ p := by
  unfold tieGap
  have hb' : (0 : ℝ) < b := by exact_mod_cast hb
  rw [div_mul_eq_mul_div, one_mul, lt_div_iff₀ (by positivity)]
  have h1 : (6 * p + 100) * (5 * (4 * b) ^ 2 * 65534 ^ (8 * b)) < 2 ^ p :=
    calc (6 * p + 100) * (5 * (4 * b) ^ 2 * 65534 ^ (8 * b))
        ≤ 2 ^ 50 * (2 ^ 73 * 2 ^ (128 * b)) := by
          refine Nat.mul_le_mul (by omega) (Nat.mul_le_mul ?_ ?_)
          · calc 5 * (4 * b) ^ 2 ≤ 5 * (4 * 2 ^ 33) ^ 2 := by gcongr
              _ ≤ 2 ^ 73 := by norm_num
          · calc 65534 ^ (8 * b) ≤ (2 ^ 16) ^ (8 * b) := Nat.pow_le_pow_left (by norm_num) _
              _ = 2 ^ (128 * b) := by rw [← pow_mul]; congr 1; ring
      _ = 2 ^ (50 + (73 + 128 * b)) := by rw [pow_add 2 50, pow_add 2 73]
      _ < 2 ^ p := Nat.pow_lt_pow_right (by decide) (by omega)
  exact_mod_cast h1

/-- The search settles on a value for every angle of the first quarter turn other than those of the sines 0, 1/2, 1. -/
theorem sineSearch_isSome {u b : ℕ} (hu : 0 < u) (hub : 2 * u < b) (h6 : 6 * u ≠ b) (hb : b ≤ 2 ^ 33) :
    ∃ m, sineSearch precisionSteps firstPrecision u b = some m := by
  refine sineSearch_isSome_of (k := 40) (by decide) ?_
  have hp : firstPrecision * 2 ^ 40 = 2 ^ 46 := by decide
  generalize firstPrecision * 2 ^ 40 = p at *
  refine roundEnclosure_isSome (sineEnclosure_encloses p u b hub.le (by omega)) (sine_gap hu hub h6) ?_
  refine lt_of_le_of_lt ?_ (width_lt_tieGap (by omega) hb hp)
  exact_mod_cast sineEnclosure_width p u b hub.le (by omega)

end Sys2Proof.Machine
end

