-- ==== Sys2Proof/Laws/Peak.lean ====
section
/-! SUPPORT. The peak search is right, and it always ends. -/

namespace Sys2Proof.Machine

open Finset

/-! ### Lists turned round, and their sums over the roots of unity -/

/-- `V(w) = sum over t of v[t] * w^t`. -/
noncomputable def listEval (v : List ℤ) (w : ℂ) : ℂ := ∑ t ∈ range v.length, (v.getD t 0 : ℂ) * w ^ t

theorem turn_length (m : ℕ) (x : List ℤ) : (turn m x).length = x.length := by
  simp only [turn, List.length_append, List.length_drop, List.length_take]
  omega

theorem turn_getD (m : ℕ) (x : List ℤ) (hm : m ≤ x.length) (a : ℕ) (ha : a < x.length) :
    (turn m x).getD a 0 = x.getD ((a + m) % x.length) 0 := by
  simp only [turn, List.getD_eq_getElem?_getD]
  by_cases h : a < x.length - m
  · rw [List.getElem?_append_left (by simpa using h), List.getElem?_drop, Nat.mod_eq_of_lt (by omega), Nat.add_comm]
  · have : (a + m) % x.length = a - (x.length - m) := by
      rw [Nat.mod_eq_sub_mod (by omega), Nat.mod_eq_of_lt (by omega)]
      omega
    rw [List.getElem?_append_right (by simp; omega), List.length_drop, this, List.getElem?_take, if_pos (by omega)]

/-- A sum over a full turn does not depend on where it starts. -/
theorem sum_turn {M : Type*} [AddCommGroup M] (n : ℕ) (g : ℕ → M) (a : ℕ) :
    ∑ m ∈ range n, g ((a + m) % n) = ∑ b ∈ range n, g b := by
  induction a with
  | zero =>
    refine sum_congr rfl fun m hm => ?_
    rw [Nat.zero_add, Nat.mod_eq_of_lt (mem_range.1 hm)]
  | succ a ih =>
    rw [← ih]
    have h1 := sum_range_succ (fun m => g ((a + m) % n)) n
    have h2 := sum_range_succ' (fun m => g ((a + m) % n)) n
    have h3 : g ((a + n) % n) = g ((a + 0) % n) := by rw [Nat.add_mod_right, Nat.add_zero]
    rw [h1, h3] at h2
    have h4 : ∑ m ∈ range n, g ((a + 1 + m) % n) = ∑ m ∈ range n, g ((a + (m + 1)) % n) :=
      sum_congr rfl fun m _ => by rw [show a + 1 + m = a + (m + 1) by omega]
    rw [h4]
    exact (add_right_cancel h2).symm

theorem pow_mod_of_root {w : ℂ} {n : ℕ} (hw : w ^ n = 1) (k : ℕ) : w ^ (k % n) = w ^ k := by
  conv_rhs => rw [← Nat.mod_add_div k n, pow_add, pow_mul, hw, one_pow, mul_one]

/-- Turning by `m` divides the value at a root of unity by `w ^ m`. -/
theorem listEval_turn (v : List ℤ) (m : ℕ) (hm : m ≤ v.length) {w : ℂ} (hw : w ^ v.length = 1) :
    w ^ m * listEval (turn m v) w = listEval v w := by
  unfold listEval
  rw [turn_length, mul_sum, ← sum_turn v.length (fun t => (v.getD t 0 : ℂ) * w ^ t) m]
  refine sum_congr rfl fun a ha => ?_
  rw [turn_getD m v hm a (mem_range.1 ha), Nat.add_comm m a, pow_mod_of_root hw (a + m), pow_add]
  ring

theorem zipWith_sub_getD (u v : List ℤ) (h : u.length = v.length) (t : ℕ) :
    (List.zipWith (fun a b => a - b) u v).getD t 0 = u.getD t 0 - v.getD t 0 := by
  simp only [List.getD_eq_getElem?_getD, List.getElem?_zipWith]
  by_cases ht : t < u.length
  · rw [List.getElem?_eq_getElem ht, List.getElem?_eq_getElem (by omega : t < v.length)]
    rfl
  · rw [List.getElem?_eq_none (by omega), List.getElem?_eq_none (by omega)]
    rfl

theorem listEval_sub (u v : List ℤ) (h : u.length = v.length) (w : ℂ) :
    listEval (List.zipWith (fun a b => a - b) u v) w = listEval u w - listEval v w := by
  unfold listEval
  rw [List.length_zipWith, ← h, min_self, ← sum_sub_distrib]
  refine sum_congr rfl fun t _ => ?_
  rw [zipWith_sub_getD u v h]
  push_cast
  ring

/-! ### The autocorrelation and the power -/

theorem list_sum_eq (l : List ℤ) : l.sum = ∑ t ∈ range l.length, l.getD t 0 := by
  induction l with
  | nil => rfl
  | cons a l ih =>
    rw [List.sum_cons, List.length_cons, sum_range_succ', ih, add_comm]
    rfl

theorem zipWith_mul_getD (u v : List ℤ) (h : u.length = v.length) (t : ℕ) :
    (List.zipWith (fun a b => a * b) u v).getD t 0 = u.getD t 0 * v.getD t 0 := by
  simp only [List.getD_eq_getElem?_getD, List.getElem?_zipWith]
  by_cases ht : t < u.length
  · rw [List.getElem?_eq_getElem ht, List.getElem?_eq_getElem (by omega : t < v.length)]
    rfl
  · rw [List.getElem?_eq_none (by omega), List.getElem?_eq_none (by omega)]
    rfl

theorem autocorrelation_length (x : List ℤ) : (autocorrelation x).length = x.length := by simp [autocorrelation]

theorem autocorrelation_getD (x : List ℤ) (m : ℕ) (hm : m < x.length) :
    (autocorrelation x).getD m 0 = ∑ a ∈ range x.length, x.getD a 0 * x.getD ((a + m) % x.length) 0 := by
  have e : (autocorrelation x).getD m 0 = (List.zipWith (fun a b => a * b) x (turn m x)).sum := by
    simp [autocorrelation, List.getD_eq_getElem?_getD, hm]
  rw [e, list_sum_eq, List.length_zipWith, turn_length, min_self]
  refine sum_congr rfl fun a ha => ?_
  rw [zipWith_mul_getD x (turn m x) (turn_length m x).symm, turn_getD m x hm.le a (mem_range.1 ha)]

/-- The sum of the autocorrelation over the powers of a root of unity is the squared magnitude of the bin. -/
theorem autocorrelation_eval (x : List ℤ) (hx : 0 < x.length) {w : ℂ} (hw : w ^ x.length = 1) :
    listEval (autocorrelation x) w = (starRingEnd ℂ) (listEval x w) * listEval x w := by
  have hw0 : w ≠ 0 := by
    rintro rfl
    rw [zero_pow hx.ne'] at hw
    exact zero_ne_one hw
  have hnorm : ‖w‖ = 1 := Complex.norm_eq_one_of_pow_eq_one hw hx.ne'
  have hconj : (starRingEnd ℂ) w = w⁻¹ := (Complex.inv_eq_conj hnorm).symm
  unfold listEval
  rw [autocorrelation_length]
  have h1 : ∀ m ∈ range x.length, ((autocorrelation x).getD m 0 : ℂ) * w ^ m =
      ∑ a ∈ range x.length, (x.getD a 0 : ℂ) * (w⁻¹) ^ a *
        ((x.getD ((a + m) % x.length) 0 : ℂ) * w ^ ((a + m) % x.length)) := by
    intro m hm
    rw [autocorrelation_getD x m (mem_range.1 hm)]
    push_cast
    rw [sum_mul]
    refine sum_congr rfl fun a _ => ?_
    rw [pow_mod_of_root hw, pow_add]
    have : (w⁻¹) ^ a * w ^ a = 1 := by rw [← mul_pow, inv_mul_cancel₀ hw0, one_pow]
    linear_combination -(x.getD a 0 : ℂ) * (x.getD ((a + m) % x.length) 0 : ℂ) * w ^ m * this
  rw [sum_congr rfl h1, sum_comm]
  have h2 : ∀ a ∈ range x.length, ∑ m ∈ range x.length, (x.getD a 0 : ℂ) * (w⁻¹) ^ a *
      ((x.getD ((a + m) % x.length) 0 : ℂ) * w ^ ((a + m) % x.length)) =
      (x.getD a 0 : ℂ) * (w⁻¹) ^ a * ∑ b ∈ range x.length, (x.getD b 0 : ℂ) * w ^ b := by
    intro a _
    rw [← mul_sum, sum_turn x.length (fun b => (x.getD b 0 : ℂ) * w ^ b) a]
  rw [sum_congr rfl h2, ← sum_mul, map_sum]
  congr 1
  refine sum_congr rfl fun a _ => ?_
  rw [map_mul, map_pow, hconj]
  simp

/-- A primitive root of unity of order `n`. -/
noncomputable def zeta (n : ℕ) : ℂ := Complex.exp (2 * Real.pi * Complex.I / n)

theorem zeta_primitive {n : ℕ} (hn : 0 < n) : IsPrimitiveRoot (zeta n) n := Complex.isPrimitiveRoot_exp n hn.ne'

theorem zeta_pow (n t : ℕ) : zeta n ^ t =
    (Real.cos (2 * Real.pi * t / n) : ℂ) + (Real.sin (2 * Real.pi * t / n) : ℂ) * Complex.I := by
  rw [zeta, ← Complex.exp_nat_mul, Complex.ofReal_cos, Complex.ofReal_sin, ← Complex.exp_mul_I]
  congr 1
  push_cast
  ring

/-- The sum that the enclosures are about: `P[k] = sum over m of r[m] * cos (2 * pi * k * m / n)`. -/
noncomputable def cosineSum (r : List ℤ) (k : ℕ) : ℝ :=
  ∑ m ∈ range r.length, (r.getD m 0 : ℝ) * Real.cos (2 * Real.pi * (k * m : ℕ) / r.length)

theorem cosineSum_eq_re (r : List ℤ) (k : ℕ) : cosineSum r k = (listEval r (zeta r.length ^ k)).re := by
  unfold cosineSum listEval
  rw [Complex.re_sum]
  refine sum_congr rfl fun m _ => ?_
  rw [← pow_mul, zeta_pow]
  generalize Real.cos (2 * Real.pi * (k * m : ℕ) / r.length) = c
  generalize Real.sin (2 * Real.pi * (k * m : ℕ) / r.length) = s
  simp

/-- `P[k]` is the squared magnitude of bin `k` (R122). -/
theorem cosineSum_autocorrelation (x : List ℤ) (hx : 0 < x.length) (k : ℕ) :
    (cosineSum (autocorrelation x) k : ℂ) = listEval (autocorrelation x) (zeta x.length ^ k) ∧
    cosineSum (autocorrelation x) k =
      (∑ a ∈ range x.length, (x.getD a 0 : ℝ) * Real.cos (2 * Real.pi * k * a / x.length)) ^ 2 +
      (∑ a ∈ range x.length, (x.getD a 0 : ℝ) * Real.sin (2 * Real.pi * k * a / x.length)) ^ 2 := by
  have hw : (zeta x.length ^ k) ^ x.length = 1 := by
    rw [← pow_mul, mul_comm, pow_mul, (zeta_primitive hx).pow_eq_one, one_pow]
  have e := autocorrelation_eval x hx hw
  have hX : listEval x (zeta x.length ^ k) =
      ((∑ a ∈ range x.length, (x.getD a 0 : ℝ) * Real.cos (2 * Real.pi * k * a / x.length) : ℝ) : ℂ) +
      ((∑ a ∈ range x.length, (x.getD a 0 : ℝ) * Real.sin (2 * Real.pi * k * a / x.length) : ℝ) : ℂ) * Complex.I := by
    unfold listEval
    push_cast
    rw [sum_mul, ← sum_add_distrib]
    refine sum_congr rfl fun a _ => ?_
    rw [← pow_mul, zeta_pow]
    push_cast
    rw [show (2 * (Real.pi : ℂ) * (k * a) / x.length) = 2 * Real.pi * k * a / x.length by ring]
    ring
  rw [hX] at e
  generalize (∑ a ∈ range x.length, (x.getD a 0 : ℝ) * Real.cos (2 * Real.pi * k * a / x.length) : ℝ) = A at *
  generalize (∑ a ∈ range x.length, (x.getD a 0 : ℝ) * Real.sin (2 * Real.pi * k * a / x.length) : ℝ) = B at *
  have e' : listEval (autocorrelation x) (zeta x.length ^ k) = ((A ^ 2 + B ^ 2 : ℝ) : ℂ) := by
    rw [e]
    simp only [map_add, map_mul, Complex.conj_ofReal, Complex.conj_I]
    push_cast
    linear_combination -(B : ℂ) ^ 2 * Complex.I_sq
  have hre := cosineSum_eq_re (autocorrelation x) k
  rw [autocorrelation_length, e', Complex.ofReal_re] at hre
  exact ⟨by rw [hre, e'], hre⟩

/-! ### When two powers are equal -/

/-- A coefficient list vanishes on every root of unity of its length only if it is zero. -/
theorem all_zero_of_eval (v : List ℤ) (hv : 0 < v.length) (h : ∀ w : ℂ, w ^ v.length = 1 → listEval v w = 0) :
    ∀ t, t < v.length → v.getD t 0 = 0 := by
  set n := v.length with hn
  set f : Polynomial ℂ := ∑ t ∈ range n, Polynomial.C (v.getD t 0 : ℂ) * Polynomial.X ^ t with hf
  have hev : ∀ w, f.eval w = listEval v w := by
    intro w
    rw [hf, Polynomial.eval_finsetSum]
    unfold listEval
    refine sum_congr rfl fun t _ => ?_
    simp
  have hdeg : f.natDegree < n := by
    refine lt_of_le_of_lt (Polynomial.natDegree_sum_le_of_forall_le (n := n - 1) _ _ fun t ht => ?_) (by omega)
    exact (Polynomial.natDegree_C_mul_X_pow_le _ _).trans (by have := mem_range.1 ht; omega)
  have hzero : f = 0 := by
    refine Polynomial.eq_zero_of_natDegree_lt_card_of_eval_eq_zero' f (Polynomial.nthRootsFinset n (1 : ℂ)) ?_ ?_
    · intro w hw
      rw [hev]
      exact h w ((Polynomial.mem_nthRootsFinset hv (1 : ℂ)).1 hw)
    · rw [(zeta_primitive hv).card_nthRootsFinset]
      exact hdeg
  intro t ht
  have hc : f.coeff t = (v.getD t 0 : ℂ) := by
    rw [hf, Polynomial.finsetSum_coeff]
    simp only [Polynomial.coeff_C_mul_X_pow]
    rw [sum_ite_eq (range n) t fun i => (v.getD i 0 : ℂ), if_pos (mem_range.2 ht)]
  rw [hzero, Polynomial.coeff_zero] at hc
  exact_mod_cast hc.symm

/-- A sum that vanishes at one primitive root of unity vanishes at all of them. -/
theorem listEval_conjugate (v : List ℤ) (hv : 0 < v.length) (h : listEval v (zeta v.length) = 0) {w : ℂ}
    (hw : IsPrimitiveRoot w v.length) : listEval v w = 0 := by
  set n := v.length with hn
  set f : Polynomial ℤ := ∑ t ∈ range n, Polynomial.C (v.getD t 0) * Polynomial.X ^ t with hf
  have hev : ∀ w : ℂ, Polynomial.aeval w f = listEval v w := by
    intro w
    rw [hf, map_sum]
    unfold listEval
    refine sum_congr rfl fun t _ => ?_
    simp
  have hprim := zeta_primitive hv
  have hdvd : minpoly ℤ (zeta n) ∣ f :=
    minpoly.isIntegrallyClosed_dvd (hprim.isIntegral hv) (by rw [hev]; exact h)
  rw [← Polynomial.cyclotomic_eq_minpoly hprim hv, Polynomial.cyclotomic_eq_minpoly hw hv] at hdvd
  rw [← hev]
  obtain ⟨g, hg⟩ := hdvd
  rw [hg, map_mul, minpoly.aeval, zero_mul]

/-- The product that `vanishes` forms. -/
def turnProduct (es : List ℕ) (d : List ℤ) : List ℤ :=
  es.foldl (fun v e => List.zipWith (fun a b => a - b) (turn e v) v) d

theorem turnProduct_length (es : List ℕ) (d : List ℤ) : (turnProduct es d).length = d.length := by
  induction es generalizing d with
  | nil => rfl
  | cons e es ih =>
    show (turnProduct es _).length = _
    rw [ih, List.length_zipWith, turn_length, min_self]

/-- The product of `D` with `w ^ -e - 1` over the `e` listed. -/
theorem turnProduct_eval (es : List ℕ) (d : List ℤ) (he : ∀ e ∈ es, e ≤ d.length) {w : ℂ} (hw : w ^ d.length = 1)
    (hw0 : w ≠ 0) :
    listEval (turnProduct es d) w = listEval d w * (es.map fun e => (w⁻¹) ^ e - 1).prod := by
  induction es generalizing d with
  | nil => simp [turnProduct]
  | cons e es ih =>
    show listEval (turnProduct es _) w = _
    have hl : (List.zipWith (fun a b => a - b) (turn e d) d).length = d.length := by
      rw [List.length_zipWith, turn_length, min_self]
    rw [ih _ (fun e' h => by rw [hl]; exact he e' (List.mem_cons_of_mem _ h)) (by rw [hl]; exact hw),
      listEval_sub _ _ (turn_length e d)]
    have ht := listEval_turn d e (he e List.mem_cons_self) hw
    have hi : (w⁻¹) ^ e * w ^ e = 1 := by rw [← mul_pow, inv_mul_cancel₀ hw0, one_pow]
    have ht' : listEval (turn e d) w = (w⁻¹) ^ e * listEval d w := by
      rw [← ht]
      linear_combination -(listEval (turn e d) w) * hi
    rw [ht', List.map_cons, List.prod_cons]
    ring

/-- `vanishes` decides whether the sum over the powers of a primitive root of unity is 0. -/
theorem vanishes_iff (d : List ℤ) (hd : 0 < d.length) : vanishes d = true ↔ listEval d (zeta d.length) = 0 := by
  set n := d.length with hn
  set es := (List.range n).filter fun e => 0 < e ∧ n % e = 0 with hes
  have hmem : ∀ e, e ∈ es ↔ e < n ∧ 0 < e ∧ n % e = 0 := by
    intro e
    rw [hes, List.mem_filter, List.mem_range, decide_eq_true_iff]
  have hle : ∀ e ∈ es, e ≤ d.length := fun e he => ((hmem e).1 he).1.le
  have hall : vanishes d = true ↔ ∀ t, t < n → (turnProduct es d).getD t 0 = 0 := by
    have : vanishes d = (turnProduct es d).all fun c => c = 0 := rfl
    rw [this, List.all_eq_true]
    have hl := turnProduct_length es d
    constructor
    · intro h t ht
      have hm : (turnProduct es d).getD t 0 ∈ turnProduct es d := by
        rw [List.getD_eq_getElem?_getD, List.getElem?_eq_getElem (by omega)]
        exact List.getElem_mem _
      simpa using h _ hm
    · intro h c hc
      obtain ⟨t, ht, rfl⟩ := List.mem_iff_getElem.1 hc
      have := h t (by omega)
      rw [List.getD_eq_getElem?_getD, List.getElem?_eq_getElem ht] at this
      simpa using this
  have hprim := zeta_primitive hd
  rw [hall]
  constructor
  · intro h
    have hz0 : zeta n ≠ 0 := hprim.ne_zero hd.ne'
    have e := turnProduct_eval es d hle hprim.pow_eq_one hz0
    have h0 : listEval (turnProduct es d) (zeta n) = 0 := by
      unfold listEval
      refine sum_eq_zero fun t ht => ?_
      rw [turnProduct_length] at ht
      rw [h t (mem_range.1 ht)]
      simp
    rw [h0] at e
    rcases mul_eq_zero.1 e.symm with h1 | h1
    · exact h1
    · exfalso
      obtain ⟨e, he, h2⟩ := List.mem_map.1 (List.prod_eq_zero_iff.1 h1)
      obtain ⟨h3, h4, -⟩ := (hmem e).1 he
      have : zeta n ^ e = 1 := by
        rw [inv_pow, sub_eq_zero, inv_eq_one] at h2
        exact h2
      exact hprim.pow_ne_one_of_pos_of_lt h4.ne' h3 this
  · intro h
    have hl := turnProduct_length es d
    refine fun t ht => all_zero_of_eval (turnProduct es d) (by omega) (fun w hw => ?_) t (by omega)
    rw [hl] at hw
    have hw0 : w ≠ 0 := by
      rintro rfl
      rw [zero_pow hd.ne'] at hw
      exact zero_ne_one hw
    rw [turnProduct_eval es d hle hw hw0]
    by_cases hp : orderOf w = n
    · have : IsPrimitiveRoot w d.length := by
        rw [← hn, ← hp]
        exact IsPrimitiveRoot.orderOf w
      rw [listEval_conjugate d hd h this, zero_mul]
    · have hdvd : orderOf w ∣ n := orderOf_dvd_of_pow_eq_one hw
      have hpos : 0 < orderOf w := Nat.pos_of_dvd_of_pos hdvd hd
      have hlt : orderOf w < n := lt_of_le_of_ne (Nat.le_of_dvd hd hdvd) hp
      have : (0 : ℂ) ∈ es.map fun e => (w⁻¹) ^ e - 1 := by
        refine List.mem_map.2 ⟨orderOf w, (hmem _).2 ⟨hlt, hpos, Nat.mod_eq_zero_of_dvd hdvd⟩, ?_⟩
        rw [inv_pow, pow_orderOf_eq_one, inv_one, sub_self]
      rw [List.prod_eq_zero this, mul_zero]

theorem powerCoefficients_length (r : List ℤ) (k : ℕ) : (powerCoefficients r k).length = r.length := by
  simp [powerCoefficients]

theorem powerCoefficients_getD (r : List ℤ) (k t : ℕ) (ht : t < r.length) :
    (powerCoefficients r k).getD t 0 = ∑ m ∈ range r.length, if k * m % r.length = t then r.getD m 0 else 0 := by
  have e : (powerCoefficients r k).getD t 0 =
      ((List.range r.length).map fun m => if k * m % r.length = t then r.getD m 0 else 0).sum := by
    simp [powerCoefficients, List.getD_eq_getElem?_getD, ht]
  rw [e, list_sum_eq, List.length_map, List.length_range]
  refine sum_congr rfl fun m hm => ?_
  simp [List.getD_eq_getElem?_getD, mem_range.1 hm]

theorem powerCoefficients_eval (r : List ℤ) (hr : 0 < r.length) (k : ℕ) :
    listEval (powerCoefficients r k) (zeta r.length) = listEval r (zeta r.length ^ k) := by
  unfold listEval
  rw [powerCoefficients_length]
  have h1 : ∀ t ∈ range r.length, ((powerCoefficients r k).getD t 0 : ℂ) * zeta r.length ^ t =
      ∑ m ∈ range r.length, if k * m % r.length = t then (r.getD m 0 : ℂ) * zeta r.length ^ t else 0 := by
    intro t ht
    rw [powerCoefficients_getD r k t (mem_range.1 ht)]
    push_cast
    rw [sum_mul]
    refine sum_congr rfl fun m _ => ?_
    split <;> simp
  rw [sum_congr rfl h1, sum_comm]
  refine sum_congr rfl fun m _ => ?_
  rw [sum_ite_eq (range r.length) (k * m % r.length) fun t => (r.getD m 0 : ℂ) * zeta r.length ^ t,
    if_pos (mem_range.2 (Nat.mod_lt _ hr)), pow_mod_of_root (zeta_primitive hr).pow_eq_one, pow_mul]

/-- The equality test of two powers is exact. -/
theorem sameAsPower_iff (r : List ℤ) (hr : 0 < r.length) (j k : ℕ) :
    sameAsPower r j k = true ↔ listEval r (zeta r.length ^ j) = listEval r (zeta r.length ^ k) := by
  have hl : (List.zipWith (fun a b => a - b) (powerCoefficients r j) (powerCoefficients r k)).length = r.length := by
    rw [List.length_zipWith, powerCoefficients_length, powerCoefficients_length, min_self]
  unfold sameAsPower
  rw [vanishes_iff _ (by omega), hl,
    listEval_sub _ _ ((powerCoefficients_length r j).trans (powerCoefficients_length r k).symm),
    powerCoefficients_eval r hr, powerCoefficients_eval r hr, sub_eq_zero]

/-! ### How far unequal powers are apart -/

theorem listEval_norm_le (v : List ℤ) {w : ℂ} (hw : ‖w‖ = 1) :
    ‖listEval v w‖ ≤ ∑ t ∈ range v.length, |(v.getD t 0 : ℝ)| := by
  unfold listEval
  refine (norm_sum_le _ _).trans (sum_le_sum fun t _ => ?_)
  rw [norm_mul, norm_pow, hw, one_pow, mul_one, Complex.norm_intCast]

/-- A sum over the powers of a primitive root of unity that is not 0 is not small: the product of its conjugates is a
nonzero integer. -/
theorem listEval_gap (v : List ℤ) (hv : 0 < v.length) (B : ℝ) (hB1 : 1 ≤ B)
    (hB : ∑ t ∈ range v.length, |(v.getD t 0 : ℝ)| ≤ B) (h0 : listEval v (zeta v.length) ≠ 0) :
    1 ≤ ‖listEval v (zeta v.length)‖ * B ^ v.length := by
  set n := v.length with hn
  have hprim := zeta_primitive hv
  have hint : IsIntegral ℤ (zeta n) := hprim.isIntegral hv
  have hintQ : IsIntegral ℚ (zeta n) := hint.tower_top
  let L := IntermediateField.adjoin ℚ {zeta n}
  have : FiniteDimensional ℚ L := IntermediateField.adjoin.finiteDimensional hintQ
  let g : L := IntermediateField.AdjoinSimple.gen ℚ (zeta n)
  have hg : (algebraMap L ℂ) g = zeta n := IntermediateField.AdjoinSimple.algebraMap_gen ℚ (zeta n)
  let y : L := ∑ t ∈ range n, ((v.getD t 0 : ℤ) : L) * g ^ t
  have hyC : (algebraMap L ℂ) y = listEval v (zeta n) := by
    simp only [y, map_sum, map_mul, map_pow, map_intCast, hg]
    rfl
  have hy0 : y ≠ 0 := by
    intro h
    rw [h, map_zero] at hyC
    exact h0 hyC.symm
  have hgint : IsIntegral ℤ g := by
    have hinj : Function.Injective (algebraMap L ℂ) := (algebraMap L ℂ).injective
    rw [← isIntegral_algebraMap_iff hinj, hg]
    exact hint
  have hyint : IsIntegral ℤ y := IsIntegral.sum _ fun t _ => IsIntegral.mul
    (by simpa using isIntegral_algebraMap (R := ℤ) (A := L) (x := v.getD t 0)) (hgint.pow t)
  have hnint : IsIntegral ℤ (Algebra.norm ℚ y) := Algebra.isIntegral_norm ℚ hyint
  obtain ⟨z, hz⟩ := IsIntegrallyClosed.isIntegral_iff.1 hnint
  have hz0 : z ≠ 0 := by
    rintro rfl
    rw [map_zero] at hz
    exact hy0 (Algebra.norm_eq_zero_iff.1 hz.symm)
  have hnorm := Algebra.norm_eq_prod_embeddings ℚ ℂ y
  have h1 : (1 : ℝ) ≤ ‖∏ σ : L →ₐ[ℚ] ℂ, σ y‖ := by
    rw [← hnorm, ← hz]
    have : (algebraMap ℚ ℂ) ((algebraMap ℤ ℚ) z) = (z : ℂ) := by simp
    rw [this, Complex.norm_intCast]
    exact_mod_cast Int.one_le_abs hz0
  have hσ : ∀ σ : L →ₐ[ℚ] ℂ, ‖σ y‖ ≤ B := by
    intro σ
    have hσg : (σ g) ^ n = 1 := by
      have : g ^ n = 1 := by
        have hinj : Function.Injective (algebraMap L ℂ) := (algebraMap L ℂ).injective
        apply hinj
        rw [map_pow, hg, map_one, hprim.pow_eq_one]
      rw [← map_pow, this, map_one]
    have e : σ y = listEval v (σ g) := by
      simp only [y, map_sum, map_mul, map_pow, map_intCast]
      rfl
    rw [e]
    exact (listEval_norm_le v (Complex.norm_eq_one_of_pow_eq_one hσg hv.ne')).trans hB
  have hcard : Fintype.card (L →ₐ[ℚ] ℂ) ≤ n := by
    rw [AlgHom.card, IntermediateField.adjoin.finrank hintQ,
      ← Polynomial.cyclotomic_eq_minpoly_rat hprim hv, Polynomial.natDegree_cyclotomic]
    exact Nat.totient_le n
  let σ0 : L →ₐ[ℚ] ℂ := L.val
  have h2 : ∏ σ : L →ₐ[ℚ] ℂ, ‖σ y‖ ≤ ‖σ0 y‖ * B ^ (Fintype.card (L →ₐ[ℚ] ℂ) - 1) := by
    classical
    rw [← Finset.mul_prod_erase univ (fun σ : L →ₐ[ℚ] ℂ => ‖σ y‖) (mem_univ σ0)]
    refine mul_le_mul_of_nonneg_left ?_ (norm_nonneg _)
    refine (Finset.prod_le_prod (fun σ _ => norm_nonneg _) fun σ _ => hσ σ).trans ?_
    rw [Finset.prod_const, Finset.card_erase_of_mem (mem_univ _), Finset.card_univ]
  rw [norm_prod] at h1
  have hσ0 : σ0 y = listEval v (zeta n) := hyC
  rw [hσ0] at h2
  calc (1 : ℝ) ≤ ‖listEval v (zeta n)‖ * B ^ (Fintype.card (L →ₐ[ℚ] ℂ) - 1) := h1.trans h2
    _ ≤ ‖listEval v (zeta n)‖ * B ^ n :=
      mul_le_mul_of_nonneg_left (pow_le_pow_right₀ hB1 (by omega)) (norm_nonneg _)

/-! ### The enclosures of the powers -/

theorem scaleEnclosure_encloses {p : ℕ} {e : ℤ × ℤ} {x : ℝ} (h : Encloses p e x) (c : ℤ) :
    Encloses p (scaleEnclosure c e) (c * x) := by
  unfold scaleEnclosure
  have e1 : (2 : ℝ) ^ p * (c * x) = c * (2 ^ p * x) := by ring
  split
  · rename_i hc
    have hc' : (0 : ℝ) ≤ c := by exact_mod_cast hc
    refine ⟨?_, ?_⟩
    · push_cast
      rw [e1]
      exact mul_le_mul_of_nonneg_left h.1 hc'
    · push_cast
      rw [e1]
      exact mul_le_mul_of_nonneg_left h.2 hc'
  · rename_i hc
    have hc' : (c : ℝ) ≤ 0 := by exact_mod_cast (by omega : c ≤ 0)
    refine ⟨?_, ?_⟩
    · push_cast
      rw [e1]
      exact mul_le_mul_of_nonpos_left h.2 hc'
    · push_cast
      rw [e1]
      exact mul_le_mul_of_nonpos_left h.1 hc'

theorem scaleEnclosure_width (c : ℤ) (e : ℤ × ℤ) :
    (scaleEnclosure c e).2 - (scaleEnclosure c e).1 = |c| * (e.2 - e.1) := by
  unfold scaleEnclosure
  split
  · rename_i hc
    rw [abs_of_nonneg hc]
    ring
  · rename_i hc
    rw [abs_of_neg (by omega)]
    ring

theorem cosineEnclosure_width (p n t : ℕ) (ht : t < n) :
    (cosineEnclosure p n t).2 - (cosineEnclosure p n t).1 ≤ 6 * p + 100 := by
  unfold cosineEnclosure
  simp only
  split
  · exact sineEnclosure_width p _ _ (by omega) (by omega)
  · have := sineEnclosure_width p (4 * min t (n - t) - n) (2 * n) (by omega) (by omega)
    simp only
    omega

/-- The list of the enclosures of the cosines. -/
theorem cosines_getD (p n t : ℕ) (ht : t < n) :
    ((List.range n).map (cosineEnclosure p n)).getD t (0, 0) = cosineEnclosure p n t := by
  simp [List.getD_eq_getElem?_getD, ht]

theorem cos_mod (n a : ℕ) (hn : 0 < n) :
    Real.cos (2 * Real.pi * (a % n : ℕ) / n) = Real.cos (2 * Real.pi * (a : ℕ) / n) := by
  have h := pow_mod_of_root (zeta_primitive hn).pow_eq_one a
  rw [zeta_pow, zeta_pow] at h
  have := congrArg Complex.re h
  simpa [-Complex.ofReal_cos, -Complex.ofReal_sin] using this

theorem powerEnclosure_spec (p n k : ℕ) (hn : 0 < n) (r : List ℤ) (m : ℕ) :
    Encloses p (powerEnclosure ((List.range n).map (cosineEnclosure p n)) n k m r)
      (∑ i ∈ range r.length, (r.getD i 0 : ℝ) * Real.cos (2 * Real.pi * (k * (m + i) : ℕ) / n)) ∧
    (powerEnclosure ((List.range n).map (cosineEnclosure p n)) n k m r).2 -
      (powerEnclosure ((List.range n).map (cosineEnclosure p n)) n k m r).1 ≤
        (∑ i ∈ range r.length, |r.getD i 0|) * (6 * p + 100) := by
  induction r generalizing m with
  | nil => simp [powerEnclosure, Encloses]
  | cons c r ih =>
    obtain ⟨i1, i2⟩ := ih (m + 1)
    have hlt := Nat.mod_lt (k * m) hn
    have hc := cosineEnclosure_encloses p n (k * m % n) hlt
    rw [cos_mod n (k * m) hn] at hc
    have hs := scaleEnclosure_encloses hc c
    have hw := cosineEnclosure_width p n (k * m % n) hlt
    have hsw := scaleEnclosure_width c (cosineEnclosure p n (k * m % n))
    rw [powerEnclosure, cosines_getD p n _ hlt]
    simp only [List.length_cons]
    rw [sum_range_succ', sum_range_succ']
    have e1 : ∀ i, (c :: r).getD (i + 1) 0 = r.getD i 0 := fun i => rfl
    have e2 : (c :: r).getD 0 0 = c := rfl
    have e3 : ∀ i, k * (m + (i + 1)) = k * (m + 1 + i) := fun i => by ring
    simp only [e1, e2, e3, Nat.add_zero]
    refine ⟨⟨?_, ?_⟩, ?_⟩
    · have := hs.1
      have := i1.1
      push_cast
      push_cast at *
      linarith
    · have := hs.2
      have := i1.2
      push_cast
      push_cast at *
      linarith
    · have : |c| * ((cosineEnclosure p n (k * m % n)).2 - (cosineEnclosure p n (k * m % n)).1) ≤
          |c| * (6 * p + 100) := mul_le_mul_of_nonneg_left hw (abs_nonneg c)
      rw [add_mul]
      linarith

/-! ### The scan -/

/-- The scan gives the least bin of maximum power of the ones it has seen. -/
theorem peakScan_sound {r : List ℤ} {power : ℕ → ℤ × ℤ} {p N : ℕ} {P : ℕ → ℝ}
    (henc : ∀ j, j ≤ N → Encloses p (power j) (P j)) (hsame : ∀ i j, sameAsPower r i j = true ↔ P i = P j) :
    ∀ (bins : List ℕ) (best k : ℕ), peakScan r power best bins = some k → (best :: bins).Pairwise (· < ·) →
      (∀ j ∈ best :: bins, j ≤ N) →
      k ∈ best :: bins ∧ ∀ j ∈ best :: bins, P j ≤ P k ∧ (j < k → P j < P k) := by
  have hS : (0 : ℝ) < 2 ^ p := by positivity
  intro bins
  induction bins with
  | nil =>
    intro best k h _ _
    cases h
    refine ⟨List.mem_cons_self, fun j hj => ?_⟩
    rw [List.mem_singleton] at hj
    subst hj
    exact ⟨le_refl _, fun h => absurd h (lt_irrefl _)⟩
  | cons j0 rest ih =>
    intro best k h hp hN
    obtain ⟨hb, hp'⟩ := List.pairwise_cons.1 hp
    obtain ⟨hj, hp''⟩ := List.pairwise_cons.1 hp'
    have hbj : best < j0 := hb j0 List.mem_cons_self
    have hbr : (best :: rest).Pairwise (· < ·) :=
      List.pairwise_cons.2 ⟨fun x hx => hb x (List.mem_cons_of_mem _ hx), hp''⟩
    have eb := henc best (hN best List.mem_cons_self)
    have ej := henc j0 (hN j0 (List.mem_cons_of_mem _ List.mem_cons_self))
    -- the bin is passed over
    have keep : P j0 ≤ P best → peakScan r power best rest = some k →
        k ∈ best :: j0 :: rest ∧ ∀ j ∈ best :: j0 :: rest, P j ≤ P k ∧ (j < k → P j < P k) := by
      intro hle hk
      obtain ⟨h1, h2⟩ := ih best k hk hbr fun j hj => hN j (by
        rcases List.mem_cons.1 hj with h | h
        · rw [h]; exact List.mem_cons_self
        · exact List.mem_cons_of_mem _ (List.mem_cons_of_mem _ h))
      obtain ⟨h3, h4⟩ := h2 best List.mem_cons_self
      refine ⟨?_, fun j hj' => ?_⟩
      · rcases List.mem_cons.1 h1 with h | h
        · rw [h]; exact List.mem_cons_self
        · exact List.mem_cons_of_mem _ (List.mem_cons_of_mem _ h)
      · rcases List.mem_cons.1 hj' with h | h
        · rw [h]; exact ⟨h3, h4⟩
        · rcases List.mem_cons.1 h with h | h
          · rw [h]
            refine ⟨hle.trans h3, fun hlt => lt_of_le_of_lt hle (h4 (by omega))⟩
          · exact h2 j (List.mem_cons_of_mem _ h)
    rw [peakScan] at h
    split at h
    · rename_i hc
      refine keep ?_ h
      have hc' : ((power j0).2 : ℝ) ≤ (power best).1 := by exact_mod_cast hc
      exact le_of_mul_le_mul_left (ej.2.trans (hc'.trans eb.1)) hS
    · split at h
      · rename_i hc
        have hc' : ((power best).2 : ℝ) < (power j0).1 := by exact_mod_cast hc
        have hlt : P best < P j0 := lt_of_mul_lt_mul_left (eb.2.trans_lt (hc'.trans_le ej.1)) hS.le
        obtain ⟨h1, h2⟩ := ih j0 k h hp' fun j hj => hN j (List.mem_cons_of_mem _ hj)
        have hlt' : P best < P k := hlt.trans_le (h2 j0 List.mem_cons_self).1
        refine ⟨List.mem_cons_of_mem _ h1, fun j hj' => ?_⟩
        rcases List.mem_cons.1 hj' with h | h
        · rw [h]; exact ⟨hlt'.le, fun _ => hlt'⟩
        · exact h2 j h
      · split at h
        · rename_i hc
          exact keep ((hsame _ _).1 hc).le h
        · cases h

/-- The scan ends when the enclosures are narrow against the distance of unequal powers. -/
theorem peakScan_isSome {r : List ℤ} {power : ℕ → ℤ × ℤ} {p N : ℕ} {P : ℕ → ℝ} {g W : ℝ}
    (henc : ∀ j, j ≤ N → Encloses p (power j) (P j)) (hsame : ∀ i j, sameAsPower r i j = true ↔ P i = P j)
    (hw : ∀ j, j ≤ N → (((power j).2 - (power j).1 : ℤ) : ℝ) ≤ W) (hgap : ∀ i j, P i ≠ P j → g ≤ |P i - P j|)
    (hnarrow : 2 * W < g * 2 ^ p) :
    ∀ (bins : List ℕ) (best : ℕ), (∀ j ∈ best :: bins, j ≤ N) → ∃ k, peakScan r power best bins = some k := by
  have hS : (0 : ℝ) < 2 ^ p := by positivity
  intro bins
  induction bins with
  | nil => exact fun best _ => ⟨best, rfl⟩
  | cons j0 rest ih =>
    intro best hN
    have hb := hN best List.mem_cons_self
    have hj := hN j0 (List.mem_cons_of_mem _ List.mem_cons_self)
    have hrest : ∀ j ∈ best :: rest, j ≤ N := fun j hj => hN j (by
      rcases List.mem_cons.1 hj with h | h
      · rw [h]; exact List.mem_cons_self
      · exact List.mem_cons_of_mem _ (List.mem_cons_of_mem _ h))
    rw [peakScan]
    split
    · exact ih best hrest
    · split
      · exact ih j0 fun j hj => hN j (List.mem_cons_of_mem _ hj)
      · rename_i h1 h2
        have hs : sameAsPower r j0 best = true := by
          rw [hsame]
          by_contra hne
          have hg := hgap _ _ hne
          have eb := henc best hb
          have ej := henc j0 hj
          have wb := hw best hb
          have wj := hw j0 hj
          have h1' : ((power best).1 : ℝ) ≤ (power j0).2 := by exact_mod_cast (by omega : (power best).1 ≤ (power j0).2)
          have h2' : ((power j0).1 : ℝ) ≤ (power best).2 := by exact_mod_cast (by omega : (power j0).1 ≤ (power best).2)
          push_cast at wb wj
          have hd : |2 ^ p * P j0 - 2 ^ p * P best| ≤ 2 * W := by
            rw [abs_le]
            constructor <;> linarith [eb.1, eb.2, ej.1, ej.2]
          have he : |2 ^ p * P j0 - 2 ^ p * P best| = |P j0 - P best| * 2 ^ p := by
            rw [← mul_sub, abs_mul, abs_of_pos hS, mul_comm]
          rw [he] at hd
          have := mul_le_mul_of_nonneg_right hg hS.le
          linarith
        rw [if_pos hs]
        exact ih best hrest

/-! ### The search -/

/-- The bins a peak is searched in. -/
theorem bins_rising (N : ℕ) : (0 :: (List.range N).map (· + 1)).Pairwise (· < ·) ∧
    ∀ j, j ∈ 0 :: (List.range N).map (· + 1) ↔ j ≤ N := by
  have e : 0 :: (List.range N).map (· + 1) = List.range (N + 1) := by
    rw [List.range_succ_eq_map]
  rw [e]
  refine ⟨List.pairwise_lt_range, fun j => ?_⟩
  rw [List.mem_range]
  omega

theorem peakSearch_eq_some {fuel p k : ℕ} {r : List ℤ} (h : peakSearch fuel p r = some k) :
    ∃ q, peakScan r (fun k => powerEnclosure ((List.range r.length).map (cosineEnclosure q r.length)) r.length k 0 r) 0
      ((List.range (r.length / 2)).map (· + 1)) = some k := by
  induction fuel generalizing p with
  | zero => cases h
  | succ fuel ih =>
    rw [peakSearch] at h
    split at h
    · rename_i k' hk
      cases h
      exact ⟨p, hk⟩
    · exact ih h

theorem peakSearch_isSome_of {fuel p k : ℕ} {r : List ℤ} (hk : k < fuel)
    (h : ∃ j, peakScan r (fun i => powerEnclosure ((List.range r.length).map (cosineEnclosure (p * 2 ^ k) r.length))
      r.length i 0 r) 0 ((List.range (r.length / 2)).map (· + 1)) = some j) :
    ∃ j, peakSearch fuel p r = some j := by
  induction fuel generalizing p k with
  | zero => omega
  | succ fuel ih =>
    rw [peakSearch]
    cases hr : peakScan r (fun k => powerEnclosure ((List.range r.length).map (cosineEnclosure p r.length)) r.length k 0 r)
        0 ((List.range (r.length / 2)).map (· + 1)) with
    | some j => exact ⟨j, rfl⟩
    | none =>
      simp only
      cases k with
      | zero =>
        rw [pow_zero, mul_one, hr] at h
        obtain ⟨j, hj⟩ := h
        cases hj
      | succ k =>
        refine ih (p := 2 * p) (k := k) (by omega) ?_
        rwa [show 2 * p * 2 ^ k = p * 2 ^ (k + 1) by rw [pow_succ]; ring]

theorem powerEnclosure_encloses (p : ℕ) (r : List ℤ) (hr : 0 < r.length) (k : ℕ) :
    Encloses p (powerEnclosure ((List.range r.length).map (cosineEnclosure p r.length)) r.length k 0 r)
      (cosineSum r k) := by
  have := (powerEnclosure_spec p r.length k hr r 0).1
  simpa [cosineSum] using this

theorem sameAsPower_autocorrelation (x : List ℤ) (hx : 0 < x.length) (i j : ℕ) :
    sameAsPower (autocorrelation x) i j = true ↔
      cosineSum (autocorrelation x) i = cosineSum (autocorrelation x) j := by
  have hl := autocorrelation_length x
  rw [sameAsPower_iff _ (by omega), hl, ← (cosineSum_autocorrelation x hx i).1, ← (cosineSum_autocorrelation x hx j).1]
  exact Complex.ofReal_inj

/-- What the search settles on is the least bin of maximum power (R123). -/
theorem peakSearch_sound {x : List ℤ} (hx : 0 < x.length) {fuel p k : ℕ}
    (h : peakSearch fuel p (autocorrelation x) = some k) :
    k ≤ x.length / 2 ∧ ∀ j, j ≤ x.length / 2 →
      cosineSum (autocorrelation x) j ≤ cosineSum (autocorrelation x) k ∧
        (j < k → cosineSum (autocorrelation x) j < cosineSum (autocorrelation x) k) := by
  obtain ⟨q, hq⟩ := peakSearch_eq_some h
  have hl := autocorrelation_length x
  have hb := bins_rising ((autocorrelation x).length / 2)
  obtain ⟨h1, h2⟩ := peakScan_sound (N := (autocorrelation x).length / 2) (P := cosineSum (autocorrelation x))
    (fun j _ => powerEnclosure_encloses q (autocorrelation x) (by omega) j) (sameAsPower_autocorrelation x hx) _ _ _ hq
    hb.1 (fun j hj => (hb.2 j).1 hj)
  rw [hl] at hb h1 h2
  exact ⟨(hb.2 k).1 h1, fun j hj => h2 j ((hb.2 j).2 hj)⟩

/-! ### The search ends -/

theorem powerCoefficients_sum_abs (r : List ℤ) (k : ℕ) :
    ∑ t ∈ range r.length, |((powerCoefficients r k).getD t 0 : ℝ)| ≤ ∑ m ∈ range r.length, |(r.getD m 0 : ℝ)| := by
  have h1 : ∀ t ∈ range r.length, |((powerCoefficients r k).getD t 0 : ℝ)| ≤
      ∑ m ∈ range r.length, if k * m % r.length = t then |(r.getD m 0 : ℝ)| else 0 := by
    intro t ht
    rw [powerCoefficients_getD r k t (mem_range.1 ht)]
    push_cast
    refine (abs_sum_le_sum_abs _ _).trans (sum_le_sum fun m _ => ?_)
    split <;> simp
  refine (sum_le_sum h1).trans ?_
  rw [sum_comm]
  refine sum_le_sum fun m _ => ?_
  rw [sum_ite_eq (range r.length) (k * m % r.length) fun _ => |(r.getD m 0 : ℝ)|]
  split
  · exact le_refl _
  · exact abs_nonneg _

theorem autocorrelation_sum_abs (x : List ℤ) (hx : ∀ v ∈ x, |v| ≤ 2 ^ 15) (hl : x.length < 2 ^ 29) :
    ∑ m ∈ range x.length, |(autocorrelation x).getD m 0| ≤ 2 ^ 88 := by
  have hv : ∀ t, |x.getD t 0| ≤ 2 ^ 15 := by
    intro t
    rw [List.getD_eq_getElem?_getD]
    cases h : x[t]? with
    | none => simp
    | some v => exact hx v (List.mem_of_getElem? h)
  have h1 : ∀ m ∈ range x.length, |(autocorrelation x).getD m 0| ≤ x.length * 2 ^ 30 := by
    intro m hm
    rw [autocorrelation_getD x m (mem_range.1 hm)]
    refine (abs_sum_le_sum_abs _ _).trans ?_
    have : ∀ a ∈ range x.length, |x.getD a 0 * x.getD ((a + m) % x.length) 0| ≤ 2 ^ 30 := by
      intro a _
      rw [abs_mul]
      calc |x.getD a 0| * |x.getD ((a + m) % x.length) 0| ≤ 2 ^ 15 * 2 ^ 15 :=
            mul_le_mul (hv _) (hv _) (abs_nonneg _) (by norm_num)
        _ = 2 ^ 30 := by norm_num
    refine (sum_le_sum this).trans ?_
    rw [sum_const, card_range, nsmul_eq_mul]
  refine (sum_le_sum h1).trans ?_
  rw [sum_const, card_range, nsmul_eq_mul]
  have hn : (x.length : ℤ) ≤ 2 ^ 29 := by exact_mod_cast hl.le
  have h0 : (0 : ℤ) ≤ x.length := by positivity
  calc (x.length : ℤ) * (x.length * 2 ^ 30) ≤ 2 ^ 29 * (2 ^ 29 * 2 ^ 30) :=
        mul_le_mul hn (mul_le_mul_of_nonneg_right hn (by norm_num)) (by positivity) (by norm_num)
    _ = 2 ^ 88 := by norm_num

/-- Unequal powers are apart. -/
theorem power_gap (x : List ℤ) (hx0 : 0 < x.length) (hx : ∀ v ∈ x, |v| ≤ 2 ^ 15) (hl : x.length < 2 ^ 29) (i j : ℕ)
    (hne : cosineSum (autocorrelation x) i ≠ cosineSum (autocorrelation x) j) :
    1 / ((2 : ℝ) ^ 89) ^ x.length ≤ |cosineSum (autocorrelation x) i - cosineSum (autocorrelation x) j| := by
  set r := autocorrelation x with hr
  have hrl : r.length = x.length := autocorrelation_length x
  set v := List.zipWith (fun a b => a - b) (powerCoefficients r i) (powerCoefficients r j) with hv
  have hlen : (powerCoefficients r i).length = (powerCoefficients r j).length :=
    (powerCoefficients_length r i).trans (powerCoefficients_length r j).symm
  have hvl : v.length = x.length := by
    rw [hv, List.length_zipWith, powerCoefficients_length, powerCoefficients_length, min_self, hrl]
  have hev : listEval v (zeta x.length) = ((cosineSum r i - cosineSum r j : ℝ) : ℂ) := by
    rw [hv, listEval_sub _ _ hlen, ← hrl, powerCoefficients_eval r (by omega), powerCoefficients_eval r (by omega), hrl,
      Complex.ofReal_sub, (cosineSum_autocorrelation x hx0 i).1, (cosineSum_autocorrelation x hx0 j).1]
  have hsum : ∑ t ∈ range v.length, |(v.getD t 0 : ℝ)| ≤ 2 ^ 89 := by
    have h1 : ∀ t ∈ range v.length, |(v.getD t 0 : ℝ)| ≤
        |((powerCoefficients r i).getD t 0 : ℝ)| + |((powerCoefficients r j).getD t 0 : ℝ)| := by
      intro t _
      rw [hv, zipWith_sub_getD _ _ hlen]
      push_cast
      exact abs_sub _ _
    refine (sum_le_sum h1).trans ?_
    rw [sum_add_distrib, hvl, ← hrl]
    have ha := powerCoefficients_sum_abs r i
    have hb := powerCoefficients_sum_abs r j
    have hc : ∑ m ∈ range r.length, |(r.getD m 0 : ℝ)| ≤ 2 ^ 88 := by
      have := autocorrelation_sum_abs x hx hl
      rw [← hr, ← hrl] at this
      exact_mod_cast this
    calc _ ≤ (2 : ℝ) ^ 88 + 2 ^ 88 := add_le_add (ha.trans hc) (hb.trans hc)
      _ = 2 ^ 89 := by norm_num
  have key := listEval_gap v (by omega) (2 ^ 89) (by norm_num) hsum (by
    rw [hvl, hev]
    exact_mod_cast sub_ne_zero.2 hne)
  rw [hvl, hev, Complex.norm_real, Real.norm_eq_abs] at key
  rw [div_le_iff₀ (by positivity)]
  exact key

/-- The enclosures of precision `2 ^ 46` are narrow enough for every slice. -/
theorem width_lt_powerGap {n p : ℕ} (hn : n < 2 ^ 29) (hp : p = 2 ^ 46) :
    2 * ((2 : ℝ) ^ 88 * (6 * p + 100)) < 1 / ((2 : ℝ) ^ 89) ^ n * 2 ^ p := by
  rw [div_mul_eq_mul_div, one_mul, lt_div_iff₀ (by positivity)]
  have h1 : 2 * (2 ^ 88 * (6 * p + 100)) * (2 ^ 89) ^ n < 2 ^ p :=
    calc 2 * (2 ^ 88 * (6 * p + 100)) * (2 ^ 89) ^ n ≤ 2 ^ 89 * 2 ^ 50 * 2 ^ (89 * n) := by
          rw [← pow_mul]
          refine Nat.mul_le_mul_right _ ?_
          have : 6 * p + 100 ≤ 2 ^ 50 := by omega
          calc 2 * (2 ^ 88 * (6 * p + 100)) = 2 ^ 89 * (6 * p + 100) := by ring
            _ ≤ 2 ^ 89 * 2 ^ 50 := Nat.mul_le_mul_left _ this
      _ = 2 ^ (89 + 50 + 89 * n) := by rw [pow_add, pow_add]
      _ < 2 ^ p := Nat.pow_lt_pow_right (by decide) (by omega)
  exact_mod_cast h1

/-- The peak search settles on a bin for every slice of 16-bit samples that RXBUF can hold. -/
theorem peakSearch_isSome {x : List ℤ} (hx0 : 0 < x.length) (hx : ∀ v ∈ x, |v| ≤ 2 ^ 15) (hl : x.length < 2 ^ 29) :
    ∃ k, peakSearch precisionSteps firstPrecision (autocorrelation x) = some k := by
  refine peakSearch_isSome_of (k := 40) (by decide) ?_
  have hp : firstPrecision * 2 ^ 40 = 2 ^ 46 := by decide
  generalize firstPrecision * 2 ^ 40 = p at *
  have hrl := autocorrelation_length x
  have hb := bins_rising ((autocorrelation x).length / 2)
  refine peakScan_isSome (N := (autocorrelation x).length / 2) (P := cosineSum (autocorrelation x))
    (W := 2 ^ 88 * (6 * p + 100)) (g := 1 / ((2 : ℝ) ^ 89) ^ x.length)
    (fun j _ => powerEnclosure_encloses p (autocorrelation x) (by omega) j) (sameAsPower_autocorrelation x hx0)
    (fun j _ => ?_) (power_gap x hx0 hx hl) (width_lt_powerGap hl hp) _ _ (fun j hj => (hb.2 j).1 hj)
  have hw := (powerEnclosure_spec p (autocorrelation x).length j (by omega) (autocorrelation x) 0).2
  have hs := autocorrelation_sum_abs x hx hl
  rw [← hrl] at hs
  have : (powerEnclosure ((List.range (autocorrelation x).length).map (cosineEnclosure p (autocorrelation x).length))
      (autocorrelation x).length j 0 (autocorrelation x)).2 -
      (powerEnclosure ((List.range (autocorrelation x).length).map (cosineEnclosure p (autocorrelation x).length))
        (autocorrelation x).length j 0 (autocorrelation x)).1 ≤ 2 ^ 88 * (6 * (p : ℤ) + 100) :=
    hw.trans (mul_le_mul_of_nonneg_right hs (by positivity))
  exact_mod_cast this

end Sys2Proof.Machine
end

