-- ==== Sys2Proof/Laws/PerInstr.lean ====
section
/-! SUPPORT. What holds of every instruction as syntax, one lemma per constructor. -/

namespace Sys2Proof.Laws.Encoding

/-- The instruction is admitted, and its code is that of a row of its format's length: 32 bits for a command, 8 bits for
a symbol (spec/30_encoding.md R70), below `2 ^ length`, which the decoder reads back as the instruction. -/
def Statement (i : Instr) : Prop :=
  i.wf = true ∧ ∃ w : Nat, w < 2 ^ (if i.isCommand then 32 else 8) ∧
    encode i = tableCode (if i.isCommand then 32 else 8) w ∧
    decodeTableWord (if i.isCommand then 32 else 8) w = some i

theorem gen : Statement .gen := ⟨rfl, 0x00000001, by decide⟩
theorem scr : Statement .scr := ⟨rfl, 0x00000002, by decide⟩
theorem enc : Statement .enc := ⟨rfl, 0x00000003, by decide⟩
theorem det : Statement .det := ⟨rfl, 0x00000004, by decide⟩
theorem dec : Statement .dec := ⟨rfl, 0x00000005, by decide⟩
theorem symZero : Statement .symZero := ⟨rfl, 0x30, by decide⟩
theorem symOne : Statement .symOne := ⟨rfl, 0x31, by decide⟩
theorem symSilence : Statement .symSilence := ⟨rfl, 0x20, by decide⟩

end Sys2Proof.Laws.Encoding
end

