-- ==== Sys2Proof/Laws/Step.lean ====
section
/-! SUPPORT. What one step does, by what the block has before it; and several steps. -/

namespace Sys2Proof.Machine

/-- An ENC in progress takes its next character. -/
theorem step_enc {s : State} (h : s.encOut ≠ none) : step s = encStep s := by
  have : s.encOut.isSome = true := Option.isSome_iff_ne_none.2 h
  unfold step advance
  rw [if_pos this]

/-- Otherwise the next input is taken. -/
theorem step_input {s : State} {inp : Input} {rest : List Input} (h : s.encOut = none)
    (hp : s.pending = inp :: rest) : step s = takeInput inp { s with pending := rest } := by
  unfold step advance
  rw [h, hp]
  rfl

/-- Otherwise the block waits. -/
theorem step_idle {s : State} (h : s.encOut = none) (hp : s.pending = []) : step s = .next s := by
  unfold step advance
  rw [h, hp]
  rfl

/-- A command word that decodes runs its instruction when no fault is recorded (spec/44_system.md R157). -/
theorem commandIssue_ok {w : Word} {i : Instr} {s : State} (hf : s.faultFlag = false)
    (hd : decodeCommand w = .ok i) : commandIssue w s = exec i s := by
  unfold commandIssue
  rw [hf, hd]
  rfl

theorem commandIssue_dropped {w : Word} {s : State} (hf : s.faultFlag = true) : commandIssue w s = .next s := by
  unfold commandIssue
  rw [hf]
  rfl

/-- A word that decodes is one of the five commands. -/
theorem decodeCommand_isCommand {w : Word} {i : Instr} (h : decodeCommand w = .ok i) : i.isCommand = true := by
  simp only [decodeCommand, commandRows, lookupRow] at h
  split at h
  · rename_i h'
    cases h
    repeat' split at h'
    all_goals cases h' <;> rfl
  · cases h

/-- A character that decodes is one of the three symbols. -/
theorem decodeSymbol_cases {c : Byte} {i : Instr} (h : decodeSymbol c = .ok i) :
    (c = 0x30 ∧ i = .symZero) ∨ (c = 0x31 ∧ i = .symOne) ∨ (c = 0x20 ∧ i = .symSilence) := by
  simp only [decodeSymbol, symbolRows, lookupRow] at h
  split at h
  · rename_i h'
    cases h
    repeat' split at h'
    all_goals simp_all
  · cases h

/-- A command leaves the input queue alone and, begun with no ENC in progress, ends with none (R157, R194). -/
theorem exec_command_ends {i : Instr} {s t : State} (hi : i.isCommand = true) (he : s.encOut = none)
    (h : exec i s = .next t) : t.pending = s.pending ∧ t.encOut = none := by
  cases i
  · change execGen s = _ at h
    rcases execGen_cases s with ⟨_, _, e, -⟩ | ⟨-, -, -, e⟩ <;> rw [e] at h <;> cases h
    · exact ⟨faultEntry_pending .., rfl⟩
    · exact ⟨rfl, he⟩
  · change execScr s = _ at h
    rcases execScr_cases s with ⟨_, _, e, -⟩ | ⟨m, -, -, -, e⟩ | ⟨j, e, -⟩ <;> rw [e] at h <;> cases h
    · exact ⟨faultEntry_pending .., rfl⟩
    · exact ⟨rfl, he⟩
  · obtain ⟨h1, h2, -⟩ := execEnc_frame h
    exact ⟨(congrArg State.pending h1 :), h2⟩
  · change execDet s = _ at h
    rcases execDet_cases s with ⟨_, _, e, -⟩ | ⟨r, -, -, -, e⟩ | ⟨j, e, -⟩ <;> rw [e] at h <;> cases h
    · exact ⟨faultEntry_pending .., rfl⟩
    · exact ⟨rfl, he⟩
  · change execDec s = _ at h
    rcases execDec_cases s with ⟨_, _, u, e, -, -, h1, -⟩ | ⟨u, e, h1, -⟩ | ⟨j, e, -⟩ <;> rw [e] at h <;> cases h
    · exact ⟨(faultEntry_pending ..).trans (congrArg State.pending h1 :), rfl⟩
    · exact ⟨(congrArg State.pending h1 :), (congrArg State.encOut h1 :).trans he⟩
  all_goals cases hi

/-- A host operation completes in the step that takes it: the queue is one shorter, and no ENC is in progress (R193). -/
theorem hostOp_completes {op : HostOp} {s t : State} (he : s.encOut = none) (h : hostOp op s = .next t) :
    t.pending = s.pending ∧ t.encOut = none := by
  cases op with
  | regRead i =>
    cases h
    exact ⟨rfl, he⟩
  | regWrite i v =>
    simp only [hostOp] at h
    split at h
    · unfold commandIssue at h
      split at h
      · cases h
        exact ⟨rfl, he⟩
      · split at h
        · rename_i i hd
          exact exec_command_ends (decodeCommand_isCommand hd) he h
        · cases h
          exact ⟨rfl, rfl⟩
    · cases h
      refine ⟨(regWrite_kept i v s).2.2.1, ?_⟩
      unfold regWrite writeCtrl
      split <;> (try split) <;> first | rfl | exact he
  | bufRead b j =>
    change bufRead b j s = _ at h
    rcases bufRead_cases b j s with ⟨-, e⟩ | ⟨-, -, e⟩ | ⟨v, -, -, ⟨-, e⟩ | ⟨-, e⟩⟩ <;> rw [e] at h <;> cases h <;>
      exact ⟨rfl, he⟩
  | bufWrite b j v =>
    cases h
    have e := bufWrite_kept b j v s
    exact ⟨(congrArg State.pending e :), (congrArg State.encOut e :).trans he⟩

/-! ### Several steps -/

theorem run_zero (s : State) : core.run 0 s = .next s := rfl

theorem run_next {k : Nat} {s t : State} (h : step s = .next t) : core.run (k + 1) s = core.run k t := by
  have h' : core.step s = .next t := h
  simp only [Host.Core.run, h']

theorem run_fault {k : Nat} {s : State} {f : Fault} (h : step s = .fault f) : core.run (k + 1) s = .fault f := by
  have h' : core.step s = .fault f := h
  simp only [Host.Core.run, h']

theorem run_refused {k : Nat} {s : State} {r : Refusal} (h : step s = .refused r) :
    core.run (k + 1) s = .refused r := by
  have h' : core.step s = .refused r := h
  simp only [Host.Core.run, h']

theorem run_idle {k : Nat} {s : State} (h : s.encOut = none) (hp : s.pending = []) : core.run k s = .next s := by
  induction k with
  | zero => rfl
  | succ k ih => rw [run_next (step_idle h hp), ih]

/-- A run of host operations has ended after as many steps as it has operations, and not before (R193). -/
theorem run_operations {ops : List HostOp} {s : State} (he : s.encOut = none) (hp : s.pending = ops.map Input.host) :
    (∀ t, core.run ops.length s = .next t → t.Ended) ∧
      ∀ k u, k < ops.length → core.run k s = .next u → ¬u.Ended := by
  induction ops generalizing s with
  | nil => exact ⟨fun t h => by cases h; exact ⟨hp, he⟩, fun k u hk => absurd hk (Nat.not_lt_zero k)⟩
  | cons op ops ih =>
    have hs : step s = hostOp op { s with pending := ops.map Input.host } := step_input he hp
    have hnot : ¬s.Ended := fun h => by
      have := h.1
      rw [hp] at this
      cases this
    cases hst : step s with
    | next v =>
      have hv : v.pending = ops.map Input.host ∧ v.encOut = none := hostOp_completes (s := { s with pending := ops.map Input.host }) he (hs.symm.trans hst)
      obtain ⟨h1, h2⟩ := ih hv.2 hv.1
      refine ⟨fun t h => h1 t (by rwa [List.length_cons, run_next hst] at h), fun k u hk h => ?_⟩
      cases k with
      | zero =>
        cases h
        exact hnot
      | succ k => exact h2 k u (by simpa using hk) (by rwa [run_next hst] at h)
    | fault f =>
      refine ⟨fun t h => ?_, fun k u hk h => ?_⟩
      · rw [List.length_cons, run_fault hst] at h
        cases h
      · cases k with
        | zero =>
          cases h
          exact hnot
        | succ k =>
          rw [run_fault hst] at h
          cases h
    | refused r =>
      refine ⟨fun t h => ?_, fun k u hk h => ?_⟩
      · rw [List.length_cons, run_refused hst] at h
        cases h
      · cases k with
        | zero =>
          cases h
          exact hnot
        | succ k =>
          rw [run_refused hst] at h
          cases h

/-- Several steps, cut in two. -/
theorem run_add_iff (j k : Nat) (s t : State) :
    core.run (j + k) s = .next t ↔ ∃ u, core.run j s = .next u ∧ core.run k u = .next t := by
  induction j generalizing s with
  | zero =>
    rw [Nat.zero_add]
    refine ⟨fun h => ⟨s, rfl, h⟩, ?_⟩
    rintro ⟨u, hu, h⟩
    cases hu
    exact h
  | succ j ih =>
    rw [Nat.succ_add]
    cases hst : step s with
    | next v => rw [run_next hst, run_next hst, ih]
    | fault f =>
      rw [run_fault hst, run_fault hst]
      simp
    | refused r =>
      rw [run_refused hst, run_refused hst]
      simp

end Sys2Proof.Machine
end

