-- ==== Sys2Proof/Tests/Slice0.lean ====
section
/-! SUPPORT. Tests. Expected results are those of spec/95_test_vectors.md (V and S numbers) and of the encoding tables
of spec/30_encoding.md; the witnesses at the end meet the hypotheses of the statements. -/

namespace Sys2Proof.Tests

set_option Elab.async false

open Sys2Proof.Machine Sys2Proof.Claims

/-! ### Small states -/

/-- The outcome is a next state with this property. -/
def goes (o : Host.Outcome State Fault Refusal) (p : State → Bool) : Bool :=
  match o with
  | .next t => p t
  | .fault _ => false
  | .refused _ => false

theorem next_of {o : Host.Outcome State Fault Refusal} {p : State → Bool} (h : goes o p = true) :
    ∃ t, o = .next t ∧ p t = true := by
  cases o with
  | next t => exact ⟨t, rfl, h⟩
  | fault r => cases h
  | refused r => cases h

/-- Small buffers. -/
def small : Config where
  msgDepth := ⟨4, by decide⟩
  symDepth := ⟨17, by decide⟩
  txDepth := ⟨64, by decide⟩
  rxDepth := ⟨64, by decide⟩
  outDepth := ⟨2, by decide⟩
  num := .reference

def base : State := { State.reset with cfg := small }

def toneState (sr f d : Word) : State := { base with srate := sr, freq := f, dur := d }

def messageState (m : List Byte) : State :=
  { base with mem := { base.mem with msg := Buf.run 0 m }, msglen := BitVec.ofNat 32 m.length }

def textState (sr : Word) (text : List Byte) : State :=
  { base with srate := sr, mem := { base.mem with sym := Buf.run 0 text }, symlen := BitVec.ofNat 32 text.length }

def samplesState (sr : Word) (x : List Int) : State :=
  { base with
    srate := sr, mem := { base.mem with rx := Buf.run 0 (x.map (BitVec.ofInt 16)) }, rxlen := BitVec.ofNat 32 x.length }

def withInput (s : State) (op : HostOp) : State := { s with pending := [.host op] }

/-- `n` samples of alternating sign. -/
def alternating (n : Nat) (a : Int) : List Int := (List.range n).map fun i => if i % 2 = 0 then a else -a

def tx (t : State) (n : Nat) : List Int := (List.range n).map fun i => ((t.mem.tx.read i).getD 0).toInt

def sym (t : State) (n : Nat) : List Nat := (List.range n).map fun i => ((t.mem.sym.read i).getD 0).toNat

/-! ### Decoding: the words of R72 and R75, written out -/

theorem test_decode_gen : decode (.cmd32 0b00000000000000000000000000000001) = .ok .gen := by decide
theorem test_decode_scr : decode (.cmd32 0b00000000000000000000000000000010) = .ok .scr := by decide
theorem test_decode_enc : decode (.cmd32 0b00000000000000000000000000000011) = .ok .enc := by decide
theorem test_decode_det : decode (.cmd32 0b00000000000000000000000000000100) = .ok .det := by decide
theorem test_decode_dec : decode (.cmd32 0b00000000000000000000000000000101) = .ok .dec := by decide
theorem test_decode_symZero : decode (.sym8 0b00110000) = .ok .symZero := by decide
theorem test_decode_symOne : decode (.sym8 0b00110001) = .ok .symOne := by decide
theorem test_decode_symSilence : decode (.sym8 0b00100000) = .ok .symSilence := by decide

/-- The illegal words of V48. -/
theorem test_decode_illegal_words :
    (([0, 6, 0xFF, 0x101, 0x80000001, 0xFFFFFFFF] : List Word).all fun w =>
      decode (.cmd32 w) = .error (.illegalCommand w)) = true := by
  decide

/-- The illegal characters of V20. -/
theorem test_decode_illegal_characters :
    ∀ c ∈ ([0x32, 0x09, 0x00, 0x33] : List Byte), decode (.sym8 c) = .error (.illegalSymbol c) := by
  decide

/-! ### WellFormed: each check refuses an ill-formed term -/

theorem test_wf_word : (Line.wr 5 4294967296).wf = false ∧ (Line.wr 5 4294967295).wf = true := by decide
theorem test_wf_store_target : (Line.st .tx 0 [1]).wf = false ∧ (Line.st .out 0 [1]).wf = false := by decide
theorem test_wf_store_value : (Line.st .msg 0 [255, 256]).wf = false ∧ (Line.st .rx 0 [65535]).wf = true := by decide
theorem test_wf_command : (Line.cmd .symOne).wf = false ∧ (Line.cmd .dec).wf = true := by decide
theorem test_wf_message : (Line.message [72, 256]).wf = false ∧ (Line.message [72, 105]).wf = true := by decide
theorem test_wf_symbols : (Line.symbols [300]).wf = false ∧ (Line.symbols []).wf = true := by decide
theorem test_wf_encode : (Line.encode [0x20AC]).wf = false ∧ (Line.encode [65]).wf = true := by decide
theorem test_wf_tone : (Line.tone 4294967296 1).wf = false ∧ (Line.tone 1 4294967296).wf = false := by decide
theorem test_wf_window : (Line.win 4294967296 0).wf = false ∧ (Line.win 0 4294967296).wf = false := by decide

/-! ### Vectors -/

/-- V2. -/
theorem test_gen_octave : goes (exec .gen (toneState 8 1 1000)) (fun t =>
    t.txlen = 8 ∧ tx t 8 = [0, 23170, 32767, 23170, 0, -23170, -32767, -23170]) = true := by decide +kernel

/-- V3, with its ties. -/
theorem test_gen_ties : goes (exec .gen (toneState 12 1 1000)) (fun t =>
    tx t 12 = [0, 16384, 28377, 32767, 28377, 16384, 0, -16384, -28377, -32767, -28377, -16384]) = true := by
  decide +kernel

/-- V5 and V6, at some indices. -/
theorem test_sample_symbols :
    ([1, 9, 306, 307, 1225, 11024].map fun n => numSample .reference 36 n 44100) =
      [168, 1512, 32767, 32767, 0, -168] ∧
    ([1, 9, 56, 57, 225, 11022].map fun n => numSample .reference 196 n 44100) =
      [915, 8149, 32766, 32760, 0, -2742] := by decide +kernel

/-- V12. -/
theorem test_scr_two_bytes : goes (exec .scr (messageState [0x41, 0x42])) (fun t =>
    t.symlen = 17 ∧ sym t 17 =
      [0x30, 0x31, 0x30, 0x30, 0x30, 0x30, 0x30, 0x31, 0x20, 0x30, 0x31, 0x30, 0x30, 0x30, 0x30, 0x31, 0x30]) = true := by
  decide +kernel

/-- V15 (a), with MSG_DEPTH = 4. -/
theorem test_scr_too_long : goes (exec .scr { base with msglen := 5, symlen := 3 }) (fun t =>
    t.faultCode = 4 ∧ t.faultInfo = 3 ∧ t.symlen = 0) = true := by decide +kernel

/-- What SCR left in SYMBUF is no value for the host at and above SYMLEN: with SYMLEN lowered, and after a soft reset
(R42, R158). -/
theorem test_scr_remains :
    goes (exec .scr (messageState [0x41])) (fun t =>
      readable .sym 7 t ∧ !readable .sym 7 (regWrite 11 4 t) ∧ readable .sym 3 (regWrite 11 4 t) ∧
      !readable .sym 0 (softReset t) ∧ readable .sym 7 (regWrite 11 8 (softReset t))) = true := by decide +kernel

/-- V16 in small: at 8 Hz the symbols '0' and '1' are 2 samples each, ' ' is 4. -/
theorem test_enc_lengths : goes (exec .enc (textState 8 [0x30, 0x20, 0x31])) (fun t =>
    t.txlen = 8 ∧ t.sympos = 3 ∧ tx t 6 = [0, numSample .reference 36 1 8, 0, 0, 0, 0]) = true := by decide +kernel

/-- V20. -/
theorem test_enc_illegal : goes (exec .enc (textState 8 [0x30, 0x31, 0x32])) (fun t =>
    t.faultCode = 1 ∧ t.faultInfo = 2 ∧ t.sympos = 2 ∧ t.txlen = 0 ∧ statusWord t = 1) = true := by decide +kernel

/-- The segments of R102 to R104 appended after 3 samples, at 1000 Hz with room for them. -/
theorem test_symbols_append :
    (∀ i ∈ [Instr.symZero, .symOne], goes
      (exec i { base with cfg := { small with txDepth := ⟨253, by decide⟩ }, srate := 1000, encOut := some 3 })
      (fun t => t.encOut = some 253) = true) ∧
    goes (exec .symSilence { base with cfg := { small with txDepth := ⟨503, by decide⟩ }, srate := 1000, encOut := some 3 })
      (fun t => t.encOut = some 503 ∧ t.mem.tx.read 502 = some 0) = true := by decide +kernel

/-- V28. -/
theorem test_det_tone : goes
    (exec .det { samplesState 1000 [0, 1000, 0, -1000, 0, 1000, 0, -1000] with wend := 7 })
    (fun t => t.dbin = 2 ∧ t.dlen = 8 ∧ t.dclass = 2) = true := by decide +kernel

/-- V34: exactly 100 Hz. -/
theorem test_det_gap : goes
    (exec .det { samplesState 1000 [0, 19260, 31163, 31163, 19260, 0, -19260, -31163, -31163, -19260] with wend := 9 })
    (fun t => t.dbin = 1 ∧ t.dlen = 10 ∧ t.dclass = 3) = true := by decide +kernel

/-- V36. -/
theorem test_dec_control_flow : goes (exec .dec (samplesState 8 [1, -1, 1, -1, 0, 0, 0, 1, -1])) (fun t =>
    t.outlen = 2 ∧ t.mem.out.read 0 = some 0x03000000 ∧ t.mem.out.read 1 = some 0x01000000 ∧ t.widx = 9 ∧
    t.wtotal = 9 ∧ accWord t = 0 ∧ statusWord t = 2) = true := by decide +kernel

/-- V38. -/
theorem test_dec_group_overflow : goes (exec .dec (samplesState 8 (alternating 26 1000))) (fun t =>
    t.faultCode = 6 ∧ t.faultInfo = 24 ∧ t.widx = 24 ∧ accWord t = 0x18000000 ∧ t.outlen = 0 ∧ statusWord t = 1) = true := by
  decide +kernel

/-! ### Witnesses: concrete states and operands that meet the hypotheses of a statement -/

/-- A state all of whose command operands are in order: V2's rate, text "01 ", two message bytes, four samples. -/
def ready : State :=
  { base with
    srate := 8, freq := 1, dur := 1000, msglen := 2, symlen := 3, rxlen := 4, wend := 125
    mem := {
      msg := [(0, 0x41), (1, 0x42)], sym := [(0, 0x30), (1, 0x31), (2, 0x20)], tx := [(0, 5), (1, 6), (2, 7)]
      rx := [(0, 1), (1, 0xFFFF), (2, 1), (3, 0xFFFF)], out := [(0, 0x03000005)] }
    txlen := 2, outlen := 1 }

/-- A fault recorded (V49). -/
def faulted : State := { ready with faultFlag := true, faultCode := 1, faultInfo := 2 }

theorem ready_filled : ready.mem.rx.Filled ready.rxlen.toNat := by
  unfold Buf.Filled
  decide +kernel

theorem ready_tx_filled : ready.mem.tx.Filled ready.txlen.toNat := by
  unfold Buf.Filled
  decide +kernel

/-- The invariant holds of a state with work in it. -/
theorem ready_inv : ready.Inv where
  canonical := by decide +kernel
  inDepth := by decide +kernel
  faultPair := by decide +kernel
  accumulator := by decide +kernel
  waveform := ⟨by decide +kernel, ready_tx_filled⟩
  groups := by
    refine ⟨by decide +kernel, fun j hj => ⟨0x03000005, ?_, by unfold IsGroup; decide +kernel⟩⟩
    revert j
    decide +kernel
  marked := ⟨by decide +kernel, fun b j h => by cases b <;> cases h⟩
  window := by decide +kernel
  peak := by decide +kernel
  progress := fun _ h => by cases h

theorem witness_SymbolCodesAreThree : ∃ c : Byte, c.toNat ≠ 48 ∧ c.toNat ≠ 49 ∧ c.toNat ≠ 32 :=
  ⟨0x33, by decide +kernel⟩

theorem witness_EncodedInstructionDecodes :
    Instr.gen.wf ∧ Instr.scr.wf ∧ Instr.enc.wf ∧ Instr.det.wf ∧ Instr.dec.wf ∧ Instr.symZero.wf ∧ Instr.symOne.wf ∧
      Instr.symSilence.wf := by decide +kernel

theorem witness_DecodedInstructionEncodes :
    decode (.cmd32 0x00000005) = .ok .dec ∧ decode (.sym8 0x20) = .ok .symSilence := by decide +kernel

theorem witness_SoftResetFollowsItsRule : ∃ (s : State) (v : Word) (rest : List Input),
    s.encOut = none ∧ s.pending = .host (.regWrite 2 v) :: rest ∧ v.getLsbD 31 = true :=
  ⟨withInput faulted (.regWrite 2 0x80000001), 0x80000001, [], rfl, rfl, by decide +kernel⟩

/-- A fault that the hard reset clears. -/
theorem witness_SoftResetFollowsItsRule_only : ∃ s t : State,
    s.faultFlag = true ∧ s.encOut = none ∧ step s = .next t ∧ t.faultFlag = false :=
  ⟨{ faulted with pending := [.hardReset] }, hardReset { faulted with pending := [] }, rfl, rfl, rfl, rfl⟩

theorem witness_HardResetEmptiesTheBuffers : ∃ (s : State) (rest : List Input),
    s.encOut = none ∧ s.pending = .hardReset :: rest :=
  ⟨{ faulted with pending := [.hardReset] }, [], rfl, rfl⟩

/-- For every register, 0, 21, 22 and 31 among them. -/
theorem witness_RegReadReturnsTheRegister : ∀ i : Fin 32, ∃ (s : State) (rest : List Input),
    s.encOut = none ∧ s.pending = .host (.regRead i) :: rest :=
  fun i => ⟨withInput ready (.regRead i), [], rfl, rfl⟩

/-- CMD; the soft reset; CTRL without it; the first and the last read-write register; a read-only and a reserved one. -/
theorem witness_RegWriteFollowsItsTable :
    (∃ s : State, s.encOut = none ∧ s.pending = [.host (.regWrite 0 0x00000001)]) ∧
    (∃ s : State, s.encOut = none ∧ s.pending = [.host (.regWrite 2 0x80000001)]) ∧
    (∀ i ∈ ([1, 2, 3, 4, 5, 13, 14, 21, 22, 31] : List (Fin 32)), ∃ s : State, s.encOut = none ∧
      s.pending = [.host (.regWrite i 0x7FFFFFFF)] ∧ i ≠ 0 ∧ ¬(i = 2 ∧ (0x7FFFFFFF : Word).getLsbD 31 = true)) :=
  ⟨⟨withInput ready (.regWrite 0 1), rfl, rfl⟩, ⟨withInput ready (.regWrite 2 0x80000001), rfl, rfl⟩,
    fun i hi => ⟨withInput ready (.regWrite i 0x7FFFFFFF), rfl, rfl, by revert i; decide +kernel⟩⟩

theorem witness_ReservedRegistersAreInert :
    (∀ i ∈ ([22, 31] : List (Fin 32)), 22 ≤ i.val ∧ ∃ s : State, s.encOut = none ∧ s.pending = [.host (.regRead i)]) ∧
    (∀ i ∈ ([22, 31] : List (Fin 32)), ∃ s : State, s.encOut = none ∧
      s.pending = [.host (.regWrite i 0x12345678)]) :=
  ⟨fun i hi => ⟨by revert i; decide +kernel, withInput ready (.regRead i), rfl, rfl⟩,
    fun i _ => ⟨withInput ready (.regWrite i 0x12345678), rfl, rfl⟩⟩

/-- A write to the last element, one past it, and one to each space the host may not write. -/
theorem witness_BufferAccessFollowsItsRule_writes :
    (∃ s : State, s.encOut = none ∧ s.pending = [.host (.bufWrite .rx 63 (0x8000 : Sample))] ∧ 63 < depthOf s.cfg .rx) ∧
    (∃ s : State, s.encOut = none ∧ s.pending = [.host (.bufWrite .rx 64 (0x8000 : Sample))] ∧
      depthOf s.cfg .rx ≤ 64) ∧
    (∃ s : State, s.encOut = none ∧ s.pending = [.host (.bufWrite .tx 0 (1 : Sample))]) ∧
    (∃ s : State, s.encOut = none ∧ s.pending = [.host (.bufWrite .out 0 (1 : Word))]) :=
  ⟨⟨withInput ready (.bufWrite .rx 63 (0x8000 : Sample)), rfl, rfl, by decide +kernel⟩,
    ⟨withInput ready (.bufWrite .rx 64 (0x8000 : Sample)), rfl, rfl, by decide +kernel⟩,
    ⟨withInput ready (.bufWrite .tx 0 (1 : Sample)), rfl, rfl⟩, ⟨withInput ready (.bufWrite .out 0 (1 : Word)), rfl, rfl⟩⟩

/-- `ready` after a soft reset, with two elements the host has then written to MSGBUF and SYMBUF. -/
def rewritten : State :=
  { softReset ready with marks := { Marks.empty with msg := [(1, 0)], sym := [(2, 0)] } }

/-- A read beyond the depth; of the last valid sample; at the length register, of an element the host has written, in
MSGBUF, and in SYMBUF with no SCR since power-on. -/
theorem witness_BufferAccessFollowsItsRule_reads :
    (∃ s : State, s.encOut = none ∧ s.pending = [.host (.bufRead .msg 4)] ∧ depthOf s.cfg .msg ≤ 4) ∧
    (∃ s : State, s.encOut = none ∧ s.pending = [.host (.bufRead .tx 1)] ∧ 1 < depthOf s.cfg .tx ∧
      1 < (lengthOf .tx s).toNat ∧ s.mem.read .tx 1 = some (6 : Sample)) ∧
    (∃ s : State, s.encOut = none ∧ s.pending = [.host (.bufRead .msg 1)] ∧ 1 < depthOf s.cfg .msg ∧
      (lengthOf .msg s).toNat = 0 ∧ s.marks.has .msg 1 = true ∧ s.mem.read .msg 1 = some (0x42 : Byte)) ∧
    (∃ s : State, s.encOut = none ∧ s.pending = [.host (.bufRead .sym 2)] ∧ 2 < depthOf s.cfg .sym ∧
      (lengthOf .sym s).toNat = 0 ∧ s.marks.has .sym 2 = true ∧ s.scrRan = false ∧
      s.mem.read .sym 2 = some (0x20 : Byte)) :=
  ⟨⟨withInput ready (.bufRead .msg 4), rfl, rfl, by decide⟩, ⟨withInput ready (.bufRead .tx 1), rfl, rfl, by decide,
    by decide, rfl⟩, ⟨withInput rewritten (.bufRead .msg 1), rfl, rfl, by decide, rfl, rfl, rfl⟩,
    ⟨withInput rewritten (.bufRead .sym 2), rfl, rfl, by decide, rfl, rfl, rfl, rfl⟩⟩

/-- An element nothing has written; the first sample above TXLEN; after a soft reset, an element of MSGBUF not written
again, and after SCR one of SYMBUF that the host has written. -/
theorem witness_BufferReadStopsWhereThereIsNoValue :
    (∃ s : State, s.encOut = none ∧ s.pending = [.host (.bufRead .msg 2)] ∧ 2 < depthOf s.cfg .msg ∧
      s.mem.read .msg 2 = none) ∧
    (∃ s : State, s.encOut = none ∧ s.pending = [.host (.bufRead .tx 2)] ∧ 2 < depthOf s.cfg .tx ∧
      s.mem.read .tx 2 = some (7 : Sample) ∧ (lengthOf .tx s).toNat ≤ 2) ∧
    (∃ s : State, s.encOut = none ∧ s.pending = [.host (.bufRead .msg 0)] ∧ 0 < depthOf s.cfg .msg ∧
      s.mem.read .msg 0 = some (0x41 : Byte) ∧ (lengthOf .msg s).toNat ≤ 0 ∧ s.marks.has .msg 0 = false) ∧
    (∃ s : State, s.encOut = none ∧ s.pending = [.host (.bufRead .sym 2)] ∧ 2 < depthOf s.cfg .sym ∧
      s.mem.read .sym 2 = some (0x20 : Byte) ∧ (lengthOf .sym s).toNat ≤ 2 ∧ s.scrRan = true) :=
  ⟨⟨withInput ready (.bufRead .msg 2), rfl, rfl, by decide, rfl⟩,
    ⟨withInput ready (.bufRead .tx 2), rfl, rfl, by decide, rfl, by decide⟩,
    ⟨withInput rewritten (.bufRead .msg 0), rfl, rfl, by decide, rfl, by decide, rfl⟩,
    ⟨withInput { rewritten with scrRan := true } (.bufRead .sym 2), rfl, rfl, by decide, rfl, by decide, rfl⟩⟩

/-- A run of two operations that ends, and well; one that ends with a fault recorded; and one step of the first, which
has not ended it. -/
theorem witness_RunEndsWithItsLastOperation :
    ready.encOut = none ∧
    goes (core.run 2 { ready with pending := [HostOp.regWrite 6 2, .regWrite 0 1].map Input.host })
      (fun t => t.pending = [] ∧ t.encOut = none ∧ t.faultFlag = false ∧ t.txlen = 8) = true ∧
    goes (core.run 2 { ready with pending := [HostOp.regWrite 7 0, .regWrite 0 1].map Input.host })
      (fun t => t.pending = [] ∧ t.encOut = none ∧ t.faultFlag = true) = true ∧
    goes (core.run 1 { ready with pending := [HostOp.regWrite 6 2, .regWrite 0 1].map Input.host })
      (fun t => t.pending ≠ []) = true := by decide +kernel

/-- Each of the five words. -/
theorem witness_StepRunsTheIssuedCommand :
    ∀ p ∈ commandRows, ∃ s : State, s.encOut = none ∧ s.pending = [.host (.regWrite 0 p.1)] ∧ s.faultFlag = false ∧
      decode (.cmd32 p.1) = .ok p.2 :=
  fun p hp => ⟨withInput ready (.regWrite 0 p.1), rfl, rfl, rfl, by
    simp only [commandRows, List.mem_cons, List.not_mem_nil, or_false] at hp
    obtain rfl | rfl | rfl | rfl | rfl := hp <;> decide⟩

/-- An ENC in progress at its last character; one that then faults for want of room. -/
theorem witness_StepRunsTheSymbolAtSympos : ∃ (s : State) (c : Byte) (i : Instr),
    s.encOut ≠ none ∧ s.sympos.toNat < s.symlen.toNat ∧ s.mem.sym.read s.sympos.toNat = some c ∧
      decode (.sym8 c) = .ok i :=
  ⟨{ ready with encOut := some 4, sympos := 2 }, 0x20, .symSilence, by decide +kernel⟩

theorem witness_BlockWaitsForTheHost : State.reset.encOut = none ∧ State.reset.pending = [] := ⟨rfl, rfl⟩

/-- The words on either side of the five. -/
theorem witness_IllegalWordIsRecorded : ∀ w ∈ ([0, 6, 0xFFFFFFFF] : List Word), ∃ s : State,
    s.encOut = none ∧ s.pending = [.host (.regWrite 0 w)] ∧ s.faultFlag = false ∧ (w.toNat = 0 ∨ 5 < w.toNat) :=
  fun w hw => ⟨withInput ready (.regWrite 0 w), rfl, rfl, rfl, by
    simp only [List.mem_cons, List.not_mem_nil, or_false] at hw
    obtain rfl | rfl | rfl := hw <;> decide⟩

/-- A command that is dropped; a step under a fault. -/
theorem witness_FaultIsSticky : ∃ (s t : State) (w : Word), s.faultFlag = true ∧ s.encOut = none ∧
    s.pending = [.host (.regWrite 0 w)] ∧ step s = .next t :=
  ⟨withInput faulted (.regWrite 0 9), { faulted with pending := [] }, 9, rfl, rfl, rfl, rfl⟩

theorem witness_StepKeepsTheInvariant : ∃ s t : State, s.Inv ∧ step s = .next t :=
  ⟨ready, ready, ready_inv, rfl⟩

/-- A next state that is not the state itself, for the statements about every step. -/
theorem witness_ParametersNeverChange : ∃ t : State, step (withInput ready (.regWrite 5 0)) = .next t ∧ t.srate = 0 :=
  ⟨_, rfl, rfl⟩

/-- Every instruction goes on from `ready`. -/
theorem witness_InstructionsLeaveTheirOperandsAlone :
    ∀ i ∈ [Instr.gen, .scr, .enc, .det, .dec, .symZero, .symOne, .symSilence],
      goes (exec i ready) (fun t => t.faultFlag = false) = true := by decide +kernel

theorem witness_ResultsHaveTheirWriters :
    ∀ i ∈ [Instr.gen, .scr, .enc, .det, .dec, .symZero, .symOne, .symSilence], ∃ t, exec i ready = .next t :=
  fun i hi => (next_of (witness_InstructionsLeaveTheirOperandsAlone i hi)).imp fun _ h => h.1

/-- Every instruction faults at SRATE = 0 but SCR, which faults on a length above MSG_DEPTH. -/
theorem witness_FaultDiscardsTheOutputs :
    ∀ i ∈ [Instr.gen, .scr, .enc, .det, .dec, .symZero, .symOne, .symSilence],
      goes (exec i { ready with srate := 0, msglen := 5 }) (fun t => t.faultFlag) = true := by decide +kernel

theorem witness_MalformedBitGroupIsUnreachable : ∃ (i : Instr) (s t : State), exec i s = .next t ∧ t.faultCode = 2 :=
  ⟨.symZero, { faulted with faultCode := 2 }, (next_of (p := fun t => t.faultCode = 2) (by decide +kernel)).imp
    fun _ h => ⟨h.1, of_decide_eq_true h.2⟩⟩

theorem witness_SegmentIsItsSamples :
    1 < count 8 250 ∧ (segment .reference 36 250 8)[0]? = some 0 ∧ count 1 1 = 0 := by decide +kernel

theorem witness_ReferenceSampleIsTheRoundedSine : 0 < 1 ∧ 4294967295 < 2 ^ 32 := by decide +kernel

theorem witness_SettledSineIsTheRoundedSine :
    0 < 8 ∧ 2 * 1 ≤ 8 ∧ (sineSearch precisionSteps firstPrecision 1 4).isSome = true ∧
      (sineSearch precisionSteps firstPrecision 1 8).isSome = true := by decide +kernel

/-- One rate and frequency for each clause. -/
theorem witness_ReferenceSampleSymmetries :
    (1 < 12 ∧ 0 < 1) ∧ 3 * 4 % 12 = 0 ∧ 2 * (1 * 6 % 12) = 12 ∧ 4 * (1 * 3 % 12) = 12 ∧ 4 * (1 * 9 % 12) = 3 * 12 ∧
      12 * (1 * 1 % 12) = 12 ∧ 12 * (1 * 7 % 12) = 7 * 12 := by decide +kernel

theorem witness_PeakKeepsTheAdmittedProperties :
    (∀ v ∈ ([0, 0] : List ℤ), v = 0) ∧ ([123] : List ℤ).length = 1 := by decide +kernel

theorem witness_SettledPeakIsTheFirstMaximum :
    ([0, 1000, 0, -1000] : List ℤ) ≠ [] ∧
      peakSearch precisionSteps firstPrecision (autocorrelation [0, 1000, 0, -1000]) = some 1 := by decide +kernel

theorem witness_ReferencePeakIsTheFirstMaximum :
    ([-32768, 32767] : List ℤ) ≠ [] ∧ ([-32768, 32767] : List ℤ).length < 2 ^ 29 ∧
      ∀ v ∈ ([-32768, 32767] : List ℤ), -32768 ≤ v ∧ v ≤ 32767 := by decide +kernel

/-- V33: the four classes, 100 Hz exactly among them. -/
theorem witness_ClassIsTheFrequencysBand :
    0 < 26 ∧ 0 < 200 ∧ classify 13 26 200 = .unclassified ∧ classify 12 26 200 = .zero ∧ classify 14 26 200 = .one ∧
      classify 0 26 200 = .silence := by decide +kernel

/-- `ready` with a TXBUF of `n` samples. -/
def room (n : Fin (2 ^ 32)) : State := { ready with cfg := { small with txDepth := n } }

/-- GEN: the rate; the duration; the room, one sample short and just enough. -/
theorem witness_GenFollowsItsRule :
    { ready with srate := 0 }.srate = 0 ∧
    ({ ready with dur := 0 }.srate ≠ 0 ∧ { ready with dur := 0 }.dur = 0) ∧
    ((room ⟨7, by decide⟩).srate ≠ 0 ∧ (room ⟨7, by decide⟩).dur ≠ 0 ∧
      (room ⟨7, by decide⟩).cfg.txDepth.val < count (room ⟨7, by decide⟩).srate.toNat (room ⟨7, by decide⟩).dur.toNat) ∧
    ((room ⟨8, by decide⟩).srate ≠ 0 ∧ (room ⟨8, by decide⟩).dur ≠ 0 ∧
      count (room ⟨8, by decide⟩).srate.toNat (room ⟨8, by decide⟩).dur.toNat ≤ (room ⟨8, by decide⟩).cfg.txDepth.val) := by
  decide +kernel

/-- SCR: V15, then a message of two bytes that just fits, and the empty one. -/
theorem witness_ScrFollowsItsRule :
    (ready.cfg.msgDepth.val < { ready with msglen := 5 }.msglen.toNat) ∧
    ({ ready with msglen := 3 }.msglen.toNat ≤ ready.cfg.msgDepth.val ∧ { ready with msglen := 3 }.msglen ≠ 0 ∧
      ready.cfg.symDepth.val < 9 * { ready with msglen := 3 }.msglen.toNat - 1) ∧
    (ready.msglen.toNat ≤ ready.cfg.msgDepth.val ∧ 9 * ready.msglen.toNat - 1 ≤ ready.cfg.symDepth.val ∧
      ([0x41, 0x42] : List Byte).length = ready.msglen.toNat ∧
      ∀ j, j < ([0x41, 0x42] : List Byte).length → ready.mem.msg.read j = ([0x41, 0x42] : List Byte)[j]?) ∧
    ({ ready with msglen := 0 }.msglen.toNat ≤ ready.cfg.msgDepth.val ∧
      ([] : List Byte).length = { ready with msglen := 0 }.msglen.toNat) := by
  decide +kernel

/-- The symbols: one sample too few and just enough. -/
theorem witness_SymbolsAppendTheirSegments :
    { ready with encOut := some 62 }.encOut = some 62 ∧ ready.srate ≠ 0 ∧
    (ready.cfg.txDepth.val < 63 + count ready.srate.toNat 250 ∧ 62 + count ready.srate.toNat 250 ≤ ready.cfg.txDepth.val) ∧
    (ready.cfg.txDepth.val < 61 + count ready.srate.toNat 500 ∧ 60 + count ready.srate.toNat 500 ≤ ready.cfg.txDepth.val) := by
  decide +kernel

theorem witness_SymbolOutsideEncIsDefined :
    Instr.symZero.isCommand = false ∧ Instr.symOne.isCommand = false ∧ Instr.symSilence.isCommand = false ∧
      { ready with srate := 0 }.srate = 0 ∧ ready.srate ≠ 0 ∧ ready.encOut = none := by decide +kernel

/-- ENC: its two operand faults; a text that just fits. -/
theorem witness_EncFollowsItsRule :
    { ready with srate := 0 }.srate = 0 ∧
    (ready.srate ≠ 0 ∧ ready.cfg.symDepth.val < { ready with symlen := 18 }.symlen.toNat) ∧
    (ready.srate ≠ 0 ∧ ready.symlen.toNat ≤ ready.cfg.symDepth.val ∧
      ([0x30, 0x31, 0x20] : List Byte).length = ready.symlen.toNat ∧
      (∀ p, p < ([0x30, 0x31, 0x20] : List Byte).length → ready.mem.sym.read p = ([0x30, 0x31, 0x20] : List Byte)[p]?) ∧
      (∀ c ∈ ([0x30, 0x31, 0x20] : List Byte), toneOf c ≠ none) ∧
      (waveform .reference 8 [0x30, 0x31, 0x20]).length = 8) := by
  decide +kernel

/-- ENC: V20's text has its first offender at 2; with 7 samples of room the third symbol of "01 " does not fit. -/
theorem witness_EncFollowsItsRule_faults :
    (2 < ([0x30, 0x31, 0x32] : List Byte).length ∧ (∀ c ∈ ([0x30, 0x31, 0x32] : List Byte).take 2, toneOf c ≠ none) ∧
      (waveform .reference 8 (([0x30, 0x31, 0x32] : List Byte).take 2)).length ≤ 64 ∧
      (∀ c ∈ ([0x30, 0x31, 0x32] : List Byte)[2]?, toneOf c = none)) ∧
    (2 < ([0x30, 0x31, 0x20] : List Byte).length ∧ (∀ c ∈ ([0x30, 0x31, 0x20] : List Byte).take 3, toneOf c ≠ none) ∧
      (waveform .reference 8 (([0x30, 0x31, 0x20] : List Byte).take 2)).length ≤ 7 ∧
      7 < (waveform .reference 8 (([0x30, 0x31, 0x20] : List Byte).take 3)).length) := by
  decide +kernel

theorem witness_WaveformLengthBySymbols : ∀ c ∈ ([0x30, 0x31, 0x20] : List Byte), toneOf c ≠ none := by decide +kernel

theorem witness_MessageLengthAtDefaultRate : ([0x48, 0x69] : List Byte) ≠ [] := by decide +kernel

theorem witness_EncIsItsSymbolsOneByOne :
    ready.srate ≠ 0 ∧ ready.symlen.toNat ≤ ready.cfg.symDepth.val ∧ ready.pending = [] := by decide +kernel

/-- DET: its two operand faults; a window with samples in it. -/
theorem witness_DetFollowsItsRule :
    { ready with srate := 0 }.srate = 0 ∧
    (ready.srate ≠ 0 ∧ ready.cfg.rxDepth.val < { ready with rxlen := 65 }.rxlen.toNat) ∧
    (ready.srate ≠ 0 ∧ ready.rxlen.toNat ≤ ready.cfg.rxDepth.val ∧ ready.mem.rx.Filled ready.rxlen.toNat) :=
  ⟨rfl, by decide +kernel, by decide +kernel, by decide +kernel, ready_filled⟩

theorem witness_DecIsTheStringDecoder_faults :
    { ready with srate := 0 }.srate = 0 ∧
      (ready.srate ≠ 0 ∧ ready.cfg.rxDepth.val < { ready with rxlen := 65 }.rxlen.toNat) := by decide

/-- What the decoder of the source makes of a state: the text decoded, or the fault. -/
def outcomeOf (s : State) : Option Text × Option Stop :=
  match decodeText s.strict s.cfg.outDepth.val (windowClasses s) with
  | .ok d => (some d, none)
  | .error e => (none, some e)

/-- V36 decodes to its two groups; V37's first window, with strict mode on, is its fault. -/
theorem witness_DecIsTheStringDecoder :
    (outcomeOf (samplesState 8 [1, -1, 1, -1, 0, 0, 0, 1, -1])).1 =
      some { acc := [], groups := [[false, false, false], [false]], skip := true } ∧
    (outcomeOf { samplesState 200 (alternating 26 1000) with strict := true }).2 =
      some { cause := .unclassifiedFrequency, info := 0, window := 0, text := { acc := [], groups := [], skip := false } } := by
  decide +kernel

/-- The operands of both are in order. -/
theorem witness_DecIsTheStringDecoder_operands :
    ((samplesState 8 [1, -1, 1, -1, 0, 0, 0, 1, -1]).srate ≠ 0 ∧
      (samplesState 8 [1, -1, 1, -1, 0, 0, 0, 1, -1]).rxlen.toNat ≤ small.rxDepth.val ∧
      (samplesState 8 [1, -1, 1, -1, 0, 0, 0, 1, -1]).mem.rx.Filled 9) ∧
    ((samplesState 200 (alternating 26 1000)).srate ≠ 0 ∧
      (samplesState 200 (alternating 26 1000)).rxlen.toNat ≤ small.rxDepth.val ∧
      (samplesState 200 (alternating 26 1000)).mem.rx.Filled 26) := by
  unfold Buf.Filled
  decide +kernel

theorem witness_DecCompletesOnShortBuffers :
    ready.srate ≠ 0 ∧ ready.rxlen.toNat ≤ ready.cfg.rxDepth.val ∧ ready.mem.rx.Filled ready.rxlen.toNat ∧
      ready.strict = false ∧ 8 * ready.rxlen.toNat / ready.srate.toNat ≤ 24 ∧
      8 * ready.rxlen.toNat / ready.srate.toNat ≤ 3 * ready.cfg.outDepth.val :=
  ⟨by decide +kernel, by decide +kernel, ready_filled, by decide +kernel⟩

theorem witness_DecGroupsAreBounded : ∃ s t : State, exec .dec s = .next t ∧ t.faultFlag = false ∧ 1 < t.outlen.toNat :=
  ⟨samplesState 8 [1, -1, 1, -1, 0, 0, 0, 1, -1],
    (next_of (p := fun t => t.faultFlag = false ∧ 1 < t.outlen.toNat) (by decide +kernel)).imp
      fun _ h => ⟨h.1, of_decide_eq_true h.2⟩⟩

theorem witness_SilenceDecodesToNothing :
    (samplesState 8 [0, 0, 0]).srate ≠ 0 ∧
    (samplesState 8 [0, 0, 0]).rxlen.toNat ≤ (samplesState 8 [0, 0, 0]).cfg.rxDepth.val ∧
    ∀ n, n < (samplesState 8 [0, 0, 0]).rxlen.toNat → (samplesState 8 [0, 0, 0]).mem.rx.read n = some 0 := by decide +kernel

/-- Two states that differ in what an earlier DEC left. -/
theorem witness_DecDependsOnlyOnItsInputs :
    (∃ t, exec .dec ready = .next t) ∧ ({ ready with skip := true, accLen := 3, outlen := 0 } : State) ≠ ready := by
  refine ⟨(next_of (p := fun _ => true) (by decide +kernel)).imp fun _ h => h.1, by decide +kernel⟩

/-- A transfer of an odd number of samples, with both strides. -/
theorem witness_TransferCopiesTheSamples :
    { ready with txlen := 3 }.encOut = none ∧ { ready with txlen := 3 }.txlen.toNat ≤ ready.cfg.txDepth.val ∧
    ready.mem.tx.Filled { ready with txlen := 3 }.txlen.toNat ∧ (3 + 1 - 1) / 1 ≤ ready.cfg.rxDepth.val ∧
      (3 + 2 - 1) / 2 ≤ ready.cfg.rxDepth.val := by
  refine ⟨rfl, by decide +kernel, ?_, by decide +kernel, by decide +kernel⟩
  unfold Buf.Filled
  decide +kernel

end Sys2Proof.Tests
end

section
/-! PROOFS of the family 10_state: what one step can do, said once; the parameters; the invariant. -/

namespace Sys2Proof.Machine

/-! ### What a step can do -/

/-- A step that goes on is a character of the ENC in progress, the taking of the next input, or waiting. -/
theorem step_cases {s t : State} (h : step s = .next t) :
    (s.encOut ≠ none ∧ encStep s = .next t) ∨ (s.encOut = none ∧ s.pending = [] ∧ t = s) ∨
      ∃ inp rest, s.encOut = none ∧ s.pending = inp :: rest ∧
        takeInput inp { s with pending := rest } = .next t := by
  by_cases he : s.encOut = none
  · cases hp : s.pending with
    | nil =>
      rw [step_idle he hp] at h
      cases h
      exact .inr (.inl ⟨he, rfl, rfl⟩)
    | cons inp rest => exact .inr (.inr ⟨inp, rest, he, rfl, step_input he hp ▸ h⟩)
  · exact .inl ⟨he, step_enc he ▸ h⟩

/-- A host read that goes on changes the reply only. -/
theorem bufRead_next {b : BufId} {j : Nat} {s t : State} (h : bufRead b j s = .next t) :
    ∃ r, t = { s with reply := r } := by
  rcases bufRead_cases b j s with ⟨-, e⟩ | ⟨-, -, e⟩ | ⟨v, -, -, ⟨-, e⟩ | ⟨-, e⟩⟩ <;> rw [e] at h <;> cases h <;>
    exact ⟨_, rfl⟩

/-- An input from outside resets, is a read that changes the reply only, writes a register or an element, or issues a
command. -/
theorem takeInput_cases {inp : Input} {s t : State} (h : takeInput inp s = .next t) :
    (inp = .hardReset ∧ t = hardReset s) ∨ (∃ r, t = { s with reply := r }) ∨
      (∃ i v, inp = .host (.regWrite i v) ∧ i ≠ 0 ∧ t = regWrite i v s) ∨
      (∃ b j v, inp = .host (.bufWrite b j v) ∧ t = bufWrite b j v s) ∨
      ∃ w, inp = .host (.regWrite 0 w) ∧ commandIssue w s = .next t := by
  cases inp with
  | hardReset =>
    cases h
    exact .inl ⟨rfl, rfl⟩
  | host op =>
    cases op with
    | regRead i =>
      cases h
      exact .inr (.inl ⟨_, rfl⟩)
    | regWrite i v =>
      simp only [takeInput, hostOp] at h
      split at h
      · rename_i hi
        exact .inr (.inr (.inr (.inr ⟨v, by rw [hi], h⟩)))
      · rename_i hi
        cases h
        exact .inr (.inr (.inl ⟨i, v, rfl, hi, rfl⟩))
    | bufRead b j => exact .inr (.inl (bufRead_next h))
    | bufWrite b j v =>
      cases h
      exact .inr (.inr (.inr (.inl ⟨b, j, v, rfl, rfl⟩)))

/-- A word written to CMD is dropped, records IllegalCommand, or runs its instruction with no fault recorded (R157). -/
theorem commandIssue_cases {w : Word} {s t : State} (h : commandIssue w s = .next t) :
    t = s ∨ t = faultEntry .issue .illegalCommand w.toNat s ∨
      ∃ i, s.faultFlag = false ∧ exec i s = .next t := by
  cases hf : s.faultFlag with
  | true =>
    rw [commandIssue_dropped hf] at h
    cases h
    exact .inl rfl
  | false =>
    cases hd : decodeCommand w with
    | ok i => exact .inr (.inr ⟨i, rfl, commandIssue_ok hf hd ▸ h⟩)
    | error r =>
      simp only [commandIssue, hf, hd, Bool.false_eq_true, if_false] at h
      cases h
      exact .inr (.inl rfl)

/-- A symbol always goes on. -/
theorem appendSegment_next (f d : Nat) (s : State) : ∃ t, appendSegment f d s = .next t := by
  rcases appendSegment_cases f d s with ⟨-, e⟩ | ⟨-, -, e⟩ | ⟨-, -, e⟩ <;> exact ⟨_, e⟩

/-! ### Host accesses without effect or without value -/

/-- A reserved register reads 0 (R33). -/
theorem regRead_reserved {i : Fin 32} (hi : 22 ≤ i.val) (s : State) : regRead i s = 0 := by
  obtain ⟨i, hlt⟩ := i
  simp only at hi
  interval_cases i <;> rfl

/-- A write to a reserved register is ignored (R33). -/
theorem regWrite_reserved {i : Fin 32} (hi : 22 ≤ i.val) (v : Word) (s : State) : regWrite i v s = s := by
  obtain ⟨i, hlt⟩ := i
  simp only at hi
  interval_cases i <;> rfl

theorem bufRead_noValue {b : BufId} {j : Nat} {s : State} (hj : j < depthOf s.cfg b) (hv : s.mem.read b j = none) :
    bufRead b j s = .fault (.noValue b j) := by
  unfold bufRead
  rw [if_neg (by omega), hv]

theorem bufRead_notValid {b : BufId} {j : Nat} {s : State} {v : BitVec b.width} (hj : j < depthOf s.cfg b)
    (hv : s.mem.read b j = some v) (hr : readable b j s = false) : bufRead b j s = .refused (.notValid b j) := by
  unfold bufRead
  rw [if_neg (by omega), hv]
  exact if_neg (by rw [hr]; decide)

/-- At and above the length register the host reads only what it has marked, and in SYMBUF nothing after SCR; TXBUF and
OUTBUF it cannot mark (R42, R158, R159). -/
theorem not_readable_above {b : BufId} {j : Nat} {s : State} (hl : (lengthOf b s).toNat ≤ j)
    (h : s.marks.has b j = false ∨ b = .tx ∨ b = .out ∨ (b = .sym ∧ s.scrRan = true)) : readable b j s = false := by
  have hj : ¬ j < (lengthOf b s).toNat := Nat.not_lt.2 hl
  unfold readable
  rcases h with h | rfl | rfl | ⟨rfl, h⟩
  · simp [hj, h]
  · simp [hj, Marks.has]
  · simp [hj, Marks.has]
  · simp [hj, h]

/-! ### The parameters (R44) -/

theorem appendSegment_cfg {f d : Nat} {s t : State} (h : appendSegment f d s = .next t) : t.cfg = s.cfg := by
  rcases appendSegment_cases f d s with ⟨-, e⟩ | ⟨-, -, e⟩ | ⟨-, -, e⟩ <;> rw [e] at h <;> cases h
  · exact faultEntry_cfg ..
  · exact faultEntry_cfg ..
  · rfl

/-- No instruction changes the parameters. -/
theorem exec_cfg {i : Instr} {s t : State} (h : exec i s = .next t) : t.cfg = s.cfg := by
  cases i with
  | gen =>
    change execGen s = _ at h
    rcases execGen_cases s with ⟨_, _, e, -⟩ | ⟨-, -, -, e⟩ <;> rw [e] at h <;> cases h
    · exact faultEntry_cfg ..
    · rfl
  | scr =>
    change execScr s = _ at h
    rcases execScr_cases s with ⟨_, _, e, -⟩ | ⟨m, -, -, -, e⟩ | ⟨j, e, -⟩ <;> rw [e] at h <;> cases h
    · exact faultEntry_cfg ..
    · rfl
  | enc => exact (congrArg State.cfg (execEnc_frame h).1 :)
  | det =>
    change execDet s = _ at h
    rcases execDet_cases s with ⟨_, _, e, -⟩ | ⟨r, -, -, -, e⟩ | ⟨j, e, -⟩ <;> rw [e] at h <;> cases h
    · exact faultEntry_cfg ..
    · rfl
  | dec =>
    change execDec s = _ at h
    rcases execDec_cases s with ⟨_, _, u, e, -, -, hu, -⟩ | ⟨u, e, hu, -⟩ | ⟨j, e, -⟩ <;> rw [e] at h <;> cases h
    · exact (faultEntry_cfg ..).trans (congrArg State.cfg hu :)
    · exact (congrArg State.cfg hu :)
  | symZero => exact appendSegment_cfg h
  | symOne => exact appendSegment_cfg h
  | symSilence => exact appendSegment_cfg h

theorem encStep_cfg {s t : State} (h : encStep s = .next t) : t.cfg = s.cfg := by
  rcases encStep_cases h with ⟨-, rfl⟩ | ⟨c, info, -, -, rfl⟩ | ⟨f, d, -, -, rfl⟩
  · rfl
  · exact faultEntry_cfg ..
  · rfl

theorem commandIssue_cfg {w : Word} {s t : State} (h : commandIssue w s = .next t) : t.cfg = s.cfg := by
  rcases commandIssue_cases h with rfl | rfl | ⟨i, -, h⟩
  · rfl
  · exact faultEntry_cfg ..
  · exact exec_cfg h

theorem takeInput_cfg {inp : Input} {s t : State} (h : takeInput inp s = .next t) : t.cfg = s.cfg := by
  rcases takeInput_cases h with ⟨-, rfl⟩ | ⟨r, rfl⟩ | ⟨i, v, -, -, rfl⟩ | ⟨b, j, v, -, rfl⟩ | ⟨w, -, h⟩
  · rfl
  · rfl
  · exact (regWrite_kept i v s).1
  · exact (bufWrite_faultFlag b j v s).2.2.2
  · exact commandIssue_cfg h

/-! ### The invariant: updates of the state -/

theorem Buf.filled_zero {w : Nat} (b : Buf w) : b.Filled 0 := fun j hj => absurd hj (Nat.not_lt_zero j)

/-- A store takes no element's value away. -/
theorem Buf.Filled.store {w : Nat} {b : Buf w} {n : Nat} (h : b.Filled n) (start : Nat) (vs : List (BitVec w)) :
    (b.store start vs).Filled n := by
  intro j hj
  rw [Buf.read_store]
  split
  · rw [List.getElem?_eq_getElem (by omega)]
    rfl
  · exact h j hj

/-- A store from element 0 on fills what it stores. -/
theorem Buf.filled_store_zero {w : Nat} (b : Buf w) (vs : List (BitVec w)) : (b.store 0 vs).Filled vs.length := by
  simpa using Buf.filled_store (vs := vs) b.filled_zero (Nat.le_refl 0)

/-- With the registers reset, canonical memory inside its depths is all the invariant asks for: every length register is
0, and nothing is marked. -/
theorem softReset_inv {s : State} (hc : s.mem.wf)
    (hd : s.mem.msg.Below s.cfg.msgDepth.val ∧ s.mem.sym.Below s.cfg.symDepth.val ∧
      s.mem.tx.Below s.cfg.txDepth.val ∧ s.mem.rx.Below s.cfg.rxDepth.val ∧ s.mem.out.Below s.cfg.outDepth.val) :
    (softReset s).Inv where
  canonical := hc
  inDepth := hd
  marked := Marks.sound_empty _
  faultPair := ⟨rfl, rfl⟩
  accumulator := ⟨Nat.zero_le _, Nat.one_pos⟩
  waveform := ⟨Nat.zero_le _, Buf.filled_zero _⟩
  groups := ⟨Nat.zero_le _, fun j hj => absurd hj (Nat.not_lt_zero j)⟩
  window := Nat.le_refl _
  peak := Nat.zero_le _
  progress := nofun

/-- The hard reset is the soft reset of empty buffers, so it meets the invariant whatever state it finds. -/
theorem hardReset_inv (s : State) : (hardReset s).Inv :=
  softReset_inv (s := { s with mem := Memory.empty, scrRan := false }) Memory.wf_empty
    ⟨nofun, nofun, nofun, nofun, nofun⟩

/-- Fault entry discards outputs, and an output of length 0 has nothing to meet (R174). -/
theorem faultEntry_inv {s : State} (r : Running) (c : Cause) (info : Nat) (h : s.Inv) :
    (faultEntry r c info s).Inv := by
  cases r with
  | issue => exact { h with faultPair := c.code_range, progress := nofun }
  | gen =>
    exact { h with
      faultPair := c.code_range
      waveform := ⟨Nat.zero_le _, Buf.filled_zero _⟩
      progress := nofun }
  | scr => exact { h with faultPair := c.code_range, progress := nofun }
  | enc =>
    exact { h with
      faultPair := c.code_range
      waveform := ⟨Nat.zero_le _, Buf.filled_zero _⟩
      progress := nofun }
  | det => exact { h with faultPair := c.code_range, peak := Nat.zero_le _, progress := nofun }
  | dec =>
    exact { h with
      faultPair := c.code_range
      groups := ⟨Nat.zero_le _, fun j hj => absurd hj (Nat.not_lt_zero j)⟩
      progress := nofun }

/-- No register the host can write occurs in the invariant, so a register write can break it only by the soft reset. -/
theorem regWrite_inv {s : State} (i : Fin 32) (v : Word) (h : s.Inv) : (regWrite i v s).Inv := by
  rcases regWrite_cases i v s with ⟨-, e⟩ | ⟨-, e⟩ | ⟨-, e⟩ | ⟨-, e⟩ | ⟨-, e⟩ | ⟨-, e⟩ | ⟨-, e⟩ | ⟨-, e⟩ | ⟨-, e⟩ |
    ⟨-, e⟩ <;> rw [e]
  · unfold writeCtrl
    split
    · exact softReset_inv h.canonical h.inDepth
    · exact { h with }
  all_goals exact { h with }

/-- A host write stores one element below the depth of its space and marks it. -/
theorem bufWrite_inv {s : State} (b : BufId) (j : Nat) (v : BitVec b.width) (h : s.Inv) : (bufWrite b j v s).Inv := by
  have hm := bufWrite_marks_sound b j v s h.marked
  obtain ⟨hmsg, hsym, htx, hrx, hout⟩ := h.inDepth
  rcases bufWrite_cases b j v s with e | ⟨hj, x, e⟩ | ⟨hj, x, e⟩ | ⟨hj, x, e⟩ <;> rw [e] at hm ⊢
  · exact h
  · exact { h with
      canonical := Memory.wf_store_msg h.canonical _ _
      inDepth := ⟨Buf.below_store hmsg hj, hsym, htx, hrx, hout⟩
      marked := hm }
  · exact { h with
      canonical := Memory.wf_store_sym h.canonical _ _
      inDepth := ⟨hmsg, Buf.below_store hsym hj, htx, hrx, hout⟩
      marked := hm }
  · exact { h with
      canonical := Memory.wf_store_rx h.canonical _ _
      inDepth := ⟨hmsg, hsym, htx, Buf.below_store hrx hj, hout⟩
      marked := hm }

/-! ### The invariant: GEN, the symbols and ENC -/

/-- A length up to a depth of TXBUF fits its register. -/
theorem toNat_ofNat_le_txDepth {c : Config} {n : Nat} (h : n ≤ c.txDepth.val) : (BitVec.ofNat 32 n).toNat = n := by
  have := c.txDepth.isLt
  rw [BitVec.toNat_ofNat, Nat.mod_eq_of_lt (by omega)]

/-- Samples stored into TXBUF below its depth keep the invariant: no element loses its value. -/
theorem storeTx_inv {s : State} {start : Nat} {vs : List Sample} (h : s.Inv)
    (hf : start + vs.length ≤ s.cfg.txDepth.val) :
    State.Inv { s with mem := { s.mem with tx := s.mem.tx.store start vs } } := by
  obtain ⟨hmsg, hsym, htx, hrx, hout⟩ := h.inDepth
  exact { h with
    canonical := Memory.wf_store_tx h.canonical _ _
    inDepth := ⟨hmsg, hsym, Buf.below_store htx hf, hrx, hout⟩
    marked := Marks.sound_blockWritten _ _ h.marked
    waveform := ⟨h.waveform.1, h.waveform.2.store _ _⟩
    progress := fun out e =>
      have ⟨hle, hfill, hflag⟩ := h.progress out e
      ⟨hle, hfill.store _ _, hflag⟩ }

theorem execGen_inv {s t : State} (h : s.Inv) (e : execGen s = .next t) : t.Inv := by
  rcases execGen_cases s with ⟨c, info, e', -⟩ | ⟨-, -, hf, e'⟩ <;> rw [e'] at e <;> cases e
  · exact faultEntry_inv .gen c info h
  · have hl := segment_length s.cfg.num s.freq.toNat s.dur.toNat s.srate.toNat
    have hr := toNat_ofNat_le_txDepth hf
    have hfill := Buf.filled_store_zero s.mem.tx (segment s.cfg.num s.freq.toNat s.dur.toNat s.srate.toNat)
    rw [hl, ← hr] at hfill
    exact { storeTx_inv (start := 0) h (by rw [hl]; omega) with waveform := ⟨hr.trans_le hf, hfill⟩ }

/-- What has been written so far, 0 samples where no ENC is in progress, lies in TXBUF and has values. -/
theorem State.Inv.written {s : State} (h : s.Inv) :
    s.encOut.getD 0 ≤ s.cfg.txDepth.val ∧ s.mem.tx.Filled (s.encOut.getD 0) := by
  cases he : s.encOut with
  | none => exact ⟨Nat.zero_le _, Buf.filled_zero _⟩
  | some out => exact ⟨(h.progress out he).1, (h.progress out he).2.1⟩

/-- A segment that fits, appended with no fault recorded. -/
theorem appended_inv {f d : Nat} {s : State} (h : s.Inv) (hflag : s.faultFlag = false)
    (hf : s.encOut.getD 0 + count s.srate.toNat d ≤ s.cfg.txDepth.val) : (appended f d s).Inv := by
  have hl := segment_length s.cfg.num f d s.srate.toNat
  have hfill := Buf.filled_store (vs := segment s.cfg.num f d s.srate.toNat) h.written.2 (Nat.le_refl _)
  rw [hl, Nat.max_eq_right (Nat.le_add_right _ _)] at hfill
  exact { storeTx_inv (start := s.encOut.getD 0) h (by rw [hl]; exact hf) with
    progress := fun out e => by
      cases e
      exact ⟨hf, hfill, hflag⟩ }

theorem appendSegment_inv {f d : Nat} {s t : State} (h : s.Inv) (hflag : s.faultFlag = false)
    (e : appendSegment f d s = .next t) : t.Inv := by
  rcases appendSegment_cases f d s with ⟨-, e'⟩ | ⟨-, -, e'⟩ | ⟨-, hf, e'⟩ <;> rw [e'] at e <;> cases e
  · exact faultEntry_inv .enc _ _ h
  · exact faultEntry_inv .enc _ _ h
  · exact appended_inv h hflag hf

/-- The end of an ENC turns the samples written so far into TXLEN (R105). -/
theorem encFinish_inv {s : State} (h : s.Inv) : (encFinish s).Inv := by
  have hout := h.written
  have hr := toNat_ofNat_le_txDepth hout.1
  rw [← hr] at hout
  exact { h with waveform := hout, progress := nofun }

theorem encStep_inv {s t : State} (h : s.Inv) (hflag : s.faultFlag = false) (e : encStep s = .next t) : t.Inv := by
  rcases encStep_cases e with ⟨-, rfl⟩ | ⟨c, info, -, -, rfl⟩ | ⟨f, d, -, hf, rfl⟩
  · exact encFinish_inv h
  · exact faultEntry_inv .enc c info h
  · exact { appended_inv (f := f) h hflag hf with }

theorem execEnc_inv {s t : State} (h : s.Inv) (hflag : s.faultFlag = false) (e : execEnc s = .next t) : t.Inv := by
  refine execEnc_induct (P := fun u => u.Inv ∧ u.faultFlag = false) (Q := State.Inv) ?_ ?_ ?_ ?_ ?_ e
  · rintro u f d ⟨hu, hflag⟩ hf
    exact ⟨{ appended_inv (f := f) hu hflag hf with }, hflag⟩
  · rintro u c info ⟨hu, -⟩ - -
    exact faultEntry_inv .enc c info hu
  · rintro u ⟨hu, -⟩
    exact encFinish_inv hu
  · exact fun info => faultEntry_inv .enc .contractViolation info { h with }
  · refine ⟨{ h with progress := fun out e => ?_ }, hflag⟩
    cases e
    exact ⟨Nat.zero_le _, Buf.filled_zero _, hflag⟩

/-! ### The invariant: SCR and DET -/

theorem execScr_inv {s t : State} (h : s.Inv) (e : execScr s = .next t) : t.Inv := by
  rcases execScr_cases s with ⟨c, info, e', -⟩ | ⟨m, hm, -, hf, e'⟩ | ⟨j, e', -⟩ <;> rw [e'] at e <;> cases e
  · exact faultEntry_inv .scr c info h
  · obtain ⟨hmsg, hsym, htx, hrx, hout⟩ := h.inDepth
    have hl : 0 + (scramble m).length ≤ s.cfg.symDepth.val := by rw [scramble_length, hm]; omega
    exact { h with
      canonical := Memory.wf_store_sym h.canonical _ _
      inDepth := ⟨hmsg, Buf.below_store hsym hl, htx, hrx, hout⟩
      marked := Marks.sound_store_sym _ _ h.marked }

theorem execDet_inv {s t : State} (h : s.Inv) (e : execDet s = .next t) : t.Inv := by
  rcases execDet_cases s with ⟨c, info, e', -⟩ | ⟨r, -, hbin, hlen, e'⟩ | ⟨j, e', -⟩ <;> rw [e'] at e <;> cases e
  · exact faultEntry_inv .det c info h
  · have hpeak : (BitVec.ofNat 32 r.bin).toNat ≤ (BitVec.ofNat 32 r.len).toNat / 2 := by
      have := s.rxlen.isLt
      rw [BitVec.toNat_ofNat, BitVec.toNat_ofNat, Nat.mod_eq_of_lt (by omega), Nat.mod_eq_of_lt (by omega)]
      exact hbin
    exact { h with peak := hpeak }

/-! ### The invariant: DEC -/

/-- OUTBUF is canonical and no element of it lies beyond its depth. -/
structure OutInDepth (s : State) : Prop where
  rising : s.mem.out.Rising
  below : s.mem.out.Below s.cfg.outDepth.val

/-- EMIT stores below the depth where the buffer is not full (R142). -/
theorem OutInDepth.emitted {s : State} (h : OutInDepth s) (hd : Decoded s)
    (hj : s.outlen.toNat ≠ s.cfg.outDepth.val) : OutInDepth (emitted s) where
  rising := Buf.rising_store h.rising _ _
  below := Buf.below_store h.below (Nat.lt_of_le_of_ne hd.room hj)

theorem OutInDepth.faultEntry {s : State} {c : Cause} {info : Nat} (h : OutInDepth s) :
    OutInDepth (faultEntry .dec c info s) := { h with }

theorem OutInDepth.windowAction {cls : ToneClass} {i : Nat} {s t : State} (h : OutInDepth s) (hd : Decoded s)
    (e : windowAction cls i s = .ok t) : OutInDepth t := by
  rcases windowAction_cases cls i s with ⟨e', -⟩ | ⟨e', -, -, hj⟩ | ⟨b, e', -⟩ | ⟨e', -⟩ | ⟨e', -⟩ | ⟨e', -⟩ <;>
    rw [e'] at e <;> cases e
  · exact h
  · exact { h.emitted hd hj with }
  · exact { h with }

theorem OutInDepth.windowStep {i : Nat} {s t : State} (h : OutInDepth s) (hd : Decoded s)
    (e : windowStep i s = .ok t) : OutInDepth t := by
  rcases windowStep_cases i s with ⟨-, e'⟩ | ⟨-, j, -, e'⟩ | ⟨-, r, -, ⟨o, -, e'⟩ | ⟨u, hu, e'⟩⟩ <;>
    rw [e'] at e <;> cases e
  · exact { h with }
  · have h' : OutInDepth (atWindow i s) := { h with }
    exact { h'.windowAction { hd with } hu with }

/-- The windows, the flush and the conversion pass keep it, whether they go on or end the command with a fault. -/
theorem OutInDepth.decodeAll {s : State} (h : OutInDepth s) (hd : Decoded s) :
    (∃ t, decodeAll s = .ok t ∧ OutInDepth t) ∨ (∃ t, decodeAll s = .error (.next t) ∧ OutInDepth t) ∨
      ∃ f, decodeAll s = .error (.fault f) := by
  obtain ⟨hok, herr⟩ := windowSteps_induct (P := fun _ u => OutInDepth u ∧ Decoded u)
    (fun i u v hu e => ⟨hu.1.windowStep hu.2 e, hu.2.windowStep e⟩) s.wtotal.toNat 0 s ⟨h, hd⟩
  unfold Machine.decodeAll
  cases hws : windowSteps s.wtotal.toNat 0 s with
  | error o =>
    obtain ⟨k, u, -, ⟨hu, -⟩, e⟩ := herr o hws
    rcases windowStep_error e with ⟨c, info, -, -, rfl⟩ | ⟨j, -, -, rfl⟩
    · exact .inr (.inl ⟨_, rfl, OutInDepth.faultEntry { hu with }⟩)
    · exact .inr (.inr ⟨_, rfl⟩)
  | ok v =>
    obtain ⟨hv, hdv⟩ := hok v hws
    rcases flush_cases v with ⟨-, e⟩ | ⟨-, hj, e⟩ | ⟨-, -, e⟩
    · simp only [e, (hdv.flush e).1.conversion]
      exact .inl ⟨_, rfl, hv⟩
    · simp only [e, (hdv.flush e).1.conversion]
      exact .inl ⟨_, rfl, { hv.emitted hdv hj with }⟩
    · simp only [e]
      exact .inr (.inl ⟨_, rfl, hv.faultEntry⟩)

theorem OutInDepth.execDec {s t : State} (h : OutInDepth s) (e : execDec s = .next t) : OutInDepth t := by
  unfold Machine.execDec at e
  simp only at e
  split at e
  · cases e
    exact OutInDepth.faultEntry { h with }
  · split at e
    · cases e
      exact OutInDepth.faultEntry { h with }
    · rcases OutInDepth.decodeAll
        (s := { decodeStart s with
          wtotal := BitVec.ofNat 32 (windowCount (decodeStart s).rxlen.toNat (decodeStart s).srate.toNat) })
        { h with } { Decoded.decodeStart s with } with ⟨u, e', hu⟩ | ⟨u, e', hu⟩ | ⟨f, e'⟩ <;> rw [e'] at e <;> cases e
      · exact hu
      · exact hu

/-- What DEC may change, written as an update of the state before. -/
theorem DecoderFrame.eq_update {s t : State} (h : DecoderFrame s t) :
    ∃ out outlen widx wtotal accLen accVal skip, t = { s with
      mem := { s.mem with out := out }, outlen := outlen, widx := widx, wtotal := wtotal, accLen := accLen,
      accVal := accVal, skip := skip } :=
  ⟨t.mem.out, t.outlen, t.widx, t.wtotal, t.accLen, t.accVal, t.skip, by
    unfold DecoderFrame at h
    rw [← h]⟩

/-- A state that differs in DEC's results only meets the invariant when those results meet their part of it. -/
theorem DecoderFrame.inv {s t : State} (hf : DecoderFrame s t) (h : s.Inv) (ho : OutInDepth t) (hd : Decoded t)
    (hw : t.widx.toNat ≤ t.wtotal.toNat) : t.Inv := by
  obtain ⟨out, outlen, widx, wtotal, accLen, accVal, skip, rfl⟩ := hf.eq_update
  obtain ⟨cmsg, csym, ctx, crx, -⟩ := h.canonical
  obtain ⟨hmsg, hsym, htx, hrx, -⟩ := h.inDepth
  exact { h with
    canonical := ⟨cmsg, csym, ctx, crx, ho.rising⟩
    inDepth := ⟨hmsg, hsym, htx, hrx, ho.below⟩
    marked := Marks.sound_blockWritten _ _ h.marked
    accumulator := ⟨hd.len, hd.val⟩
    groups := ⟨hd.room, hd.groups⟩
    window := hw }

theorem execDec_inv {s t : State} (h : s.Inv) (e : execDec s = .next t) : t.Inv := by
  obtain ⟨-, -, -, -, rising⟩ := h.canonical
  obtain ⟨-, -, -, -, below⟩ := h.inDepth
  have ho := OutInDepth.execDec ⟨rising, below⟩ e
  rcases execDec_cases s with ⟨c, info, u, e', -, -, hf, hlen, hval, hw⟩ | ⟨u, e', hf, hd, -, -, hw⟩ | ⟨j, e', -⟩ <;>
    rw [e'] at e <;> cases e
  · have hd : Decoded { u with outlen := 0 } := ⟨hlen, hval, Nat.zero_le _, fun j hj => absurd hj (Nat.not_lt_zero j)⟩
    have hu : State.Inv { u with outlen := 0 } := DecoderFrame.inv hf h { ho with } hd hw
    exact faultEntry_inv (s := { u with outlen := 0 }) .dec c info hu
  · exact hf.inv h ho hd (by rw [hw])

/-! ### The invariant: a step -/

/-- Every instruction run with no fault recorded keeps the invariant. -/
theorem exec_inv {i : Instr} {s t : State} (h : s.Inv) (hflag : s.faultFlag = false) (e : exec i s = .next t) :
    t.Inv := by
  cases i with
  | gen => exact execGen_inv h e
  | scr => exact execScr_inv h e
  | enc => exact execEnc_inv h hflag e
  | det => exact execDet_inv h e
  | dec => exact execDec_inv h e
  | symZero => exact appendSegment_inv h hflag e
  | symOne => exact appendSegment_inv h hflag e
  | symSilence => exact appendSegment_inv h hflag e

theorem commandIssue_inv {w : Word} {s t : State} (h : s.Inv) (e : commandIssue w s = .next t) : t.Inv := by
  rcases commandIssue_cases e with rfl | rfl | ⟨i, hflag, e⟩
  · exact h
  · exact faultEntry_inv .issue .illegalCommand w.toNat h
  · exact exec_inv h hflag e

theorem takeInput_inv {inp : Input} {s t : State} (h : s.Inv) (e : takeInput inp s = .next t) : t.Inv := by
  rcases takeInput_cases e with ⟨-, rfl⟩ | ⟨r, rfl⟩ | ⟨i, v, -, -, rfl⟩ | ⟨b, j, v, -, rfl⟩ | ⟨w, -, e⟩
  · exact hardReset_inv s
  · exact { h with }
  · exact regWrite_inv i v h
  · exact bufWrite_inv b j v h
  · exact commandIssue_inv h e

/-- An ENC in progress has recorded no fault, so its next character keeps the invariant as an instruction does. -/
theorem step_inv {s t : State} (h : s.Inv) (e : step s = .next t) : t.Inv := by
  rcases step_cases e with ⟨he, e⟩ | ⟨-, -, rfl⟩ | ⟨inp, rest, -, -, e⟩
  · obtain ⟨out, hout⟩ := Option.ne_none_iff_exists'.1 he
    exact encStep_inv h (h.progress out hout).2.2 e
  · exact h
  · exact takeInput_inv (s := { s with pending := rest }) { h with } e

end Sys2Proof.Machine

/-! ### The obligations -/

namespace Sys2Proof.Proofs

open Sys2Proof.Machine

/-- Settles O19, by what a step can do: each update of the state keeps the invariant. -/
theorem stepKeepsTheInvariant : Obligations.StepKeepsTheInvariant := fun _ _ h e => step_inv h e

/-- Settles O20: neither an input nor a character of an ENC changes the parameters. -/
theorem parametersNeverChange : Obligations.ParametersNeverChange := by
  intro s t e
  rcases step_cases e with ⟨-, e⟩ | ⟨-, -, rfl⟩ | ⟨inp, rest, -, -, e⟩
  · exact encStep_cfg e
  · rfl
  · exact takeInput_cfg (s := { s with pending := rest }) e

/-- Settles O25, by everything each instruction can do. -/
theorem instructionsStopOnlyAtMissingElements : Obligations.InstructionsStopOnlyAtMissingElements := by
  intro i s
  cases i with
  | gen => rcases execGen_cases s with ⟨c, info, e, -⟩ | ⟨-, -, -, e⟩ <;> exact .inl ⟨_, e⟩
  | scr =>
    rcases execScr_cases s with ⟨c, info, e, -⟩ | ⟨m, -, -, -, e⟩ | ⟨j, e, hj, hr⟩
    · exact .inl ⟨_, e⟩
    · exact .inl ⟨_, e⟩
    · exact .inr ⟨.msg, j, e, hr, .inl ⟨rfl, rfl, hj⟩⟩
  | enc =>
    rcases execEnc_stops s with ⟨t, e⟩ | ⟨j, e, hj, hr⟩
    · exact .inl ⟨t, e⟩
    · exact .inr ⟨.sym, j, e, hr, .inr (.inl ⟨rfl, rfl, hj⟩)⟩
  | det =>
    rcases execDet_cases s with ⟨c, info, e, -⟩ | ⟨r, -, -, -, e⟩ | ⟨j, e, hj, hr⟩
    · exact .inl ⟨_, e⟩
    · exact .inl ⟨_, e⟩
    · exact .inr ⟨.rx, j, e, hr, .inr (.inr ⟨.inl rfl, rfl, hj⟩)⟩
  | dec =>
    rcases execDec_cases s with ⟨c, info, u, e, -⟩ | ⟨u, e, -⟩ | ⟨j, e, hj, hr⟩
    · exact .inl ⟨_, e⟩
    · exact .inl ⟨_, e⟩
    · exact .inr ⟨.rx, j, e, hr, .inr (.inr ⟨.inr rfl, rfl, hj⟩)⟩
  | symZero => exact .inl (appendSegment_next _ _ s)
  | symOne => exact .inl (appendSegment_next _ _ s)
  | symSilence => exact .inl (appendSegment_next _ _ s)

/-- Settles O10: a read of a reserved register replies 0, and a write goes neither to CMD nor to a register. -/
theorem reservedRegistersAreInert : Obligations.ReservedRegistersAreInert := by
  intro s i v rest hi he
  have hcmd : i ≠ 0 := by
    rintro rfl
    exact absurd hi (by decide)
  refine ⟨fun hp => ?_, fun hp => ?_⟩
  · rw [step_input he hp]
    simp only [takeInput, hostOp, regRead_reserved hi]
  · rw [step_input he hp]
    simp only [takeInput, hostOp, if_neg hcmd, regWrite_reserved hi]

/-- Settles O12: the step is the host read, which stops at an element without value and at one that is not readable. -/
theorem bufferReadStopsWhereThereIsNoValue : Obligations.BufferReadStopsWhereThereIsNoValue := by
  intro s b j rest he hp hj
  have hs : step s = bufRead b j { s with pending := rest } := step_input he hp
  rw [hs]
  refine ⟨fun hv => bufRead_noValue hj hv, fun v hv hl h => bufRead_notValid hj hv (not_readable_above ?_ h)⟩
  cases b <;> exact hl

/-- Settles O18: the reset state is what a hard reset of itself leaves. -/
theorem resetMeetsTheInvariant : Obligations.ResetMeetsTheInvariant := hardReset_inv State.reset

end Sys2Proof.Proofs
end

section
/-! PROOFS of the family 20_memory: the host's transfer from TXBUF to RXBUF, run operation by operation. -/

namespace Sys2Proof.Machine

/-! ### The operations of a transfer (R57) -/

/-- How far apart in TXBUF the samples lie that the transfer copies. -/
def strideOf (x : Xfer) : Nat :=
  match x with
  | .identity => 1
  | .decimate2 => 2

/-- How many samples the transfer copies. -/
def copiedCount (x : Xfer) (s : State) : Nat := (s.txlen.toNat + strideOf x - 1) / strideOf x

/-- The copy of one sample that has a value: a read of TXBUF and a write of RXBUF. -/
def copySample (x : Xfer) (s : State) (i : Nat) : List HostOp :=
  [.bufRead .tx (strideOf x * i), .bufWrite .rx i ((s.mem.tx.read (strideOf x * i)).getD 0)]

/-- The samples a transfer copies lie below TXLEN. -/
theorem stride_mul_lt_txlen {x : Xfer} {s : State} {i : Nat} (h : i < copiedCount x s) :
    strideOf x * i < s.txlen.toNat := by
  cases x <;> simp only [copiedCount, strideOf] at h ⊢ <;> omega

/-- Where TXBUF is filled below TXLEN, the transfer copies every sample it comes to. -/
theorem xferOps_eq {x : Xfer} {s : State} (hf : s.mem.tx.Filled s.txlen.toNat) :
    xferOps x s = (List.range (copiedCount x s)).flatMap (copySample x s) ++
      [.regWrite 13 (BitVec.ofNat 32 (copiedCount x s))] := by
  have hcopy : ∀ i ∈ List.range (copiedCount x s), (match s.mem.tx.read (strideOf x * i) with
      | some v => [HostOp.bufRead .tx (strideOf x * i), HostOp.bufWrite .rx i v]
      | none => [HostOp.bufRead .tx (strideOf x * i)]) = copySample x s i := by
    intro i hi
    obtain ⟨v, hv⟩ := Option.isSome_iff_exists.1 (hf _ (stride_mul_lt_txlen (List.mem_range.1 hi)))
    simp only [copySample, hv, Option.getD_some]
  rw [← List.flatMap_congr hcopy]
  cases x <;> rfl

/-! ### Running them -/

/-- What a transfer leaves but for RXLEN: RXBUF, the marks, the reply and the queue as given, all else as before. -/
def withTransfer (s : State) (rx : Buf 16) (marks : Marks) (reply : Option Word) (ops : List HostOp) : State :=
  { s with mem := { s.mem with rx := rx }, marks := marks, reply := reply, pending := ops.map Input.host }

/-- With no ENC in progress, the step takes the first operation of the queue. -/
theorem step_withTransfer {s : State} (he : s.encOut = none) (rx : Buf 16) (m : Marks) (r : Option Word) (op : HostOp)
    (ops : List HostOp) : step (withTransfer s rx m r (op :: ops)) = hostOp op (withTransfer s rx m r ops) :=
  step_input (s := withTransfer s rx m r (op :: ops)) he rfl

/-- RXBUF holds the first `k` samples of the transfer, and elsewhere what it held. -/
def Copied (x : Xfer) (s : State) (k : Nat) (rx : Buf 16) : Prop :=
  ∀ n, rx.read n = if n < k then s.mem.tx.read (strideOf x * n) else s.mem.rx.read n

theorem Copied.store {x : Xfer} {s : State} {k : Nat} {rx : Buf 16} {v : Sample} (h : Copied x s k rx)
    (hv : s.mem.tx.read (strideOf x * k) = some v) : Copied x s (k + 1) (rx.store k [v]) := by
  intro n
  rw [Buf.read_store_one, h n]
  rcases Nat.lt_trichotomy n k with hn | rfl | hn
  · rw [if_neg (by omega), if_pos hn, if_pos (by omega)]
  · rw [if_pos rfl, if_pos (by omega), hv]
  · rw [if_neg (by omega), if_neg (by omega), if_neg (by omega)]

/-- The two steps that copy one sample. -/
theorem run_copySample {x : Xfer} {s : State} {i : Nat} {v : Sample} {rx : Buf 16} {m : Marks} {r : Option Word}
    {rest : List HostOp} (he : s.encOut = none) (hl : strideOf x * i < s.txlen.toNat)
    (hd : s.txlen.toNat ≤ s.cfg.txDepth.val) (hi : i < s.cfg.rxDepth.val)
    (hv : s.mem.tx.read (strideOf x * i) = some v) :
    core.run 2 (withTransfer s rx m r (copySample x s i ++ rest)) =
      .next (withTransfer s (rx.store i [v]) { m with rx := m.rx.store i [0] } (some (v.setWidth 32)) rest) := by
  have hc : copySample x s i = [.bufRead .tx (strideOf x * i), .bufWrite .rx i v] := by
    rw [copySample, hv, Option.getD_some]
  have hread : step (withTransfer s rx m r (copySample x s i ++ rest)) =
      .next (withTransfer s rx m (some (v.setWidth 32)) (.bufWrite .rx i v :: rest)) := by
    rw [hc]
    exact (step_withTransfer he ..).trans (bufRead_value (b := .tx) (hl.trans_le hd) hv (readable_below hl))
  have hwrite : step (withTransfer s rx m (some (v.setWidth 32)) (.bufWrite .rx i v :: rest)) =
      .next (withTransfer s (rx.store i [v]) { m with rx := m.rx.store i [0] } (some (v.setWidth 32)) rest) :=
    (step_withTransfer he ..).trans (congrArg Host.Outcome.next (if_neg (Nat.not_le.2 hi)))
  rw [run_next hread, run_next hwrite, run_zero]

/-- The steps that copy the first `k` samples, by induction on `k`: the copy of the last sample follows the others. -/
theorem run_copySamples {x : Xfer} {s : State} (he : s.encOut = none) (hd : s.txlen.toNat ≤ s.cfg.txDepth.val)
    (hf : s.mem.tx.Filled s.txlen.toNat) (hr : copiedCount x s ≤ s.cfg.rxDepth.val) {k : Nat}
    (hk : k ≤ copiedCount x s) (rest : List HostOp) :
    ∃ rx m r, core.run ((List.range k).flatMap (copySample x s)).length
        (withTransfer s s.mem.rx s.marks s.reply ((List.range k).flatMap (copySample x s) ++ rest)) =
          .next (withTransfer s rx m r rest) ∧ Copied x s k rx := by
  induction k generalizing rest with
  | zero => exact ⟨_, _, _, run_zero _, fun n => (if_neg (Nat.not_lt_zero n)).symm⟩
  | succ k ih =>
    obtain ⟨rx, m, r, hrun, hrx⟩ := ih (by omega) (copySample x s k ++ rest)
    have hl : strideOf x * k < s.txlen.toNat := stride_mul_lt_txlen hk
    obtain ⟨v, hv⟩ := Option.isSome_iff_exists.1 (hf _ hl)
    rw [List.range_succ, List.flatMap_append, List.flatMap_singleton, List.append_assoc, List.length_append]
    exact ⟨_, _, _, (run_add_iff _ 2 _ _).2 ⟨_, hrun, run_copySample he hl hd (by omega) hv⟩, hrx.store hv⟩

/-- The whole transfer: its samples stand in RXBUF, and its last step writes RXLEN. -/
theorem run_xferOps {x : Xfer} {s : State} (he : s.encOut = none) (hd : s.txlen.toNat ≤ s.cfg.txDepth.val)
    (hf : s.mem.tx.Filled s.txlen.toNat) (hr : copiedCount x s ≤ s.cfg.rxDepth.val) :
    ∃ rx m r, core.run (xferOps x s).length { s with pending := (xferOps x s).map Input.host } =
        .next { withTransfer s rx m r [] with rxlen := BitVec.ofNat 32 (copiedCount x s) } ∧
      Copied x s (copiedCount x s) rx := by
  obtain ⟨rx, m, r, hrun, hrx⟩ :=
    run_copySamples he hd hf hr (Nat.le_refl _) [.regWrite 13 (BitVec.ofNat 32 (copiedCount x s))]
  refine ⟨rx, m, r, ?_, hrx⟩
  have hlen : step (withTransfer s rx m r [.regWrite 13 (BitVec.ofNat 32 (copiedCount x s))]) =
      .next { withTransfer s rx m r [] with rxlen := BitVec.ofNat 32 (copiedCount x s) } :=
    step_withTransfer he ..
  rw [xferOps_eq hf, List.length_append]
  exact (run_add_iff _ 1 _ _).2 ⟨_, hrun, run_next hlen⟩

end Sys2Proof.Machine

/-! ### The obligation -/

namespace Sys2Proof.Proofs

open Sys2Proof.Machine

/-- Settles O51, by the run of the whole transfer: its number of samples fits RXLEN. -/
theorem transferCopiesTheSamples : Obligations.TransferCopiesTheSamples := by
  intro s x stride hx he hd hf hr
  obtain rfl : stride = strideOf x := by rcases hx with ⟨rfl, rfl⟩ | ⟨rfl, rfl⟩ <;> rfl
  obtain ⟨rx, m, r, hrun, hrx⟩ := run_xferOps he hd hf hr
  have hlen : (BitVec.ofNat 32 (copiedCount x s)).toNat = copiedCount x s :=
    (BitVec.toNat_ofNat ..).trans (Nat.mod_eq_of_lt (hr.trans_lt (s.cfg.rxDepth.isLt.trans (by decide))))
  refine ⟨_, hrun, hlen, fun n hn => ?_, fun n hn => ?_, rfl⟩
  · exact (hrx n).trans (if_pos (hn.trans_eq hlen))
  · exact (hrx n).trans (if_neg (Nat.not_lt.2 (hlen.symm.trans_le hn)))

end Sys2Proof.Proofs
end

section
/-! PROOFS of the family 30_encoding: the decoder finds the row of a table, and `encode` writes the same row. -/

namespace Sys2Proof

/-! ### A table gives the instruction of the row whose code it is asked for -/

/-- No two rows of a table have the same code. -/
abbrev DistinctCodes {w : Nat} (rows : List (BitVec w × Instr)) : Prop := rows.Pairwise fun a b => a.1 ≠ b.1

theorem lookupRow_eq_some_iff {w : Nat} {rows : List (BitVec w × Instr)} (hd : DistinctCodes rows) (c : BitVec w)
    (i : Instr) : lookupRow rows c = some i ↔ (c, i) ∈ rows := by
  induction rows with
  | nil => simp [lookupRow]
  | cons r rest ih =>
    obtain ⟨hr, hrest⟩ := List.pairwise_cons.1 hd
    rw [lookupRow, List.mem_cons]
    split
    case isTrue h =>
      have hnot : (c, i) ∉ rest := fun hm => hr _ hm h
      simp [Prod.ext_iff, h, hnot, eq_comm]
    case isFalse h => simp [Prod.ext_iff, Ne.symm h, ih hrest]

/-! ### The two decoders read their tables (R72, R75), and `encode` writes them -/

theorem decodeCommand_eq_ok_iff (w : Word) (i : Instr) : decodeCommand w = .ok i ↔ (w, i) ∈ commandRows := by
  rw [← lookupRow_eq_some_iff (by decide), decodeCommand]
  cases lookupRow commandRows w <;> simp

theorem decodeSymbol_eq_ok_iff (c : Byte) (i : Instr) : decodeSymbol c = .ok i ↔ (c, i) ∈ symbolRows := by
  rw [← lookupRow_eq_some_iff (by decide), decodeSymbol]
  cases lookupRow symbolRows c <;> simp

/-- A code that is in no row of the symbol table is rejected by name (R76). -/
theorem decodeSymbol_eq_error {c : Byte} (h : ∀ i, (c, i) ∉ symbolRows) :
    decodeSymbol c = .error (.illegalSymbol c) := by
  have hnone : lookupRow symbolRows c = none :=
    Option.eq_none_iff_forall_ne_some.2 fun i hi => h i ((lookupRow_eq_some_iff (by decide) c i).1 hi)
  rw [decodeSymbol, hnone]

theorem encode_eq_cmd32_iff (w : Word) (i : Instr) : encode i = .cmd32 w ↔ (w, i) ∈ commandRows := by
  cases i <;> simp [encode, commandRows, eq_comm]

theorem encode_eq_sym8_iff (c : Byte) (i : Instr) : encode i = .sym8 c ↔ (c, i) ∈ symbolRows := by
  cases i <;> simp [encode, symbolRows, eq_comm]

/-- The decoder and `encode` are the two directions of one relation between coded items and instructions. -/
theorem decode_eq_ok_iff (c : Code) (i : Instr) : decode c = .ok i ↔ encode i = c := by
  cases c with
  | cmd32 w => exact (decodeCommand_eq_ok_iff w i).trans (encode_eq_cmd32_iff w i).symm
  | sym8 c => exact (decodeSymbol_eq_ok_iff c i).trans (encode_eq_sym8_iff c i).symm

/-! ### The fields of a command word -/

/-- A word is an opcode widened to 32 bits exactly when its bits 31:8 are 0 and its bits 7:0 are that opcode. -/
theorem eq_setWidth_iff_fields (w : Word) (op : Byte) :
    w = op.setWidth 32 ↔ w.extractLsb' 8 24 = 0 ∧ w.extractLsb' 0 8 = op := by
  simp only [BitVec.toNat_eq, BitVec.extractLsb'_toNat, BitVec.toNat_setWidth, BitVec.ofNat_eq_ofNat,
    BitVec.toNat_ofNat, Nat.shiftRight_eq_div_pow]
  omega

/-- The rows of R72, with each word as its opcode widened to 32 bits. -/
theorem mem_commandRows_iff (w : Word) (i : Instr) : (w, i) ∈ commandRows ↔
    (w = BitVec.setWidth 32 (0x01 : Byte) ∧ i = .gen) ∨ (w = BitVec.setWidth 32 (0x02 : Byte) ∧ i = .scr) ∨
      (w = BitVec.setWidth 32 (0x03 : Byte) ∧ i = .enc) ∨ (w = BitVec.setWidth 32 (0x04 : Byte) ∧ i = .det) ∨
      (w = BitVec.setWidth 32 (0x05 : Byte) ∧ i = .dec) := by
  simp [commandRows]

/-- The rows of R75, by the number of the code. -/
theorem mem_symbolRows_iff (c : Byte) (i : Instr) : (c, i) ∈ symbolRows ↔
    (c.toNat = 48 ∧ i = .symZero) ∨ (c.toNat = 49 ∧ i = .symOne) ∨ (c.toNat = 32 ∧ i = .symSilence) := by
  simp [symbolRows, BitVec.toNat_eq]

end Sys2Proof

/-! ### The obligations -/

namespace Sys2Proof.Proofs

/-- Settles O1: the decoder reads the rows of R72, whose words are opcodes with bits 31:8 at 0. -/
theorem commandWordSelectsByOpcode : Obligations.CommandWordSelectsByOpcode := by
  intro w i
  refine (decodeCommand_eq_ok_iff w i).trans ?_
  simp only [mem_commandRows_iff, eq_setWidth_iff_fields, and_assoc, ← and_or_left]

/-- Settles O2: the decoder reads the rows of R75, and a code in no row is rejected. -/
theorem symbolCodesAreThree : Obligations.SymbolCodesAreThree := by
  intro c
  have hok (i : Instr) := (decodeSymbol_eq_ok_iff c i).trans (mem_symbolRows_iff c i)
  refine ⟨(hok _).trans (by simp), (hok _).trans (by simp), (hok _).trans (by simp), fun h0 h1 h2 => ?_⟩
  exact decodeSymbol_eq_error fun i hi => by simp [mem_symbolRows_iff, h0, h1, h2] at hi

/-- Settles O3: `encode i` is a coded item that `encode` writes for `i`; the six words are looked up in the tables. -/
theorem encodedInstructionDecodes : Obligations.EncodedInstructionDecodes :=
  ⟨fun i _ => (decode_eq_ok_iff (encode i) i).2 rfl, by decide⟩

/-- Settles O4, by the relation that both directions share. -/
theorem decodedInstructionEncodes : Obligations.DecodedInstructionEncodes :=
  fun c i h => (decode_eq_ok_iff c i).1 h

end Sys2Proof.Proofs
end

section
/-! PROOFS of the family 40_generator: what an instruction writes; COUNT over the reals; the reference SAMPLE, by its
phase; GEN. -/

namespace Sys2Proof.Machine

/-! ### What an instruction writes, said once for all eight -/

/-- `s` with the fault registers and the progress of an ENC as in `t`: what every instruction may change. -/
def withFaultOf (s t : State) : State :=
  { s with faultFlag := t.faultFlag, faultCode := t.faultCode, faultInfo := t.faultInfo, encOut := t.encOut }

/-- `s` with the results and buffers of the instruction as in `t`: what its rule lets it write (R95, R101, R105, R127,
R145). -/
def withResultsOf (i : Instr) (s t : State) : State :=
  match i with
  | .gen | .symZero | .symOne | .symSilence =>
    { withFaultOf s t with mem := { s.mem with tx := t.mem.tx }, txlen := t.txlen }
  | .scr => { withFaultOf s t with mem := { s.mem with sym := t.mem.sym }, symlen := t.symlen, scrRan := t.scrRan }
  | .enc => { withFaultOf s t with mem := { s.mem with tx := t.mem.tx }, txlen := t.txlen, sympos := t.sympos }
  | .det => { withFaultOf s t with dbin := t.dbin, dlen := t.dlen, dclass := t.dclass }
  | .dec =>
    { withFaultOf s t with
      mem := { s.mem with out := t.mem.out }, outlen := t.outlen, widx := t.widx, wtotal := t.wtotal,
      accLen := t.accLen, accVal := t.accVal, skip := t.skip }

/-- The three symbols append alike, so one of them stands for all. -/
theorem appendSegment_eq_withResultsOf {f d : Nat} {s t : State} (h : appendSegment f d s = .next t) :
    t = withResultsOf .symZero s t := by
  rcases appendSegment_cases f d s with ⟨-, e⟩ | ⟨-, -, e⟩ | ⟨-, -, e⟩ <;> rw [e] at h <;> cases h <;> rfl

/-- An instruction writes nothing but its results, its buffers, the fault registers and the progress of an ENC. -/
theorem exec_eq_withResultsOf {i : Instr} {s t : State} (h : exec i s = .next t) : t = withResultsOf i s t := by
  cases i with
  | gen =>
    change execGen s = _ at h
    rcases execGen_cases s with ⟨_, _, e, -⟩ | ⟨-, -, -, e⟩ <;> rw [e] at h <;> cases h <;> rfl
  | scr =>
    change execScr s = _ at h
    rcases execScr_cases s with ⟨_, _, e, -⟩ | ⟨m, -, -, -, e⟩ | ⟨j, e, -⟩ <;> rw [e] at h <;> cases h <;> rfl
  | enc =>
    have hf : EncoderFrame s t := (execEnc_frame h).1
    unfold EncoderFrame at hf
    rw [← hf]
    rfl
  | det =>
    change execDet s = _ at h
    rcases execDet_cases s with ⟨_, _, e, -⟩ | ⟨r, -, -, -, e⟩ | ⟨j, e, -⟩ <;> rw [e] at h <;> cases h <;> rfl
  | dec =>
    change execDec s = _ at h
    rcases execDec_cases s with ⟨_, _, u, e, -, -, hu, -⟩ | ⟨u, e, hu, -⟩ | ⟨j, e, -⟩ <;> rw [e] at h <;> cases h
    · obtain ⟨out, outlen, widx, wtotal, accLen, accVal, skip, rfl⟩ := hu.eq_update
      rfl
    · obtain ⟨out, outlen, widx, wtotal, accLen, accVal, skip, rfl⟩ := hu.eq_update
      rfl
  | symZero => exact appendSegment_eq_withResultsOf h
  | symOne => exact appendSegment_eq_withResultsOf h
  | symSilence => exact appendSegment_eq_withResultsOf h

/-! ### GEN, its faults in their order (R95) -/

theorem execGen_zero_rate {s : State} (h : s.srate = 0) :
    execGen s = .next (faultEntry .gen .contractViolation 1 s) := by
  unfold execGen
  exact if_pos h

theorem execGen_zero_duration {s : State} (h : s.srate ≠ 0) (hd : s.dur = 0) :
    execGen s = .next (faultEntry .gen .contractViolation 2 s) := by
  unfold execGen
  exact (if_neg h).trans (if_pos hd)

theorem execGen_overflow {s : State} (h : s.srate ≠ 0) (hd : s.dur ≠ 0)
    (hf : s.cfg.txDepth.val < count s.srate.toNat s.dur.toNat) :
    execGen s = .next (faultEntry .gen .bufferOverflow 3 s) := by
  unfold execGen
  exact (if_neg h).trans ((if_neg hd).trans (if_pos hf))

/-- A segment stored in a buffer reads as its samples (R93, R95). -/
theorem read_store_segment (b : Buf 16) (num : Numerics) (f d sr : Nat) {n : Nat} (hn : n < count sr d) :
    ∃ v, (b.store 0 (segment num f d sr)).read n = some v ∧ v.toInt = numSample num f n sr := by
  refine ⟨_, ?_, numSample_toInt num f n sr⟩
  rw [Buf.read_store, if_pos ⟨Nat.zero_le n, by rwa [Nat.zero_add, segment_length]⟩, Nat.sub_zero]
  exact segment_get num f d sr n hn

/-- At and above COUNT the buffer reads as before. -/
theorem read_store_segment_above (b : Buf 16) (num : Numerics) (f d sr : Nat) {n : Nat} (hn : count sr d ≤ n) :
    (b.store 0 (segment num f d sr)).read n = b.read n :=
  Buf.read_store_outside b (.inr (by rwa [Nat.zero_add, segment_length]))

end Sys2Proof.Machine

/-! ### Rounding to nearest over the reals (R7) -/

namespace Sys2Proof.Claims

open Sys2Proof.Machine

theorem IsRne.of_abs_lt {x : ℝ} {z : ℤ} (h : |x - z| < 1 / 2) : IsRne x z := ⟨h.le, fun e => absurd e h.ne⟩

/-- `rne(-x) = -rne(x)` (R92 item 6). -/
theorem IsRne.neg {x : ℝ} {z : ℤ} (h : IsRne x z) : IsRne (-x) (-z) := by
  have e : |-x - (-z : ℤ)| = |x - z| := by rw [Int.cast_neg, neg_sub_neg, abs_sub_comm]
  unfold IsRne
  rw [e]
  exact ⟨h.1, fun ht => (h.2 ht).neg⟩

/-- Rounding does not leave an interval with integer ends (R92 item 1). -/
theorem IsRne.abs_le {x : ℝ} {z a : ℤ} (h : IsRne x z) (hx : |x| ≤ a) : |z| ≤ a := by
  have hz : |(z : ℝ)| < a + 1 := by
    have := abs_sub_abs_le_abs_sub (z : ℝ) x
    rw [abs_sub_comm] at this
    linarith [h.1]
  exact Int.lt_add_one_iff.1 (by exact_mod_cast hz)

/-- `rneDiv` is the quotient rounded down or up, by how the remainder compares with one half. -/
theorem rneDiv_neighbour (num den : ℕ) :
    (2 * (num % den) ≤ den ∧ rneDiv num den = num / den) ∨
      (den ≤ 2 * (num % den) ∧ rneDiv num den = num / den + 1) := by
  unfold rneDiv
  simp only
  split
  · exact .inl ⟨by omega, rfl⟩
  · split
    · exact .inr ⟨by omega, rfl⟩
    · split
      · exact .inl ⟨by omega, rfl⟩
      · exact .inr ⟨by omega, rfl⟩

theorem rneDiv_even_of_tie {num den : ℕ} (h : 2 * (num % den) = den) : Even (rneDiv num den) := by
  unfold rneDiv
  simp only [h, Nat.lt_irrefl, if_false]
  rw [Nat.even_iff]
  split <;> omega

theorem div_eq_quotient_add_remainder (num : ℕ) {den : ℕ} (h : 0 < den) :
    (num : ℝ) / den = (num / den : ℕ) + ((num % den : ℕ) : ℝ) / den := by
  have hd : (den : ℝ) ≠ 0 := by exact_mod_cast h.ne'
  have hmod : (den : ℝ) * (num / den : ℕ) + (num % den : ℕ) = num := by exact_mod_cast Nat.div_add_mod num den
  rw [← hmod]
  field_simp

/-- The distance of `rneDiv` from the exact quotient is that of the quotient from the nearer of its two neighbours. -/
theorem abs_div_sub_rneDiv (num : ℕ) {den : ℕ} (h : 0 < den) :
    |(num : ℝ) / den - rneDiv num den| =
      min (((num % den : ℕ) : ℝ) / den) (1 - ((num % den : ℕ) : ℝ) / den) := by
  have hd : (0 : ℝ) < den := by exact_mod_cast h
  have h0 : (0 : ℝ) ≤ ((num % den : ℕ) : ℝ) / den := by positivity
  have h1 : ((num % den : ℕ) : ℝ) / den ≤ 1 := (div_le_one hd).2 (by exact_mod_cast (Nat.mod_lt num h).le)
  rw [div_eq_quotient_add_remainder num h]
  rcases rneDiv_neighbour num den with ⟨hr, e⟩ | ⟨hr, e⟩
  · have hhalf : ((num % den : ℕ) : ℝ) / den ≤ 1 / 2 := by
      rw [div_le_div_iff₀ hd two_pos, mul_comm, one_mul]
      exact_mod_cast hr
    rw [e, add_sub_cancel_left, abs_of_nonneg h0, min_eq_left (by linarith)]
  · have hhalf : 1 / 2 ≤ ((num % den : ℕ) : ℝ) / den := by
      rw [div_le_div_iff₀ two_pos hd, mul_comm _ (2 : ℝ), one_mul]
      exact_mod_cast hr
    rw [e, Nat.cast_add_one, add_sub_add_left_eq_sub, abs_sub_comm, abs_of_nonneg (by linarith),
      min_eq_right (by linarith)]

/-- The distance is one half exactly on a tie (R90). -/
theorem abs_div_sub_rneDiv_eq_half_iff (num : ℕ) {den : ℕ} (h : 0 < den) :
    |(num : ℝ) / den - rneDiv num den| = 1 / 2 ↔ 2 * (num % den) = den := by
  have hd : (den : ℝ) ≠ 0 := by exact_mod_cast h.ne'
  have hhalf : ((num % den : ℕ) : ℝ) / den = 1 / 2 ↔ 2 * (num % den) = den := by
    rw [div_eq_div_iff hd two_ne_zero, one_mul, mul_comm]
    exact_mod_cast Iff.rfl
  rw [abs_div_sub_rneDiv num h, ← hhalf]
  generalize ((num % den : ℕ) : ℝ) / den = x
  rcases min_cases x (1 - x) with ⟨e, -⟩ | ⟨e, -⟩ <;> rw [e]
  constructor <;> intro <;> linarith

/-- `rneDiv` rounds the exact quotient. -/
theorem isRne_rneDiv (num : ℕ) {den : ℕ} (h : 0 < den) : IsRne ((num : ℝ) / den) (rneDiv num den) := by
  refine ⟨?_, fun htie => ?_⟩
  · rw [Int.cast_natCast, abs_div_sub_rneDiv num h]
    generalize ((num % den : ℕ) : ℝ) / den = x
    rcases min_cases x (1 - x) with ⟨e, _⟩ | ⟨e, _⟩ <;> linarith
  · rw [Int.cast_natCast, abs_div_sub_rneDiv_eq_half_iff num h] at htie
    exact (Int.even_coe_nat _).2 (rneDiv_even_of_tie htie)

end Sys2Proof.Claims

namespace Sys2Proof.Machine

open Sys2Proof.Claims

/-! ### The reference SAMPLE by its phase (R91, R92) -/

/-- `rne (32767 * sin (2 * pi * a / sr))` as the reference evaluates it, for the phase `a = (f * n) mod sr`. -/
def phaseSample (a sr : Nat) : Int := if 2 * a ≤ sr then (halfTurn a sr : Int) else -(halfTurn (sr - a) sr : Int)

theorem referenceSample_eq (f n sr : Nat) : referenceSample f n sr = phaseSample (f * n % sr) sr := rfl

theorem sineMagnitude_zero (b : Nat) : sineMagnitude 0 b = 0 := rfl

theorem sineMagnitude_quarter {u b : Nat} (hu : 0 < u) (h : 2 * u = b) : sineMagnitude u b = 32767 := by
  rw [sineMagnitude, if_neg hu.ne', if_pos h, Config.amp]

theorem sineMagnitude_twelfth {u b : Nat} (hu : 0 < u) (h : 6 * u = b) : sineMagnitude u b = 16384 := by
  rw [sineMagnitude, if_neg hu.ne', if_neg (by omega), if_pos h]

theorem halfTurn_low {a b : Nat} (h : 4 * a ≤ b) : halfTurn a b = sineMagnitude (2 * a) b := if_pos h

theorem halfTurn_high {a b : Nat} (h : b < 4 * a) : halfTurn a b = sineMagnitude (b - 2 * a) b :=
  if_neg (Nat.not_le.2 h)

theorem phaseSample_low {a sr : Nat} (h : 2 * a ≤ sr) : phaseSample a sr = halfTurn a sr := if_pos h

theorem phaseSample_zero (sr : Nat) : phaseSample 0 sr = 0 := by
  rw [phaseSample_low (Nat.zero_le _), halfTurn_low (Nat.zero_le _), sineMagnitude_zero]
  rfl

/-- Half a turn gives 0 (R92 item 5). -/
theorem phaseSample_half {a sr : Nat} (h : 2 * a = sr) : phaseSample a sr = 0 := by
  rcases Nat.eq_zero_or_pos a with rfl | ha
  · exact phaseSample_zero sr
  · rw [phaseSample_low h.le, halfTurn_high (by omega), h, Nat.sub_self, sineMagnitude_zero]
    rfl

theorem phaseSample_quarter {a sr : Nat} (ha : 0 < a) (h : 4 * a = sr) : phaseSample a sr = 32767 := by
  rw [phaseSample_low (by omega), halfTurn_low h.le, sineMagnitude_quarter (by omega) (by omega)]
  rfl

/-- The ties of a twelfth and of five twelfths of a turn go to the even integer (R92 item 7). -/
theorem phaseSample_twelfth {a sr : Nat} (ha : 0 < a) (h : 12 * a = sr) : phaseSample a sr = 16384 := by
  rw [phaseSample_low (by omega), halfTurn_low (by omega), sineMagnitude_twelfth (by omega) (by omega)]
  rfl

theorem phaseSample_five_twelfths {a sr : Nat} (ha : 0 < a) (h : 12 * a = 5 * sr) : phaseSample a sr = 16384 := by
  rw [phaseSample_low (by omega), halfTurn_high (by omega), sineMagnitude_twelfth (by omega) (by omega)]
  rfl

/-- The odd symmetry: the phase from the other end of the turn (R92 item 6). -/
theorem phaseSample_mirror {a sr : Nat} (h : a ≤ sr) : phaseSample (sr - a) sr = -phaseSample a sr := by
  rcases Nat.lt_trichotomy (2 * a) sr with ha | ha | ha
  · have hhigh : ¬ 2 * (sr - a) ≤ sr := by omega
    rw [phaseSample_low ha.le, phaseSample, if_neg hhigh, Nat.sub_sub_self h]
  · rw [phaseSample_half ha, phaseSample_half (by omega)]
    rfl
  · rw [phaseSample_low (by omega), phaseSample, if_neg (by omega), neg_neg]

theorem phaseSample_turn (sr : Nat) : phaseSample sr sr = 0 := by
  simpa [phaseSample_zero] using phaseSample_mirror (Nat.zero_le sr)

theorem phaseSample_three_quarters {a sr : Nat} (hsr : 0 < sr) (h : 4 * a = 3 * sr) : phaseSample a sr = -32767 := by
  have hmirror : phaseSample (sr - a) sr = 32767 := phaseSample_quarter (by omega) (by omega)
  rw [← hmirror, phaseSample_mirror (by omega), neg_neg]

theorem phaseSample_seven_twelfths {a sr : Nat} (hsr : 0 < sr) (h : 12 * a = 7 * sr) :
    phaseSample a sr = -16384 := by
  have hmirror : phaseSample (sr - a) sr = 16384 := phaseSample_five_twelfths (by omega) (by omega)
  rw [← hmirror, phaseSample_mirror (by omega), neg_neg]

/-- The phase of the mirrored frequency is the phase from the other end of the turn. -/
theorem mirror_phase (n : Nat) {f sr : Nat} (hsr : 0 < sr) (hf : f ≤ sr) :
    (sr - f) * n % sr = (sr - f * n % sr) % sr := by
  have hle : f * n % sr ≤ sr := (Nat.mod_lt _ hsr).le
  refine Nat.ModEq.add_right_cancel' (f * n) ?_
  calc (sr - f) * n + f * n = sr * n := by rw [← Nat.add_mul, Nat.sub_add_cancel hf]
    _ ≡ sr [MOD sr] := (Nat.modEq_zero_iff_dvd.2 ⟨n, rfl⟩).trans (Nat.modEq_zero_iff_dvd.2 dvd_rfl).symm
    _ = sr - f * n % sr + f * n % sr := (Nat.sub_add_cancel hle).symm
    _ ≡ sr - f * n % sr + f * n [MOD sr] := (Nat.mod_modEq _ _).add_left _

/-- The reference SAMPLE depends on the phase alone. -/
theorem referenceSample_congr {f n g m sr : Nat} (h : f * n % sr = g * m % sr) :
    referenceSample f n sr = referenceSample g m sr := congrArg (phaseSample · sr) h

theorem referenceSample_mirror (n : Nat) {f sr : Nat} (hsr : 0 < sr) (hf : f ≤ sr) :
    referenceSample (sr - f) n sr = -referenceSample f n sr := by
  have hlt : f * n % sr < sr := Nat.mod_lt _ hsr
  rw [referenceSample_eq, referenceSample_eq, mirror_phase n hsr hf, ← phaseSample_mirror hlt.le]
  rcases Nat.eq_zero_or_pos (f * n % sr) with h0 | hpos
  · rw [h0, Nat.sub_zero, Nat.mod_self, phaseSample_zero, phaseSample_turn]
  · rw [Nat.mod_eq_of_lt (Nat.sub_lt hsr hpos)]

/-- `numSample .reference` is `referenceSample` within the amplitude: the cases of `numSample` are at phase 0. -/
theorem numSample_reference (f n sr : Nat) :
    numSample .reference f n sr = max (-32767) (min 32767 (referenceSample f n sr)) := by
  unfold numSample
  split
  · rename_i h
    rw [referenceSample_eq, Nat.mul_eq_zero.2 h, Nat.zero_mod, phaseSample_zero]
    rfl
  · rfl

/-- A value within the amplitude is not clamped (R92 item 1). -/
theorem numSample_reference_of_abs_le {f n sr : Nat} {v : Int} (h : referenceSample f n sr = v) (hv : |v| ≤ 32767) :
    numSample .reference f n sr = v := by
  obtain ⟨hlow, hhigh⟩ := abs_le.1 hv
  rw [numSample_reference, h, min_eq_right hhigh, max_eq_right hlow]

/-! ### The reference SAMPLE is the rounded sine (R91) -/

theorem sineMagnitude_isRne {u b : Nat} (hb : 0 < b) (hu : 2 * u ≤ b) (h32 : b < 2 ^ 32) :
    IsRne (32767 * Real.sin (Real.pi * u / b)) (sineMagnitude u b) := by
  rcases Nat.eq_zero_or_pos u with rfl | hpos
  · exact IsRne.of_abs_lt (by norm_num [sineMagnitude_zero])
  have hu' : (u : ℝ) ≠ 0 := by exact_mod_cast hpos.ne'
  by_cases h2 : 2 * u = b
  · have hangle : Real.pi * u / b = Real.pi / 2 := by
      rw [← h2]
      push_cast
      field_simp
    rw [hangle, Real.sin_pi_div_two, sineMagnitude_quarter hpos h2]
    exact IsRne.of_abs_lt (by norm_num)
  by_cases h6 : 6 * u = b
  · have hangle : Real.pi * u / b = Real.pi / 6 := by
      rw [← h6]
      push_cast
      field_simp
    rw [hangle, Real.sin_pi_div_six, sineMagnitude_twelfth hpos h6]
    exact ⟨by norm_num [abs_le], fun _ => by decide⟩
  · obtain ⟨m, hm⟩ := sineSearch_isSome hpos (by omega) h6 (by omega : b ≤ 2 ^ 33)
    rw [sineMagnitude, if_neg hpos.ne', if_neg h2, if_neg h6, hm]
    exact IsRne.of_abs_lt (sineSearch_sound hb hu hm)

theorem halfTurn_isRne {a b : Nat} (hb : 0 < b) (ha : 2 * a ≤ b) (h32 : b < 2 ^ 32) :
    IsRne (32767 * Real.sin (2 * Real.pi * a / b)) (halfTurn a b) := by
  rcases le_or_gt (4 * a) b with h4 | h4
  · have hangle : 2 * Real.pi * a / b = Real.pi * (2 * a : Nat) / b := by
      push_cast
      ring
    rw [hangle, halfTurn_low h4]
    exact sineMagnitude_isRne hb (by omega) h32
  · have hangle : 2 * Real.pi * a / b = Real.pi - Real.pi * (b - 2 * a : Nat) / b := by
      have hb' : (b : ℝ) ≠ 0 := by exact_mod_cast hb.ne'
      rw [Nat.cast_sub ha]
      push_cast
      field_simp
      ring
    rw [hangle, Real.sin_pi_sub, halfTurn_high h4]
    exact sineMagnitude_isRne hb (by omega) h32

theorem phaseSample_isRne {a sr : Nat} (hsr : 0 < sr) (ha : a ≤ sr) (h32 : sr < 2 ^ 32) :
    IsRne (32767 * Real.sin (2 * Real.pi * a / sr)) (phaseSample a sr) := by
  rcases le_or_gt (2 * a) sr with h2 | h2
  · rw [phaseSample_low h2]
    exact halfTurn_isRne hsr h2 h32
  · have hangle : 2 * Real.pi * a / sr = 2 * Real.pi - 2 * Real.pi * (sr - a : Nat) / sr := by
      have hsr' : (sr : ℝ) ≠ 0 := by exact_mod_cast hsr.ne'
      rw [Nat.cast_sub ha]
      field_simp
      ring
    rw [hangle, Real.sin_two_pi_sub, mul_neg, phaseSample, if_neg (Nat.not_le.2 h2)]
    exact (halfTurn_isRne hsr (by omega) h32).neg

/-- Phase reduction: whole turns drop out of the angle (R92 item 4). -/
theorem sin_phase (f n : Nat) {sr : Nat} (hsr : 0 < sr) :
    Real.sin (2 * Real.pi * f * n / sr) = Real.sin (2 * Real.pi * (f * n % sr : Nat) / sr) := by
  have hsr' : (sr : ℝ) ≠ 0 := by exact_mod_cast hsr.ne'
  have hmod : (f : ℝ) * n = sr * (f * n / sr : Nat) + (f * n % sr : Nat) := by
    exact_mod_cast (Nat.div_add_mod (f * n) sr).symm
  have hangle : 2 * Real.pi * f * n / sr =
      2 * Real.pi * (f * n % sr : Nat) / sr + (f * n / sr : Nat) * (2 * Real.pi) := by
    rw [mul_assoc, hmod]
    field_simp
    ring
  rw [hangle, Real.sin_add_nat_mul_two_pi]

theorem referenceSample_isRne (f n : Nat) {sr : Nat} (hsr : 0 < sr) (h32 : sr < 2 ^ 32) :
    IsRne (32767 * Real.sin (2 * Real.pi * f * n / sr)) (referenceSample f n sr) := by
  rw [sin_phase f n hsr, referenceSample_eq]
  exact phaseSample_isRne hsr (Nat.mod_lt _ hsr).le h32

end Sys2Proof.Machine

/-! ### The obligations -/

namespace Sys2Proof.Proofs

open Sys2Proof.Machine Sys2Proof.Claims

/-- Settles O21: the operands, the parameters and the host's side are results of no instruction. -/
theorem instructionsLeaveTheirOperandsAlone : Obligations.InstructionsLeaveTheirOperandsAlone := by
  intro i s t h
  rw [exec_eq_withResultsOf h]
  cases i <;> exact ⟨rfl, rfl, rfl, rfl, rfl, rfl, rfl, rfl, rfl, rfl, rfl, rfl, rfl, rfl⟩

/-- Settles O22: each result is one of its own instruction alone. -/
theorem resultsHaveTheirWriters : Obligations.ResultsHaveTheirWriters := by
  intro i s t h
  rw [exec_eq_withResultsOf h]
  cases i <;> simp [withResultsOf, withFaultOf]

/-- Settles O27: a segment is a list of SAMPLEs, and SAMPLE is 0 at index 0 and at frequency 0. -/
theorem segmentIsItsSamples : Obligations.SegmentIsItsSamples := by
  intro num f d sr
  refine ⟨segment_length .., fun n hn => ⟨_, segment_get num f d sr n hn, numSample_toInt ..⟩, fun v hv => ?_, ?_,
    fun h => List.length_eq_zero_iff.1 ((segment_length ..).trans h)⟩
  · have hn : 0 < count sr d := by
      rw [← segment_length num f d sr]
      exact (List.getElem?_eq_some_iff.1 hv).1
    rw [segment_get num f d sr 0 hn, Option.some.injEq] at hv
    rw [← hv, numSample_toInt, numSample_first]
  · refine List.eq_replicate_iff.2 ⟨segment_length .., fun v hv => ?_⟩
    obtain ⟨n, -, rfl⟩ := List.mem_map.1 hv
    rw [numSample_silent]
    rfl

/-- Settles O28, by the clamp and the cases that `numSample` imposes whatever NUM is. -/
theorem sampleKeepsTheAdmittedProperties : Obligations.SampleKeepsTheAdmittedProperties := fun num f n sr =>
  ⟨(numSample_range num f n sr).1, (numSample_range num f n sr).2, numSample_silent num n sr,
    numSample_first num f sr⟩

/-- Settles O30: what settles lies nearer than one half, so it is no tie. -/
theorem settledSineIsTheRoundedSine : Obligations.SettledSineIsTheRoundedSine :=
  fun _ _ _ _ _ hb hu h => IsRne.of_abs_lt (sineSearch_sound hb hu h)

/-- Settles O29: the sine keeps the value within the amplitude, so the clamp of `numSample` changes nothing. -/
theorem referenceSampleIsTheRoundedSine : Obligations.ReferenceSampleIsTheRoundedSine := by
  intro f n sr hsr h32
  have h := referenceSample_isRne f n hsr h32
  have hsine : |32767 * Real.sin (2 * Real.pi * f * n / sr)| ≤ (32767 : ℤ) := by
    rw [abs_mul]
    norm_num [Real.abs_sin_le_one]
  rwa [numSample_reference_of_abs_le rfl (h.abs_le hsine)]

/-- Settles O31, by the phase `f * n % sr` on which the reference SAMPLE depends. -/
theorem referenceSampleSymmetries : Obligations.ReferenceSampleSymmetries := by
  intro f n sr hsr
  refine ⟨?_, ?_, fun hf _ => ?_, fun h => ?_, fun h => ?_, fun h => ?_, fun h => ?_, fun h => ?_, fun h => ?_⟩
  · rw [numSample_reference, numSample_reference,
      referenceSample_congr (g := f) (m := n) (by rw [Nat.add_mul, Nat.add_mul_mod_self_left])]
  · rw [numSample_reference, numSample_reference,
      referenceSample_congr (g := f) (m := n) (by rw [Nat.mul_add, Nat.add_mul_mod_self_right])]
  · rw [numSample_reference, numSample_reference, referenceSample_mirror n hsr hf.le]
    omega
  · exact numSample_reference_of_abs_le (by rw [referenceSample_eq, h, phaseSample_zero]) (by decide)
  · exact numSample_reference_of_abs_le (phaseSample_half h) (by decide)
  · exact numSample_reference_of_abs_le (phaseSample_quarter (by omega) h) (by decide)
  · exact numSample_reference_of_abs_le (phaseSample_three_quarters hsr h) (by decide)
  · exact numSample_reference_of_abs_le (phaseSample_twelfth (by omega) h) (by decide)
  · exact numSample_reference_of_abs_le (phaseSample_seven_twelfths hsr h) (by decide)

/-- Settles O37: the checks in their order, then the segment in TXBUF. -/
theorem genFollowsItsRule : Obligations.GenFollowsItsRule := by
  refine ⟨by decide, fun s => ⟨execGen_zero_rate, execGen_zero_duration, execGen_overflow, fun h hd hf => ?_⟩⟩
  exact ⟨_, execGen_completes h hd hf, toNat_ofNat_le_txDepth hf, fun n hn => read_store_segment _ _ _ _ _ hn,
    fun n hn => read_store_segment_above _ _ _ _ _ hn, rfl⟩

/-- Settles O26, by `rneDiv` at denominator 1000. -/
theorem countRoundsHalfToEven : Obligations.CountRoundsHalfToEven := by
  have hquot (sr d : ℕ) : (sr : ℝ) * d / 1000 = ((sr * d : ℕ) : ℝ) / (1000 : ℕ) := by push_cast; rfl
  refine ⟨fun sr d => ?_, fun sr d => ?_, by decide⟩
  · rw [hquot]
    exact isRne_rneDiv (sr * d) (by decide)
  · rw [hquot]
    refine (abs_div_sub_rneDiv_eq_half_iff (sr * d) (by decide)).trans ?_
    omega

end Sys2Proof.Proofs
end

section
/-! PROOFS of the family 41_encoder: SCR and its text; the characters of an ENC, one by one from a state that is written
out; the two views of ENC; the length of a waveform. -/

namespace Sys2Proof.Machine

open Sys2Proof.Claims

/-! ### Storing from element 0 on, and storing piece by piece -/

/-- What a store from element 0 on leaves: the values, and above them the old elements. -/
theorem Buf.read_store_zero {w : Nat} (b : Buf w) (vs : List (BitVec w)) (j : Nat) :
    (b.store 0 vs).read j = if j < vs.length then vs[j]? else b.read j := by
  simp [Buf.read_store]

theorem Buf.read_store_zero_of_get {w : Nat} (b : Buf w) {vs : List (BitVec w)} {j : Nat} {v : BitVec w}
    (h : vs[j]? = some v) : (b.store 0 vs).read j = some v := by
  rw [Buf.read_store_zero, if_pos (List.getElem?_eq_some_iff.1 h).1, h]

theorem Buf.store_zero {w : Nat} (b : Buf w) (vs : List (BitVec w)) :
    b.store 0 vs = Buf.run 0 vs ++ b.filter (fun e => vs.length ≤ e.1) := by
  simp [Buf.store]

theorem Buf.store_zero_nil {w : Nat} (b : Buf w) : b.store 0 [] = b := by
  simp [Buf.store_zero, Buf.run]

theorem Buf.run_append {w : Nat} (start : Nat) (us vs : List (BitVec w)) :
    Buf.run start (us ++ vs) = Buf.run start us ++ Buf.run (start + us.length) vs := by
  induction us generalizing start with
  | nil => rfl
  | cons u us ih =>
    rw [List.cons_append, Buf.run, Buf.run, ih, List.length_cons, List.cons_append, Nat.add_right_comm, Nat.add_assoc]

/-- A store that begins where a store from element 0 on has ended is one store of both. -/
theorem Buf.store_zero_append {w : Nat} (b : Buf w) (us vs : List (BitVec w)) :
    (b.store 0 us).store us.length vs = b.store 0 (us ++ vs) := by
  have hkey : ∀ e ∈ Buf.run 0 us, e.1 < us.length := fun e he => by simpa using (Buf.key_run he).2
  have hlow : (b.store 0 us).filter (fun e => e.1 < us.length) = Buf.run 0 us := by
    have hrun : (Buf.run 0 us).filter (fun e => e.1 < us.length) = Buf.run 0 us :=
      List.filter_eq_self.2 (by simpa using hkey)
    rw [Buf.store_zero, List.filter_append, hrun, List.filter_filter]
    simp
  have hhigh : (b.store 0 us).filter (fun e => us.length + vs.length ≤ e.1) =
      b.filter (fun e => (us ++ vs).length ≤ e.1) := by
    have hrun : (Buf.run 0 us).filter (fun e => us.length + vs.length ≤ e.1) = [] :=
      List.filter_eq_nil_iff.2 fun e he => by
        have := hkey e he
        rw [decide_eq_true_iff]
        omega
    rw [Buf.store_zero, List.filter_append, hrun, List.filter_filter, List.nil_append, List.length_append]
    refine List.filter_congr fun e _ => ?_
    rw [Bool.eq_iff_iff, Bool.and_eq_true, decide_eq_true_iff, decide_eq_true_iff]
    omega
  rw [Buf.store, hlow, hhigh, Buf.store_zero, Buf.run_append, Nat.zero_add]

/-! ### SCR (R100, R101) -/

theorem symbolsNeeded_eq (n : Nat) : symbolsNeeded n = 9 * n - 1 := by
  unfold symbolsNeeded
  split <;> omega

theorem execScr_long_message {s : State} (h : s.cfg.msgDepth.val < s.msglen.toNat) :
    execScr s = .next (faultEntry .scr .contractViolation 3 s) := by
  unfold execScr
  exact if_pos h

theorem execScr_overflow {s : State} (h : s.msglen.toNat ≤ s.cfg.msgDepth.val)
    (hf : s.cfg.symDepth.val < symbolsNeeded s.msglen.toNat) :
    execScr s = .next (faultEntry .scr .bufferOverflow 2 s) := by
  unfold execScr
  exact (if_neg (Nat.not_lt.2 h)).trans (if_pos hf)

/-- Character `9 * j + (7 - i)` of SCRAMBLE is bit `i` of byte `j` (R100, R79). -/
theorem scramble_bit_msb_first {m : List Byte} {j i : Nat} (hj : j < m.length) (hi : i < 8) :
    (scramble m)[9 * j + (7 - i)]? = some (if m[j].getLsbD i then 0x31 else 0x30) := by
  rw [scramble_bit m j (7 - i) hj (by omega), Nat.sub_sub_self (by omega)]
  rfl

/-! ### The tone of a character (R75, R102 to R104) -/

theorem encSymbol_of_decode {c : Byte} {i : Instr} (h : decodeSymbol c = .ok i) (p : Nat) (s : State) :
    encSymbol c p s = exec i s := by
  rcases decodeSymbol_cases h with ⟨rfl, rfl⟩ | ⟨rfl, rfl⟩ | ⟨rfl, rfl⟩ <;> rfl

theorem toneOf_cases {c : Byte} (h : toneOf c ≠ none) : c = 0x30 ∨ c = 0x31 ∨ c = 0x20 := by
  unfold toneOf at h
  by_contra hc
  simp only [not_or] at hc
  obtain ⟨h0, h1, h2⟩ := hc
  exact h (by rw [if_neg h0, if_neg h1, if_neg h2])

theorem encSymbol_of_toneOf {c : Byte} {f d : Nat} (h : toneOf c = some (f, d)) (p : Nat) (s : State) :
    encSymbol c p s = appendSegment f d s := by
  rcases toneOf_cases (c := c) (by simp [h]) with rfl | rfl | rfl <;> cases h <;> rfl

theorem encSymbol_of_toneOf_none {c : Byte} (h : toneOf c = none) (p : Nat) (s : State) :
    encSymbol c p s = .next (faultEntry .enc .invalidSymbol p s) := by
  refine encSymbol_invalid p s ?_ ?_ ?_ <;> rintro rfl <;> cases h

/-- With no ENC in progress, as many samples have been written as in one that has begun. -/
theorem appendSegment_of_no_progress {s : State} (h : s.encOut = none) (f d : Nat) :
    appendSegment f d s = appendSegment f d { s with encOut := some 0 } := by
  unfold appendSegment
  rw [h]
  rfl

/-! ### The waveform of a text (R105) -/

theorem waveform_append (num : Numerics) (sr : Nat) (text rest : List Byte) :
    waveform num sr (text ++ rest) = waveform num sr text ++ waveform num sr rest := List.flatMap_append

theorem waveform_singleton {c : Byte} {f d : Nat} (h : toneOf c = some (f, d)) (num : Numerics) (sr : Nat) :
    waveform num sr [c] = segment num f d sr := by
  simp [waveform, h]

theorem waveform_take_succ {text : List Byte} {p f d : Nat} (hp : p < text.length)
    (h : toneOf text[p] = some (f, d)) (num : Numerics) (sr : Nat) :
    waveform num sr (text.take (p + 1)) = waveform num sr (text.take p) ++ segment num f d sr := by
  rw [List.take_succ_eq_append_getElem hp, waveform_append, waveform_singleton h]

theorem legal_take_succ {text : List Byte} {p : Nat} (hp : p < text.length)
    (h : ∀ c ∈ text.take (p + 1), toneOf c ≠ none) :
    (∀ c ∈ text.take p, toneOf c ≠ none) ∧ ∃ f d, toneOf text[p] = some (f, d) := by
  rw [List.take_succ_eq_append_getElem hp, List.forall_mem_append] at h
  obtain ⟨⟨f, d⟩, htone⟩ := Option.ne_none_iff_exists'.1 (h.2 _ (List.mem_singleton.2 rfl))
  exact ⟨h.1, f, d, htone⟩

/-! ### One character of an ENC -/

theorem encStep_at {s : State} {c : Byte} (hp : s.sympos.toNat < s.symlen.toNat)
    (hc : s.mem.sym.read s.sympos.toNat = some c) : encStep s = advanceSymbol (encSymbol c s.sympos.toNat s) := by
  unfold encStep
  simp only
  rw [if_pos hp, hc]

theorem encStep_end {s : State} (h : s.symlen.toNat ≤ s.sympos.toNat) : encStep s = .next (encFinish s) := by
  unfold encStep
  exact if_neg (Nat.not_lt.2 h)

theorem advanceSymbol_next (t : State) :
    advanceSymbol (.next t) = .next (if t.encOut = none then t else { t with sympos := t.sympos + 1 }) := by
  cases h : t.encOut <;> simp [advanceSymbol, h]

theorem advanceSymbol_ended {t : State} (h : t.encOut = none) : advanceSymbol (.next t) = .next t := by
  rw [advanceSymbol_next, if_pos h]

theorem advanceSymbol_continues {t : State} (h : t.encOut ≠ none) :
    advanceSymbol (.next t) = .next { t with sympos := t.sympos + 1 } := by
  rw [advanceSymbol_next, if_neg h]

theorem encRun_ended {n : Nat} {s t : State} (h : encStep s = .next t) (ht : t.encOut = none) :
    encRun (n + 1) s = .next t := by
  simp [encRun, h, ht]

theorem encRun_fault {n : Nat} {s : State} {f : Fault} (h : encStep s = .fault f) : encRun (n + 1) s = .fault f := by
  simp only [encRun, h]

theorem encRun_refused {n : Nat} {s : State} {r : Refusal} (h : encStep s = .refused r) :
    encRun (n + 1) s = .refused r := by
  simp only [encRun, h]

theorem encRun_continues {n : Nat} {s t : State} (h : encStep s = .next t) (ht : t.encOut ≠ none) :
    encRun (n + 1) s = encRun n t := by
  have : t.encOut.isSome = true := Option.isSome_iff_ne_none.2 ht
  simp [encRun, h, this]

/-! ### ENC, its checks and its loop (R105) -/

theorem execEnc_zero_rate {s : State} (h : s.srate = 0) :
    execEnc s = .next (faultEntry .enc .contractViolation 1 { s with sympos := 0 }) := by
  unfold execEnc
  exact if_pos h

theorem execEnc_long_text {s : State} (h : s.srate ≠ 0) (hd : s.cfg.symDepth.val < s.symlen.toNat) :
    execEnc s = .next (faultEntry .enc .contractViolation 4 { s with sympos := 0 }) := by
  unfold execEnc
  exact (if_neg h).trans (if_pos hd)

theorem execEnc_eq_encRun {s : State} (h : s.srate ≠ 0) (hd : s.symlen.toNat ≤ s.cfg.symDepth.val) :
    execEnc s = encRun s.symlen.toNat { s with sympos := 0, encOut := some 0 } := by
  unfold execEnc
  exact (if_neg h).trans (if_neg (Nat.not_lt.2 hd))

/-- An ENC in progress with `n` characters to go takes them, and ends, in `n + 1` steps with nothing pending; a fault
ends it before, and the block then waits. -/
theorem run_eq_encRun {n : Nat} {s : State} (he : s.encOut ≠ none) (hp : s.pending = [])
    (hn : s.sympos.toNat + n = s.symlen.toNat) : core.run (n + 1) s = encRun n s := by
  induction n generalizing s with
  | zero => exact run_next ((step_enc he).trans (encStep_end hn.ge))
  | succ n ih =>
    cases hst : encStep s with
    | fault f => exact (run_fault ((step_enc he).trans hst)).trans (encRun_fault hst).symm
    | refused r => exact (run_refused ((step_enc he).trans hst)).trans (encRun_refused hst).symm
    | next t =>
      rw [run_next ((step_enc he).trans hst)]
      rcases encStep_cases hst with ⟨hle, -⟩ | ⟨c, info, -, -, rfl⟩ | ⟨f, d, -, -, rfl⟩
      · omega
      · exact (run_idle rfl ((faultEntry_pending ..).trans hp)).trans (encRun_ended hst rfl).symm
      · have hpos : (s.sympos + 1).toNat = s.sympos.toNat + 1 := by bv_omega
        rw [encRun_continues hst nofun]
        exact ih nofun hp (by show (s.sympos + 1).toNat + n = s.symlen.toNat; omega)

/-! ### An ENC that has taken the first characters of its text -/

/-- The state of an ENC from `s` that has encoded `text` so far. -/
def encAfter (s : State) (text : List Byte) : State :=
  { s with
    mem := { s.mem with tx := s.mem.tx.store 0 (waveform s.cfg.num s.srate.toNat text) }
    sympos := BitVec.ofNat 32 text.length
    encOut := some (waveform s.cfg.num s.srate.toNat text).length }

theorem encAfter_nil (s : State) : encAfter s [] = { s with sympos := 0, encOut := some 0 } := by
  have h : s.mem.tx.store 0 (waveform s.cfg.num s.srate.toNat []) = s.mem.tx := Buf.store_zero_nil _
  rw [encAfter, h]
  rfl

/-- Above the waveform of what has been encoded TXBUF is as it was. -/
theorem encAfter_read_above {s : State} {text : List Byte} {n : Nat}
    (h : (waveform s.cfg.num s.srate.toNat text).length ≤ n) : (encAfter s text).mem.tx.read n = s.mem.tx.read n :=
  (Buf.read_store_zero ..).trans (if_neg (Nat.not_lt.2 h))

/-- The segment of the next character goes behind the waveform so far. -/
theorem appended_encAfter {s : State} {text : List Byte} {p f d : Nat} (hp : p < text.length)
    (h : toneOf text[p] = some (f, d)) :
    { appended f d (encAfter s (text.take p)) with sympos := (encAfter s (text.take p)).sympos + 1 } =
      encAfter s (text.take (p + 1)) := by
  have hpos : BitVec.ofNat 32 (text.take p).length + 1 = BitVec.ofNat 32 (text.take (p + 1)).length := by
    rw [List.length_take_of_le hp.le, List.length_take_of_le hp, BitVec.ofNat_add p 1]
    rfl
  have htx := Buf.store_zero_append s.mem.tx (waveform s.cfg.num s.srate.toNat (text.take p))
    (segment s.cfg.num f d s.srate.toNat)
  unfold encAfter
  rw [waveform_take_succ hp h, ← htx, ← hpos, List.length_append, segment_length]
  rfl

section
variable {s : State} {text : List Byte} (hsr : s.srate ≠ 0) (hlen : text.length = s.symlen.toNat)
  (hval : ∀ p, p < text.length → s.mem.sym.read p = text[p]?)

include hlen in
theorem encAfter_sympos {p : Nat} (hp : p ≤ text.length) : (encAfter s (text.take p)).sympos.toNat = p := by
  have : p < 2 ^ 32 := (hp.trans_eq hlen).trans_lt s.symlen.isLt
  show (BitVec.ofNat 32 (text.take p).length).toNat = p
  rw [List.length_take_of_le hp, BitVec.toNat_ofNat, Nat.mod_eq_of_lt this]

include hlen hval in
/-- After `p` characters the next one is character `p` of the text. -/
theorem encStep_encAfter {p : Nat} (hp : p < text.length) :
    encStep (encAfter s (text.take p)) = advanceSymbol (encSymbol text[p] p (encAfter s (text.take p))) := by
  have hpos := encAfter_sympos hlen hp.le
  have hchar : s.mem.sym.read p = some text[p] := (hval p hp).trans (List.getElem?_eq_getElem hp)
  have hstep := encStep_at (s := encAfter s (text.take p)) (c := text[p])
    (by rw [hpos]; exact hp.trans_eq hlen) (by rw [hpos]; exact hchar)
  rwa [hpos] at hstep

include hsr hlen hval in
theorem encStep_encAfter_fits {p f d : Nat} (hp : p < text.length) (h : toneOf text[p] = some (f, d))
    (hfit : (waveform s.cfg.num s.srate.toNat (text.take (p + 1))).length ≤ s.cfg.txDepth.val) :
    encStep (encAfter s (text.take p)) = .next (encAfter s (text.take (p + 1))) := by
  rw [waveform_take_succ hp h, List.length_append, segment_length] at hfit
  rw [encStep_encAfter hlen hval hp, encSymbol_of_toneOf h, appendSegment_fits (s := encAfter s (text.take p)) hsr hfit]
  exact (advanceSymbol_continues (Option.some_ne_none _)).trans (congrArg Host.Outcome.next (appended_encAfter hp h))

include hsr hlen hval in
/-- The loop of ENC reaches character `p` when the characters before it are legal and fit. -/
theorem encRun_reaches {p : Nat} (n : Nat) (hp : p ≤ text.length) (hlegal : ∀ c ∈ text.take p, toneOf c ≠ none)
    (hfit : (waveform s.cfg.num s.srate.toNat (text.take p)).length ≤ s.cfg.txDepth.val) :
    encRun (n + p) (encAfter s []) = encRun n (encAfter s (text.take p)) := by
  induction p generalizing n with
  | zero => rfl
  | succ p ih =>
    obtain ⟨hbefore, f, d, htone⟩ := legal_take_succ hp hlegal
    have hstep := encStep_encAfter_fits hsr hlen hval hp htone hfit
    rw [waveform_take_succ hp htone, List.length_append] at hfit
    rw [← Nat.add_assoc, Nat.add_right_comm, ih (n + 1) (by omega) hbefore (by omega), encRun_continues hstep nofun]

variable (hd : s.symlen.toNat ≤ s.cfg.symDepth.val)
include hsr hlen hval hd

theorem execEnc_reaches {p : Nat} (hp : p ≤ text.length) (hlegal : ∀ c ∈ text.take p, toneOf c ≠ none)
    (hfit : (waveform s.cfg.num s.srate.toNat (text.take p)).length ≤ s.cfg.txDepth.val) :
    execEnc s = encRun (text.length - p) (encAfter s (text.take p)) := by
  rw [execEnc_eq_encRun hsr hd, ← encAfter_nil, ← encRun_reaches hsr hlen hval _ hp hlegal hfit, Nat.sub_add_cancel hp,
    hlen]

/-- A text all of whose characters are legal and fit is encoded to its end. -/
theorem execEnc_completes (hlegal : ∀ c ∈ text, toneOf c ≠ none)
    (hfit : (waveform s.cfg.num s.srate.toNat text).length ≤ s.cfg.txDepth.val) :
    execEnc s = .next (encFinish (encAfter s text)) := by
  have h := execEnc_reaches hsr hlen hval hd (Nat.le_refl _) (by rwa [List.take_length]) (by rwa [List.take_length])
  rwa [List.take_length, Nat.sub_self] at h

/-- What ENC leaves when the symbol at character `p` is the first to fault: the fault, SYMPOS at `p`, and TXBUF written
for the characters before `p` only. -/
theorem execEnc_faults_at {p info : Nat} {c : Cause} (hp : p < text.length)
    (hlegal : ∀ c ∈ text.take p, toneOf c ≠ none)
    (hfit : (waveform s.cfg.num s.srate.toNat (text.take p)).length ≤ s.cfg.txDepth.val)
    (hfault : encSymbol text[p] p (encAfter s (text.take p)) =
      .next (faultEntry .enc c info (encAfter s (text.take p)))) :
    ∃ t, execEnc s = .next t ∧ Recorded t c.code info ∧ t.sympos.toNat = p ∧ t.txlen = 0 ∧ t.encOut = none ∧
      (∀ n, (waveform s.cfg.num s.srate.toNat (text.take p)).length ≤ n → t.mem.tx.read n = s.mem.tx.read n) ∧
      OnlyEncoderChanged s t := by
  refine ⟨faultEntry .enc c info (encAfter s (text.take p)), ?_, ⟨rfl, rfl, rfl⟩, encAfter_sympos hlen hp.le, rfl, rfl,
    fun n hn => encAfter_read_above hn, rfl⟩
  have hstep := encStep_encAfter hlen hval hp
  rw [hfault, advanceSymbol_ended rfl] at hstep
  rw [execEnc_reaches hsr hlen hval hd hp.le hlegal hfit, show text.length - p = text.length - p - 1 + 1 by omega,
    encRun_ended hstep rfl]

end

/-! ### The length of a waveform (R106) -/

theorem waveform_cons (num : Numerics) (sr : Nat) (c : Byte) (text : List Byte) :
    waveform num sr (c :: text) = waveform num sr [c] ++ waveform num sr text :=
  waveform_append num sr [c] text

theorem waveform_singleton_length {c : Byte} {f d : Nat} (h : toneOf c = some (f, d)) (num : Numerics) (sr : Nat) :
    (waveform num sr [c]).length = count sr d := by
  rw [waveform_singleton h, segment_length]

/-- A legal character counts once in the sum over the three symbols. -/
theorem waveform_singleton_length_by_symbol {c : Byte} (h : toneOf c ≠ none) (num : Numerics) (sr : Nat) :
    (waveform num sr [c]).length =
      ([c].count 0x30 + [c].count 0x31) * count sr 250 + [c].count 0x20 * count sr 500 := by
  rcases toneOf_cases h with rfl | rfl | rfl
  · simpa using waveform_singleton_length (f := 36) rfl num sr
  · simpa using waveform_singleton_length (f := 196) rfl num sr
  · simpa using waveform_singleton_length (f := 0) rfl num sr

/-- A bit of a byte takes 250 ms, whatever its value. -/
theorem waveform_bitChar_length (num : Numerics) (sr : Nat) (b : Byte) (i : Nat) :
    (waveform num sr [bitChar b i]).length = count sr 250 := by
  unfold bitChar
  split
  · exact waveform_singleton_length (f := 196) rfl num sr
  · exact waveform_singleton_length (f := 36) rfl num sr

theorem waveform_bits_length (num : Numerics) (sr : Nat) (b : Byte) (bits : List Nat) :
    (waveform num sr (bits.map (bitChar b))).length = bits.length * count sr 250 := by
  induction bits with
  | nil => simp [waveform]
  | cons i bits ih =>
    rw [List.map_cons, waveform_cons, List.length_append, waveform_bitChar_length, ih, List.length_cons, Nat.succ_mul,
      Nat.add_comm]

theorem waveform_bits8_length (num : Numerics) (sr : Nat) (b : Byte) :
    (waveform num sr (bits8 b)).length = 8 * count sr 250 :=
  waveform_bits_length num sr b [7, 6, 5, 4, 3, 2, 1, 0]

/-- The text of a message takes eight bits for each byte and a silence between neighbours. -/
theorem waveform_scramble_length (num : Numerics) (sr : Nat) (m : List Byte) :
    (waveform num sr (scramble m)).length = 8 * m.length * count sr 250 + (m.length - 1) * count sr 500 := by
  induction m with
  | nil => simp [scramble, waveform]
  | cons b m ih =>
    cases m with
    | nil => simp [scramble, waveform_bits8_length]
    | cons c m =>
      have hsil : (waveform num sr [0x20]).length = count sr 500 := waveform_singleton_length (f := 0) rfl num sr
      rw [scramble_cons_cons, waveform_append, waveform_cons, List.length_append, List.length_append, ih,
        waveform_bits8_length, hsil]
      simp only [List.length_cons, Nat.add_sub_cancel]
      ring

end Sys2Proof.Machine

/-! ### The obligations -/

namespace Sys2Proof.Proofs

open Sys2Proof.Machine Sys2Proof.Claims

/-- Settles O38: the checks in their order, then SCRAMBLE of the message in SYMBUF. -/
theorem scrFollowsItsRule : Obligations.ScrFollowsItsRule := by
  refine ⟨by decide, fun s => ⟨execScr_long_message, fun hm _ hf => ?_, fun hm hf m hlen hval => ?_⟩⟩
  · exact execScr_overflow hm (by rwa [symbolsNeeded_eq])
  · have hneed : symbolsNeeded s.msglen.toNat = 9 * m.length - 1 := by rw [symbolsNeeded_eq, ← hlen]
    have htext : (scramble m).length = 9 * m.length - 1 := by rw [scramble_length, symbolsNeeded_eq]
    refine ⟨_, execScr_completes hm (by rwa [symbolsNeeded_eq]) hlen hval, ?_, fun j hj i hi => ?_, fun j hj => ?_,
      fun q hq => ?_, rfl, rfl⟩
    · have := s.cfg.symDepth.isLt
      rw [hneed]
      exact (BitVec.toNat_ofNat ..).trans (Nat.mod_eq_of_lt (by omega))
    · exact Buf.read_store_zero_of_get _ (scramble_bit_msb_first hj hi)
    · exact Buf.read_store_zero_of_get _ (scramble_space m j hj)
    · exact (Buf.read_store_zero ..).trans (if_neg (by omega))

/-- Settles O39: the three symbols are APPEND with their own tone and duration. -/
theorem symbolsAppendTheirSegments : Obligations.SymbolsAppendTheirSegments := by
  refine ⟨by decide, by decide, by decide, fun i f d hi s out hout hsr => ?_⟩
  have hexec : exec i s = appendSegment f d s := by
    rcases hi with ⟨rfl, rfl, rfl⟩ | ⟨rfl, rfl, rfl⟩ | ⟨rfl, rfl, rfl⟩ <;> rfl
  have hout' : s.encOut.getD 0 = out := by rw [hout, Option.getD_some]
  have hlen := segment_length s.cfg.num f d s.srate.toNat
  rw [hexec]
  refine ⟨fun hf => appendSegment_overflow hsr (by rwa [hout']), fun hf => ?_⟩
  refine ⟨_, appendSegment_fits hsr (by rwa [hout']), ?_, fun n hn => ⟨_, ?_, numSample_toInt ..⟩, fun n hn => ?_, rfl⟩
  · simp only [appended, hout']
  · simp only [appended, hout']
    rw [Buf.read_store_inside _ (by rwa [hlen]), ← segment_get _ _ _ _ _ hn, List.getElem?_eq_getElem (by rwa [hlen])]
  · simp only [appended, hout']
    exact Buf.read_store_outside _ (by rwa [hlen])

/-- Settles O41: the loop reaches the first character that faults, or the end of the text. -/
theorem encFollowsItsRule : Obligations.EncFollowsItsRule := by
  refine ⟨by decide, fun s => ⟨execEnc_zero_rate, execEnc_long_text, fun hsr hd text hlen hval => ⟨?_, ?_, ?_⟩⟩⟩
  · intro hlegal hfit
    have htx := toNat_ofNat_le_txDepth hfit
    refine ⟨_, execEnc_completes hsr hlen hval hd hlegal hfit, rfl, rfl, rfl, rfl, rfl, htx, fun n hn => ?_,
      fun n hn => encAfter_read_above (htx.symm.trans_le hn), rfl⟩
    exact (Buf.read_store_zero ..).trans (if_pos (hn.trans_eq htx))
  · intro p hp hlegal hfit hillegal
    have htone : toneOf text[p] = none := hillegal _ (List.getElem?_eq_getElem hp)
    exact execEnc_faults_at hsr hlen hval hd hp hlegal hfit (encSymbol_of_toneOf_none htone ..)
  · intro p hp hlegal hfit hover
    obtain ⟨hbefore, f, d, htone⟩ := legal_take_succ hp hlegal
    rw [waveform_take_succ hp htone, List.length_append, segment_length] at hover
    exact execEnc_faults_at hsr hlen hval hd hp hbefore hfit
      ((encSymbol_of_toneOf htone ..).trans (appendSegment_overflow (s := encAfter s (text.take p)) hsr hover))

/-- Settles O42, by induction on the text: a character adds its own COUNT. -/
theorem waveformLengthBySymbols : Obligations.WaveformLengthBySymbols := by
  intro num sr text hlegal
  induction text with
  | nil => simp [waveform]
  | cons c text ih =>
    obtain ⟨hc, hrest⟩ := List.forall_mem_cons.1 hlegal
    rw [waveform_cons, List.length_append, ih hrest, waveform_singleton_length_by_symbol hc,
      ← List.singleton_append (l := text), List.count_append, List.count_append, List.count_append]
    ring

/-- Settles O43: a bit is 11025 samples and a silence 22050. -/
theorem messageLengthAtDefaultRate : Obligations.MessageLengthAtDefaultRate := by
  intro num m hm
  have hpos := List.length_pos_iff.2 hm
  have hbit : count 44100 250 = 11025 := by decide
  have hsil : count 44100 500 = 22050 := by decide
  rw [waveform_scramble_length, hbit, hsil]
  omega

/-- Settles O44: past its checks ENC is its loop, and the block takes the loop step by step. -/
theorem encIsItsSymbolsOneByOne : Obligations.EncIsItsSymbolsOneByOne := by
  intro s hsr hd hp
  have hrun := run_eq_encRun (n := s.symlen.toNat) (s := { s with sympos := 0, encOut := some 0 }) nofun hp
    (Nat.zero_add _)
  exact hrun.trans (execEnc_eq_encRun hsr hd).symm

/-- Settles O14: the step is the character at SYMPOS, whose symbol always goes on. -/
theorem stepRunsTheSymbolAtSympos : Obligations.StepRunsTheSymbolAtSympos := by
  intro s c i he hp hc hd
  obtain ⟨t, ht⟩ : ∃ t, exec i s = .next t := by
    rcases decodeSymbol_cases hd with ⟨-, rfl⟩ | ⟨-, rfl⟩ | ⟨-, rfl⟩ <;> exact appendSegment_next ..
  exact ⟨t, ht, by rw [step_enc he, encStep_at hp hc, encSymbol_of_decode hd, ht, advanceSymbol_next]⟩

/-- Settles O40: APPEND checks the rate first, and takes no ENC in progress for 0 samples written. -/
theorem symbolOutsideEncIsDefined : Obligations.SymbolOutsideEncIsDefined := by
  intro i s hi
  obtain ⟨f, d, hexec⟩ := exec_symbol hi
  refine ⟨fun h => (hexec s).trans (appendSegment_zero h), fun _ he => ?_⟩
  rw [hexec, hexec, appendSegment_of_no_progress he]

end Sys2Proof.Proofs
end

section
/-! PROOFS of the family 42_detector: SLICE and CLASSIFY over the rationals; the power over the reals and the reference
PEAK; DET. -/

namespace Sys2Proof.Machine

/-! ### SLICE (R120) -/

theorem slice_first (sr a b len : Nat) : (slice sr a b len).1 = min (a * sr / 1000) len := rfl

theorem slice_length (sr a b len : Nat) :
    (slice sr a b len).2 = min (b * sr / 1000 + 1) len - min (a * sr / 1000) len := rfl

theorem mem_slice_iff (sr a b len n : Nat) :
    (slice sr a b len).1 ≤ n ∧ n < (slice sr a b len).1 + (slice sr a b len).2 ↔
      n < len ∧ a * sr < (n + 1) * 1000 ∧ n * 1000 ≤ b * sr := by
  rw [slice_first, slice_length]
  omega

/-- The first index of a window is the exact quotient, rounded down. -/
theorem floor_ms (a sr : ℕ) : ⌊(a : ℚ) * sr / 1000⌋₊ = a * sr / 1000 := by
  rw [← Nat.cast_mul]
  exact Nat.floor_div_eq_div (a * sr) 1000

/-! ### CLASSIFY (R125) -/

/-- What CLASSIFY answers, in the order of its branches: `k * sr` against 0 and `100 * n`. -/
theorem classify_cases (k n : Nat) {sr : Nat} (hsr : 0 < sr) :
    (classify k n sr = .silence ∧ k * sr = 0) ∨
    (classify k n sr = .zero ∧ 0 < k * sr ∧ k * sr < 100 * n) ∨
    (classify k n sr = .one ∧ 0 < k * sr ∧ 100 * n < k * sr) ∨
    (classify k n sr = .unclassified ∧ 0 < k * sr ∧ k * sr = 100 * n) := by
  unfold classify Config.fThr
  split
  case isTrue hk => exact .inl ⟨rfl, by rw [hk, Nat.zero_mul]⟩
  case isFalse hk =>
    have hpos : 0 < k * sr := Nat.mul_pos (Nat.pos_of_ne_zero hk) hsr
    split
    case isTrue hlow => exact .inr (.inl ⟨rfl, hpos, hlow⟩)
    case isFalse hlow =>
      split
      case isTrue hhigh => exact .inr (.inr (.inl ⟨rfl, hpos, hhigh⟩))
      case isFalse hhigh => exact .inr (.inr (.inr ⟨rfl, hpos, by omega⟩))

/-- The four bands exclude each other, so each class is its band. -/
theorem classify_iff (k : Nat) {n sr : Nat} (hn : 0 < n) (hsr : 0 < sr) :
    (classify k n sr = .silence ↔ k * sr = 0) ∧
    (classify k n sr = .zero ↔ 0 < k * sr ∧ k * sr < 100 * n) ∧
    (classify k n sr = .one ↔ 100 * n < k * sr) ∧
    (classify k n sr = .unclassified ↔ k * sr = 100 * n) := by
  rcases classify_cases k n hsr with ⟨e, h⟩ | ⟨e, h⟩ | ⟨e, h⟩ | ⟨e, h⟩ <;>
    · simp only [e, reduceCtorEq, true_iff, false_iff]
      omega

/-! ### The frequency of a bin as an exact rational (R124) -/

section
variable {n : ℕ} (hn : 0 < n) (k sr f : ℕ)
include hn

theorem frequency_eq_iff : (k * sr : ℚ) / n = f ↔ k * sr = f * n := by
  rw [div_eq_iff (Nat.cast_pos.2 hn).ne']
  exact_mod_cast Iff.rfl

theorem frequency_lt_iff : (k * sr : ℚ) / n < f ↔ k * sr < f * n := by
  rw [div_lt_iff₀ (Nat.cast_pos.2 hn)]
  exact_mod_cast Iff.rfl

theorem lt_frequency_iff : f < (k * sr : ℚ) / n ↔ f * n < k * sr := by
  rw [lt_div_iff₀ (Nat.cast_pos.2 hn)]
  exact_mod_cast Iff.rfl

end

end Sys2Proof.Machine

namespace Sys2Proof.Claims

open Sys2Proof.Machine

/-! ### The power over the real numbers (R122) and the least bin where it is maximal (R123) -/

theorem realPower_eq_cosineSum {x : List ℤ} (hx : x ≠ []) (k : ℕ) :
    realPower x k = cosineSum (autocorrelation x) k := by
  rw [(cosineSum_autocorrelation x (List.length_pos_iff.2 hx) k).2, realPower, neg_sq]

/-- All powers of an all-zero slice are 0 (R128 item 2). -/
theorem realPower_zeros {x : List ℤ} (h : ∀ v ∈ x, v = 0) (k : ℕ) : realPower x k = 0 := by
  have hget (n : ℕ) : (x.getD n 0 : ℝ) = 0 := by
    rw [List.getD_eq_getElem?_getD, Int.cast_eq_zero]
    cases hn : x[n]? with
    | none => rfl
    | some v => exact h v (List.mem_of_getElem? hn)
  simp [realPower, hget, -List.getD_eq_getElem?_getD]

/-- Bin 0 is the peak where no power exceeds its own. -/
theorem isPeak_zero {x : List ℤ} (h : ∀ j, j ≤ x.length / 2 → realPower x j ≤ realPower x 0) : IsPeak x 0 :=
  ⟨Nat.zero_le _, h, fun _ hj => absurd hj (Nat.not_lt_zero _)⟩

theorem isPeak_of_peakSearch {x : List ℤ} {fuel p k : ℕ} (hx : x ≠ [])
    (h : peakSearch fuel p (autocorrelation x) = some k) : IsPeak x k := by
  obtain ⟨hk, hmax⟩ := peakSearch_sound (List.length_pos_iff.2 hx) h
  simp only [IsPeak, realPower_eq_cosineSum hx]
  exact ⟨hk, fun j hj => (hmax j hj).1, fun j hj => (hmax j (hj.le.trans hk)).2 hj⟩

/-- For the slices RXBUF can hold the search settles, so the free value `openPeak` is never taken. -/
theorem isPeak_referencePeak {x : List ℤ} (hx : x ≠ []) (hl : x.length < 2 ^ 29) (hv : ∀ v ∈ x, |v| ≤ 2 ^ 15) :
    IsPeak x (referencePeak x) := by
  obtain ⟨k, hk⟩ := peakSearch_isSome (List.length_pos_iff.2 hx) hv hl
  have href : referencePeak x = k := by rw [referencePeak, hk]
  rw [href]
  exact isPeak_of_peakSearch hx hk

end Sys2Proof.Claims

namespace Sys2Proof.Machine

open Sys2Proof.Claims

/-- Apart from silence and one sample the reference NUM is the reference PEAK, where that is a bin of the slice. -/
theorem numPeak_reference {x : List ℤ} (hz : ¬ ∀ v ∈ x, v = 0) (h1 : x.length ≠ 1)
    (hr : referencePeak x ≤ x.length / 2) : numPeak .reference x = referencePeak x := by
  have hall : ¬ x.all (fun v => v = 0) := by simpa using hz
  rw [numPeak, if_neg (not_or.2 ⟨hall, h1⟩)]
  exact Nat.min_eq_left hr

/-! ### The analysis of a window whose samples have values -/

/-- The samples read from RXBUF are those the statements speak of. -/
theorem map_toInt_eq_samplesAt {s : State} {lo n : Nat} {x : List Sample} (h : s.mem.rx.readRun lo n = .ok x) :
    x.map BitVec.toInt = samplesAt s lo n := by
  obtain ⟨hlen, hread⟩ := Buf.readRun_eq_ok.1 h
  refine List.ext_getElem (by simp [samplesAt, hlen]) fun i hi _ => ?_
  rw [List.length_map] at hi
  simp [samplesAt, hread i (hlen ▸ hi), hi]

theorem readRun_slice_isOk {s : State} (hf : s.mem.rx.Filled s.rxlen.toNat) (a b : Nat) :
    ∃ x, s.mem.rx.readRun (slice s.srate.toNat a b s.rxlen.toNat).1
      (slice s.srate.toNat a b s.rxlen.toNat).2 = .ok x := by
  have hin := slice_inside s.srate.toNat a b s.rxlen.toNat
  exact Buf.readRun_isOk fun i hi => hf _ (by omega)

/-- The analysis gives the bin, the length and the class that the statements speak of (R120 to R125). -/
theorem analyse_eq_windowResult {s : State} (hf : s.mem.rx.Filled s.rxlen.toNat) (a b : Nat) :
    analyse a b s = .ok ⟨(windowResult s a b).1, (windowResult s a b).2.1, (windowResult s a b).2.2⟩ := by
  obtain ⟨x, hx⟩ := readRun_slice_isOk hf a b
  unfold analyse windowResult
  simp only
  split
  case isTrue => rfl
  case isFalse => rw [hx, ← map_toInt_eq_samplesAt hx]

/-! ### DET (R127) -/

theorem execDet_zero_rate {s : State} (h : s.srate = 0) :
    execDet s = .next (faultEntry .det .contractViolation 1 s) := by
  unfold execDet
  exact if_pos h

theorem execDet_long_buffer {s : State} (h : s.srate ≠ 0) (hd : s.cfg.rxDepth.val < s.rxlen.toNat) :
    execDet s = .next (faultEntry .det .contractViolation 5 s) := by
  unfold execDet
  exact (if_neg h).trans (if_pos hd)

/-- The bin and the length of an analysis fit their registers (R26, R27). -/
theorem analyse_toNat {a b : Nat} {s : State} {r : Analysis} (h : analyse a b s = .ok r) :
    (BitVec.ofNat 32 r.bin).toNat = r.bin ∧ (BitVec.ofNat 32 r.len).toNat = r.len := by
  obtain ⟨hbin, hlen⟩ := analyse_range h
  have hrx := s.rxlen.isLt
  exact ⟨(BitVec.toNat_ofNat ..).trans (Nat.mod_eq_of_lt (by omega)),
    (BitVec.toNat_ofNat ..).trans (Nat.mod_eq_of_lt (by omega))⟩

end Sys2Proof.Machine

/-! ### The obligations -/

namespace Sys2Proof.Proofs

open Sys2Proof.Machine Sys2Proof.Claims

/-- Settles O32, by the bound and the two cases that `numPeak` imposes whatever NUM is. -/
theorem peakKeepsTheAdmittedProperties : Obligations.PeakKeepsTheAdmittedProperties :=
  fun num x => ⟨numPeak_le num x, numPeak_zeros num x, numPeak_single num x⟩

/-- Settles O33: the sum that the search encloses is the power, by the autocorrelation. -/
theorem settledPeakIsTheFirstMaximum : Obligations.SettledPeakIsTheFirstMaximum :=
  fun _ _ _ _ hx h => isPeak_of_peakSearch hx h

/-- Settles O34: the two cases `numPeak` decides without the search have their first maximum at bin 0, and the search
settles every other. -/
theorem referencePeakIsTheFirstMaximum : Obligations.ReferencePeakIsTheFirstMaximum := by
  intro x hx hl hv
  by_cases hz : ∀ v ∈ x, v = 0
  · rw [numPeak_zeros _ x hz]
    exact isPeak_zero fun j _ => by rw [realPower_zeros hz, realPower_zeros hz]
  · by_cases h1 : x.length = 1
    · rw [numPeak_single _ x h1]
      refine isPeak_zero fun j hj => ?_
      obtain rfl : j = 0 := by omega
      exact le_rfl
    · have hpeak := isPeak_referencePeak hx hl fun v hm => abs_le.2 (by have := hv v hm; omega)
      rwa [numPeak_reference hz h1 hpeak.1]

/-- Settles O35: the integer quotients are the exact ones rounded down. -/
theorem sliceHoldsTheWindow : Obligations.SliceHoldsTheWindow := by
  intro sr a b len n
  rw [floor_ms, floor_ms]
  exact ⟨slice_first .., slice_length .., mem_slice_iff .., slice_inside ..⟩

/-- Settles O36: the integer comparisons are those of the frequency, multiplied by the length of the slice. -/
theorem classIsTheFrequencysBand : Obligations.ClassIsTheFrequencysBand := by
  refine ⟨fun k n sr hn hsr => ?_, fun sr => rfl, rfl, rfl, rfl, rfl⟩
  have hzero := frequency_eq_iff hn k sr 0
  have hpos := lt_frequency_iff hn k sr 0
  rw [Nat.cast_zero, Nat.zero_mul] at hzero hpos
  have hat := frequency_eq_iff hn k sr 100
  have hbelow := frequency_lt_iff hn k sr 100
  have habove := lt_frequency_iff hn k sr 100
  rw [Nat.cast_ofNat] at hat hbelow habove
  rw [hzero, hpos, hbelow, habove, hat]
  exact classify_iff k hn hsr

/-- Settles O45: the checks in their order, then the analysis of the window, which every filled RXBUF allows. -/
theorem detFollowsItsRule : Obligations.DetFollowsItsRule := by
  refine ⟨by decide, fun s => ⟨execDet_zero_rate, execDet_long_buffer, fun hsr hd hf => ?_⟩⟩
  have hwindow := analyse_eq_windowResult hf s.wstart.toNat s.wend.toNat
  obtain ⟨hbin, hlen⟩ := analyse_toNat hwindow
  exact ⟨_, execDet_completes hsr hd hwindow, by rw [hbin, hlen], rfl⟩

end Sys2Proof.Proofs
end

section
/-! PROOFS of the family 43_decoder: which faults an instruction records; DEC as the decoder over bit strings, with
windows that may lack a sample; how many windows a group takes; silence. -/

namespace Sys2Proof.Machine

open Sys2Proof.Claims

/-! ### The fault an instruction records (R165, R174) -/

/-- The command whose outputs a fault of the instruction discards: a symbol is a part of ENC. -/
def running : Instr → Running
  | .gen => .gen
  | .scr => .scr
  | .enc | .symZero | .symOne | .symSilence => .enc
  | .det => .det
  | .dec => .dec

/-- The fault registers of `t` are those of `s`. -/
structure SameFault (s t : State) : Prop where
  flag : t.faultFlag = s.faultFlag
  code : t.faultCode = s.faultCode
  info : t.faultInfo = s.faultInfo

/-- `t` is the fault entry of one of the causes that a command raises. -/
def FaultOf (r : Running) (t : State) : Prop :=
  ∃ c info u, c ≠ .malformedBitGroup ∧ c ≠ .illegalCommand ∧ t = faultEntry r c info u

theorem execEnc_fault_cases {s t : State} (h : execEnc s = .next t) : SameFault s t ∨ FaultOf .enc t :=
  execEnc_induct (P := SameFault s) (Q := fun t => SameFault s t ∨ FaultOf .enc t)
    (fun _ _ _ hu _ => { hu with }) (fun _ _ _ _ h1 h2 => .inr ⟨_, _, _, h1, h2, rfl⟩) (fun _ hu => .inl { hu with })
    (fun _ => .inr ⟨_, _, _, by decide, by decide, rfl⟩) ⟨rfl, rfl, rfl⟩ h

theorem appendSegment_fault_cases {f d : Nat} {s t : State} (h : appendSegment f d s = .next t) :
    SameFault s t ∨ FaultOf .enc t := by
  rcases appendSegment_cases f d s with ⟨-, e⟩ | ⟨-, -, e⟩ | ⟨-, -, e⟩ <;> rw [e] at h <;> cases h
  · exact .inr ⟨_, _, _, by decide, by decide, rfl⟩
  · exact .inr ⟨_, _, _, by decide, by decide, rfl⟩
  · exact .inl ⟨rfl, rfl, rfl⟩

/-- An instruction leaves the fault registers as they were, or it ends in the fault entry of its command. -/
theorem exec_fault_cases {i : Instr} {s t : State} (h : exec i s = .next t) :
    SameFault s t ∨ FaultOf (running i) t := by
  cases i with
  | gen =>
    change execGen s = _ at h
    rcases execGen_cases s with ⟨_, _, e, h1, h2⟩ | ⟨-, -, -, e⟩ <;> rw [e] at h <;> cases h
    · exact .inr ⟨_, _, _, h1, h2, rfl⟩
    · exact .inl ⟨rfl, rfl, rfl⟩
  | scr =>
    change execScr s = _ at h
    rcases execScr_cases s with ⟨_, _, e, h1, h2⟩ | ⟨m, -, -, -, e⟩ | ⟨j, e, -⟩ <;> rw [e] at h <;> cases h
    · exact .inr ⟨_, _, _, h1, h2, rfl⟩
    · exact .inl ⟨rfl, rfl, rfl⟩
  | enc => exact execEnc_fault_cases h
  | det =>
    change execDet s = _ at h
    rcases execDet_cases s with ⟨_, _, e, h1, h2⟩ | ⟨r, -, -, -, e⟩ | ⟨j, e, -⟩ <;> rw [e] at h <;> cases h
    · exact .inr ⟨_, _, _, h1, h2, rfl⟩
    · exact .inl ⟨rfl, rfl, rfl⟩
  | dec =>
    change execDec s = _ at h
    rcases execDec_cases s with ⟨_, _, u, e, h1, h2, -⟩ | ⟨u, e, hu, -⟩ | ⟨j, e, -⟩ <;> rw [e] at h <;> cases h
    · exact .inr ⟨_, _, _, h1, h2, rfl⟩
    · obtain ⟨out, outlen, widx, wtotal, accLen, accVal, skip, rfl⟩ := hu.eq_update
      exact .inl ⟨rfl, rfl, rfl⟩
  | symZero => exact appendSegment_fault_cases h
  | symOne => exact appendSegment_fault_cases h
  | symSilence => exact appendSegment_fault_cases h

/-- FAULTCODE 2 is the code of MalformedBitGroup alone (R165). -/
theorem Cause.code_eq_two_iff (c : Cause) : c.code = 2 ↔ c = .malformedBitGroup := by
  cases c <;> decide

/-! ### A window of the decoder over bit strings -/

theorem decodeWindow_skipped {d : Text} (h : d.skip = true) (strict : Bool) (depth i : Nat) (c : ToneClass) :
    decodeWindow strict depth i c d = .ok { d with skip := false } := by
  unfold decodeWindow
  exact if_pos h

/-- Everything a window that is not skipped can do (R139 to R142): nothing, the end of a group, a bit, or a fault. -/
theorem decodeWindow_cases {d : Text} (h : d.skip = false) (strict : Bool) (depth i : Nat) (c : ToneClass) :
    (decodeWindow strict depth i c d = .ok d ∧
      ((c = .silence ∧ d.acc = []) ∨ (c = .unclassified ∧ strict = false))) ∨
    (decodeWindow strict depth i c d = .ok { acc := [], groups := d.groups ++ [d.acc], skip := true } ∧
      c = .silence ∧ d.acc ≠ [] ∧ d.groups.length ≠ depth) ∨
    (∃ b : Bool, decodeWindow strict depth i c d = .ok { d with acc := d.acc ++ [b] } ∧
      c = (if b then .one else .zero) ∧ d.acc.length ≠ 24) ∨
    ∃ cause info, decodeWindow strict depth i c d = .error ⟨cause, info, i, d⟩ ∧
      ((cause = .bufferOverflow ∧ info = 5 ∧ c = .silence ∧ d.acc ≠ [] ∧ d.groups.length = depth) ∨
        (cause = .groupOverflow ∧ info = i ∧ (c = .zero ∨ c = .one) ∧ d.acc.length = 24) ∨
        (cause = .unclassifiedFrequency ∧ info = i ∧ c = .unclassified ∧ strict = true)) := by
  unfold decodeWindow
  rw [if_neg (by rw [h]; decide)]
  cases c with
  | silence =>
    by_cases ha : d.acc = []
    · exact .inl ⟨if_pos ha, .inl ⟨rfl, ha⟩⟩
    · by_cases hg : d.groups.length = depth
      · exact .inr (.inr (.inr ⟨_, _, (if_neg ha).trans (if_pos hg), .inl ⟨rfl, rfl, rfl, ha, hg⟩⟩))
      · exact .inr (.inl ⟨(if_neg ha).trans (if_neg hg), rfl, ha, hg⟩)
  | zero =>
    by_cases hl : d.acc.length = 24
    · exact .inr (.inr (.inr ⟨_, _, if_pos hl, .inr (.inl ⟨rfl, rfl, .inl rfl, hl⟩)⟩))
    · exact .inr (.inr (.inl ⟨false, if_neg hl, rfl, hl⟩))
  | one =>
    by_cases hl : d.acc.length = 24
    · exact .inr (.inr (.inr ⟨_, _, if_pos hl, .inr (.inl ⟨rfl, rfl, .inr rfl, hl⟩)⟩))
    · exact .inr (.inr (.inl ⟨true, if_neg hl, rfl, hl⟩))
  | unclassified =>
    cases hs : strict
    · exact .inl ⟨if_neg (by decide), .inr ⟨rfl, rfl⟩⟩
    · exact .inr (.inr (.inr ⟨_, _, if_pos rfl, .inr (.inr ⟨rfl, rfl, rfl, rfl⟩)⟩))

/-! ### The decoder over bit strings, with windows that may lack a sample -/

/-- How a decode ends early: at a sample of RXBUF without value, or with a fault of the decoder. -/
inductive Ending
  | missing (j : Nat)
  | stop (e : Stop)

/-- The decoder's state at its start (R135). -/
def startText : Text := { acc := [], groups := [], skip := false }

/-- Window `i`, of the class read or with a sample missing. A window that is skipped is not read (R137). -/
def readWindow (strict : Bool) (depth i : Nat) (c : Except Nat ToneClass) (d : Text) : Except Ending Text :=
  match c with
  | .ok c => (decodeWindow strict depth i c d).mapError .stop
  | .error j => if d.skip then .ok { d with skip := false } else .error (.missing j)

theorem readWindow_skipped {d : Text} (h : d.skip = true) (strict : Bool) (depth i : Nat) (c : Except Nat ToneClass) :
    readWindow strict depth i c d = .ok { d with skip := false } := by
  cases c with
  | ok c => exact congrArg (Except.mapError _) (decodeWindow_skipped h strict depth i c)
  | error j => exact if_pos h

theorem readWindow_missing {d : Text} (h : d.skip = false) (strict : Bool) (depth i j : Nat) :
    readWindow strict depth i (.error j) d = .error (.missing j) :=
  if_neg (by rw [h]; decide)

/-- The windows from index `i` on, in order. -/
def readWindows (strict : Bool) (depth i : Nat) (cs : List (Except Nat ToneClass)) (d : Text) : Except Ending Text :=
  match cs with
  | [] => .ok d
  | c :: cs =>
    match readWindow strict depth i c d with
    | .error e => .error e
    | .ok d => readWindows strict depth (i + 1) cs d

/-- The final flush after `n` windows (R143). -/
def flushText (depth n : Nat) (d : Text) : Except Stop Text :=
  if d.acc = [] then .ok d
  else if d.groups.length = depth then .error { cause := .bufferOverflow, info := 5, window := n, text := d }
  else .ok { d with acc := [], groups := d.groups ++ [d.acc] }

/-- All windows and the final flush. -/
def readText (strict : Bool) (depth : Nat) (cs : List (Except Nat ToneClass)) : Except Ending Text :=
  (readWindows strict depth 0 cs startText).bind fun d => (flushText depth cs.length d).mapError .stop

theorem readWindows_map_ok (strict : Bool) (depth i : Nat) (cs : List ToneClass) (d : Text) :
    readWindows strict depth i (cs.map .ok) d = (decodeWindows strict depth i cs d).mapError .stop := by
  induction cs generalizing i d with
  | nil => rfl
  | cons c cs ih =>
    rw [List.map_cons, readWindows, decodeWindows, readWindow]
    cases decodeWindow strict depth i c d with
    | error e => rfl
    | ok d => exact ih (i + 1) d

theorem decodeText_eq_bind (strict : Bool) (depth : Nat) (cs : List ToneClass) :
    decodeText strict depth cs = (decodeWindows strict depth 0 cs startText).bind (flushText depth cs.length) := by
  rw [decodeText, startText]
  cases decodeWindows strict depth 0 cs { acc := [], groups := [], skip := false } <;> rfl

/-- Where every window has its samples, this is the decoder of the statements. -/
theorem readText_map_ok (strict : Bool) (depth : Nat) (cs : List ToneClass) :
    readText strict depth (cs.map .ok) = (decodeText strict depth cs).mapError .stop := by
  rw [readText, readWindows_map_ok, decodeText_eq_bind, List.length_map]
  cases decodeWindows strict depth 0 cs startText <;> rfl

/-! ### What the decoder holds before each window (R146) -/

/-- Before window `i`: at most 24 bits are collected, the groups fit, and every group has taken three windows, the last
of which is still to be skipped while SKIP is set. -/
structure Paced (depth i : Nat) (d : Text) : Prop where
  bits : d.acc.length ≤ 24
  room : d.groups.length ≤ depth
  pace : 3 * d.groups.length + d.acc.length ≤ i + d.skip.toNat
  idle : d.skip = true → d.acc = []

theorem Paced.startText (depth : Nat) : Paced depth 0 startText :=
  ⟨Nat.zero_le _, Nat.zero_le _, Nat.zero_le _, fun h => nomatch h⟩

/-- A window that is skipped is the third of its group. -/
theorem Paced.skipped {depth i : Nat} {d : Text} (h : Paced depth i d) (hs : d.skip = true) :
    Paced depth (i + 1) { d with skip := false } := by
  have hpace := h.pace
  rw [hs, Bool.toNat_true] at hpace
  exact ⟨h.bits, h.room, hpace, fun h => nomatch h⟩

/-- Every window that goes on keeps it. One that faults leaves the text as it was, and it takes strict mode, 24 windows
before it, or three windows before it for each group of OUTBUF. -/
theorem Paced.decodeWindow {depth i : Nat} {d : Text} (h : Paced depth i d) (strict : Bool) (c : ToneClass) :
    (∃ d', decodeWindow strict depth i c d = .ok d' ∧ Paced depth (i + 1) d') ∨
      ∃ cause info, decodeWindow strict depth i c d = .error ⟨cause, info, i, d⟩ ∧
        (strict = true ∨ 24 ≤ i ∨ 3 * depth ≤ i) := by
  cases hs : d.skip with
  | true => exact .inl ⟨_, decodeWindow_skipped hs .., h.skipped hs⟩
  | false =>
    obtain ⟨hbits, hroom, hpace, hidle⟩ := h
    rw [hs, Bool.toNat_false] at hpace
    rcases decodeWindow_cases hs strict depth i c with ⟨e, -⟩ | ⟨e, -, ha, hg⟩ | ⟨b, e, -, hl⟩ | ⟨cause, info, e, hwhy⟩
    · exact .inl ⟨d, e, hbits, hroom, by rw [hs, Bool.toNat_false]; omega, hidle⟩
    · have hpos := List.length_pos_of_ne_nil ha
      refine .inl ⟨_, e, Nat.zero_le _, ?_, ?_, fun _ => rfl⟩ <;>
        simp only [List.length_append, List.length_singleton, List.length_nil, Bool.toNat_true] <;> omega
    · refine .inl ⟨_, e, ?_, hroom, ?_, fun h => by rw [hs] at h; cases h⟩ <;>
        simp only [List.length_append, List.length_singleton, hs, Bool.toNat_false] <;> omega
    · refine .inr ⟨cause, info, e, ?_⟩
      rcases hwhy with ⟨-, -, -, -, hg⟩ | ⟨-, -, -, hl⟩ | ⟨-, -, -, ht⟩
      · exact .inr (.inr (by omega))
      · exact .inr (.inl (by omega))
      · exact .inl ht

/-- The same for a window that may lack a sample. -/
theorem Paced.readWindow {depth i : Nat} {d : Text} (h : Paced depth i d) (strict : Bool)
    (c : Except Nat ToneClass) :
    (∃ d', readWindow strict depth i c d = .ok d' ∧ Paced depth (i + 1) d') ∨
      (∃ j, readWindow strict depth i c d = .error (.missing j)) ∨
      ∃ cause info, readWindow strict depth i c d = .error (.stop ⟨cause, info, i, d⟩) := by
  cases c with
  | ok c =>
    unfold Machine.readWindow
    rcases h.decodeWindow strict c with ⟨d', e, hd⟩ | ⟨cause, info, e, -⟩ <;> simp only [e]
    · exact .inl ⟨d', rfl, hd⟩
    · exact .inr (.inr ⟨cause, info, rfl⟩)
  | error j =>
    cases hs : d.skip with
    | true => exact .inl ⟨_, readWindow_skipped hs .., h.skipped hs⟩
    | false => exact .inr (.inl ⟨j, readWindow_missing hs ..⟩)

/-- All windows: the text at the end, or at the window of the fault. -/
theorem Paced.readWindows {depth i : Nat} {d : Text} (h : Paced depth i d) (strict : Bool)
    (cs : List (Except Nat ToneClass)) :
    (∃ d', readWindows strict depth i cs d = .ok d' ∧ Paced depth (i + cs.length) d') ∨
      (∃ j, readWindows strict depth i cs d = .error (.missing j)) ∨
      ∃ e, readWindows strict depth i cs d = .error (.stop e) ∧ e.window ≤ i + cs.length ∧
        Paced depth e.window e.text := by
  induction cs generalizing i d with
  | nil => exact .inl ⟨d, rfl, h⟩
  | cons c cs ih =>
    rw [Machine.readWindows, List.length_cons, ← Nat.succ_add_eq_add_succ i cs.length]
    rcases h.readWindow strict c with ⟨d', e, hd⟩ | ⟨j, e⟩ | ⟨cause, info, e⟩ <;> rw [e]
    · exact ih hd
    · exact .inr (.inl ⟨j, rfl⟩)
    · exact .inr (.inr ⟨_, rfl, (Nat.le_succ i).trans (Nat.le_add_right _ _), h⟩)

/-- What the decoder has at the end, after `n` windows: no bits left, and a group for every three windows or part of
it. -/
structure Finished (depth n : Nat) (d : Text) : Prop where
  empty : d.acc = []
  room : d.groups.length ≤ depth
  pace : 3 * d.groups.length ≤ n + 2

theorem Paced.flushText {depth n : Nat} {d : Text} (h : Paced depth n d) :
    (∃ d', flushText depth n d = .ok d' ∧ Finished depth n d') ∨
      (flushText depth n d = .error ⟨.bufferOverflow, 5, n, d⟩ ∧ 3 * depth < n) := by
  obtain ⟨-, hroom, hpace, hidle⟩ := h
  unfold Machine.flushText
  by_cases ha : d.acc = []
  · have := Bool.toNat_le d.skip
    exact .inl ⟨d, if_pos ha, ha, hroom, by omega⟩
  · rw [if_neg ha]
    have hs : d.skip = false := by simpa using mt hidle ha
    have hpos := List.length_pos_of_ne_nil ha
    rw [hs, Bool.toNat_false] at hpace
    by_cases hg : d.groups.length = depth
    · exact .inr ⟨if_pos hg, by omega⟩
    · refine .inl ⟨_, if_neg hg, rfl, ?_, ?_⟩ <;> simp only [List.length_append, List.length_singleton] <;> omega

theorem readText_cases (strict : Bool) (depth : Nat) (cs : List (Except Nat ToneClass)) :
    (∃ d, readText strict depth cs = .ok d ∧ Finished depth cs.length d) ∨
      (∃ j, readText strict depth cs = .error (.missing j)) ∨
      ∃ e, readText strict depth cs = .error (.stop e) ∧ e.window ≤ cs.length ∧ Paced depth e.window e.text := by
  have hwindows := (Paced.startText depth).readWindows strict cs
  rw [Nat.zero_add] at hwindows
  unfold readText
  rcases hwindows with ⟨d, e, hd⟩ | ⟨j, e⟩ | ⟨stop, e, hw, hp⟩ <;> rw [e]
  · rcases hd.flushText with ⟨d', e', hd'⟩ | ⟨e', -⟩
    · exact .inl ⟨d', congrArg (Except.mapError _) e', hd'⟩
    · exact .inr (.inr ⟨_, congrArg (Except.mapError _) e', Nat.le_refl _, hd⟩)
  · exact .inr (.inl ⟨j, rfl⟩)
  · exact .inr (.inr ⟨stop, rfl, hw, hp⟩)

theorem Paced.decodeWindows_completes {depth i : Nat} {d : Text} (h : Paced depth i d) {cs : List ToneClass}
    (h24 : i + cs.length ≤ 24) (hroom : i + cs.length ≤ 3 * depth) :
    ∃ d', decodeWindows false depth i cs d = .ok d' ∧ Paced depth (i + cs.length) d' := by
  induction cs generalizing i d with
  | nil => exact ⟨d, rfl, h⟩
  | cons c cs ih =>
    rw [List.length_cons, ← Nat.succ_add_eq_add_succ] at h24 hroom ⊢
    rcases h.decodeWindow false c with ⟨d', e, hd⟩ | ⟨-, -, -, hstrict | hi | hi⟩
    · rw [decodeWindows, e]
      exact ih hd h24 hroom
    · cases hstrict
    · omega
    · omega

/-- With strict mode off, few windows decode without a fault. -/
theorem decodeText_completes {depth : Nat} {cs : List ToneClass} (h24 : cs.length ≤ 24)
    (hroom : cs.length ≤ 3 * depth) : ∃ d, decodeText false depth cs = .ok d := by
  obtain ⟨d, e, hd⟩ := (Paced.startText depth).decodeWindows_completes (cs := cs) (by omega) (by omega)
  rw [Nat.zero_add] at hd
  rw [decodeText_eq_bind, e]
  rcases hd.flushText with ⟨d', e', -⟩ | ⟨-, hn⟩
  · exact ⟨d', e'⟩
  · omega

/-! ### Bit strings as registers hold them (R78, R140) -/

theorem bitsValue_append (bits : List Bool) (b : Bool) : bitsValue (bits ++ [b]) = 2 * bitsValue bits + b.toNat := by
  simp [bitsValue]

theorem bitsValue_lt (bits : List Bool) : bitsValue bits < 2 ^ bits.length := by
  induction bits using List.reverseRecOn with
  | nil => exact Nat.one_pos
  | append_singleton bits b ih =>
    have := Bool.toNat_le b
    rw [bitsValue_append, List.length_append, List.length_singleton, Nat.pow_succ]
    omega

/-- Up to 24 bits fit the accumulator. -/
theorem accumulator_toNat {bits : List Bool} (h : bits.length ≤ 24) :
    (BitVec.ofNat 5 bits.length).toNat = bits.length ∧ (BitVec.ofNat 24 (bitsValue bits)).toNat = bitsValue bits := by
  have hv : bitsValue bits < 2 ^ 24 := (bitsValue_lt bits).trans_le (Nat.pow_le_pow_right (by decide) h)
  exact ⟨(BitVec.toNat_ofNat ..).trans (Nat.mod_eq_of_lt (by omega)),
    (BitVec.toNat_ofNat ..).trans (Nat.mod_eq_of_lt hv)⟩

/-! ### The registers and OUTBUF while the decoder holds a text -/

/-- `s` in the DEC whose window index is `i` and whose decoder holds `d` (R135, R136). -/
def decAfter (s : State) (i : Nat) (d : Text) : State :=
  { s with
    mem := { s.mem with out := s.mem.out.store 0 (d.groups.map groupWord) }
    outlen := BitVec.ofNat 32 d.groups.length
    widx := BitVec.ofNat 32 i
    wtotal := BitVec.ofNat 32 (windowCount s.rxlen.toNat s.srate.toNat)
    accLen := BitVec.ofNat 5 d.acc.length
    accVal := BitVec.ofNat 24 (bitsValue d.acc)
    skip := d.skip }

theorem decAfter_startText (s : State) : decAfter s 0 startText =
    { decodeStart s with wtotal := BitVec.ofNat 32 (windowCount s.rxlen.toNat s.srate.toNat) } := by
  simp [decAfter, startText, Buf.store_zero_nil, decodeStart, emptyAcc, bitsValue]

theorem accLen_decAfter_eq_zero_iff {s : State} {i : Nat} {d : Text} (h : d.acc.length ≤ 24) :
    (decAfter s i d).accLen = 0 ↔ d.acc = [] := by
  rw [← List.length_eq_zero_iff, ← BitVec.toNat_inj]
  change (BitVec.ofNat 5 d.acc.length).toNat = 0 ↔ _
  rw [(accumulator_toNat h).1]

theorem outlen_decAfter {s : State} {i : Nat} {d : Text} (h : d.groups.length ≤ s.cfg.outDepth.val) :
    (decAfter s i d).outlen.toNat = d.groups.length :=
  (BitVec.toNat_ofNat ..).trans (Nat.mod_eq_of_lt (h.trans_lt s.cfg.outDepth.isLt))

/-- A bit appended to the accumulator is one appended to the bit string. -/
theorem bitAppended_decAfter {d : Text} (h : d.acc.length ≤ 24) (s : State) (i : Nat) (b : Bool) :
    bitAppended b (decAfter s i d) = decAfter s i { d with acc := d.acc ++ [b] } := by
  obtain ⟨hlen, hval⟩ := accumulator_toNat h
  simp [bitAppended, decAfter, hlen, hval, bitsValue_append]

/-- EMIT and emptying the accumulator end the bit string as a group. -/
theorem emitted_decAfter {s : State} {d : Text} (hb : d.acc.length ≤ 24)
    (hg : d.groups.length ≤ s.cfg.outDepth.val) (i : Nat) :
    emptyAcc (emitted (decAfter s i d)) =
      decAfter s i { acc := [], groups := d.groups ++ [d.acc], skip := d.skip } := by
  obtain ⟨hlen, hval⟩ := accumulator_toNat hb
  have hword : accWord (decAfter s i d) = groupWord d.acc := congrArg₂ pack hlen hval
  have hstore := Buf.store_zero_append s.mem.out (d.groups.map groupWord) [groupWord d.acc]
  rw [List.length_map] at hstore
  unfold emitted
  rw [outlen_decAfter hg, hword]
  simp [decAfter, emptyAcc, hstore, bitsValue]

/-! ### The parts of DEC are those of the decoder over bit strings -/

/-- DEC with the parameters of `s` has come to this end, or to the state before window `n`. -/
def partOf (s : State) (n : Nat) : Except Ending Text → Part
  | .ok d => .ok (decAfter s n d)
  | .error (.missing j) => .error (.fault (.noValue .rx j))
  | .error (.stop e) => .error (.next (faultEntry .dec e.cause e.info (decAfter s e.window e.text)))

/-- The class of window `i` as it is read from RXBUF (R138). -/
def classRead (s : State) (i : Nat) : Except Nat ToneClass := (analyse (125 * i) (125 * i + 125) s).map Analysis.cls

/-- The action on a class (R139 to R141). -/
theorem windowAction_decAfter {s : State} {i : Nat} {d : Text} (h : Paced s.cfg.outDepth.val i d) (hs : d.skip = false)
    (c : ToneClass) : windowAction c i (decAfter s i d) =
      partOf s i ((decodeWindow s.strict s.cfg.outDepth.val i c d).mapError .stop) := by
  have hacc := accLen_decAfter_eq_zero_iff (s := s) (i := i) h.bits
  have hlen : (decAfter s i d).accLen.toNat = d.acc.length := (accumulator_toNat h.bits).1
  have hout := outlen_decAfter (i := i) h.room
  rcases decodeWindow_cases hs s.strict s.cfg.outDepth.val i c with ⟨e, ⟨rfl, ha⟩ | ⟨rfl, hstrict⟩⟩ |
    ⟨e, rfl, ha, hg⟩ | ⟨b, e, rfl, hl⟩ | ⟨_, _, e, hwhy⟩
  all_goals rw [e]
  · exact if_pos (hacc.2 ha)
  · exact if_neg (by rw [show (decAfter s i d).strict = false from hstrict]; decide)
  · have hemit : emit (decAfter s i d) = .ok (emitted (decAfter s i d)) := emit_fits (by rwa [hout])
    rw [windowAction, if_neg (mt hacc.1 ha), hemit]
    exact congrArg (fun t : State => Except.ok { t with skip := true }) (emitted_decAfter h.bits h.room i)
  · have happend : appendBit b i (decAfter s i d) = .ok (decAfter s i { d with acc := d.acc ++ [b] }) := by
      rw [appendBit_fits (by rwa [hlen]), bitAppended_decAfter h.bits]
    cases b <;> exact happend
  · rcases hwhy with ⟨rfl, rfl, rfl, ha, hg⟩ | ⟨rfl, rfl, hc, hl⟩ | ⟨rfl, rfl, rfl, hstrict⟩
    · have hemit : emit (decAfter s i d) = _ := emit_full (by rwa [hout])
      rw [windowAction, if_neg (mt hacc.1 ha), hemit]
      rfl
    · rcases hc with rfl | rfl <;> exact appendBit_full (by rwa [hlen])
    · exact if_pos hstrict

theorem analyse_decAfter (s : State) (i : Nat) (d : Text) (a b : Nat) : analyse a b (decAfter s i d) = analyse a b s :=
  analyse_congr rfl rfl rfl rfl

/-- The step of a window (R137, R138). -/
theorem windowStep_decAfter {s : State} {i : Nat} {d : Text} (h : Paced s.cfg.outDepth.val i d) :
    windowStep i (decAfter s i d) =
      partOf s (i + 1) (readWindow s.strict s.cfg.outDepth.val i (classRead s i) d) := by
  rcases windowStep_cases i (decAfter s i d) with ⟨hs, e⟩ | ⟨hs, j, ha, e⟩ | ⟨hs, r, ha, hact⟩
  · change d.skip = true at hs
    rw [e, readWindow_skipped hs]
    rfl
  · rw [analyse_decAfter] at ha
    rw [e, classRead, ha]
    exact (congrArg (partOf s (i + 1)) (readWindow_missing hs s.strict s.cfg.outDepth.val i j)).symm
  · rw [analyse_decAfter] at ha
    rw [classRead, ha]
    change _ = partOf s (i + 1) ((decodeWindow s.strict s.cfg.outDepth.val i r.cls d).mapError .stop)
    have key := windowAction_decAfter h hs r.cls
    rcases hact with ⟨o, ho, e⟩ | ⟨t, ht, e⟩
    · have ho : windowAction r.cls i (decAfter s i d) = .error o := ho
      rw [e, ← ho, key]
      cases hd : decodeWindow s.strict s.cfg.outDepth.val i r.cls d with
      | ok d' => rw [key, hd] at ho; cases ho
      | error stop => rfl
    · have ht : windowAction r.cls i (decAfter s i d) = .ok t := ht
      rw [e]
      cases hd : decodeWindow s.strict s.cfg.outDepth.val i r.cls d with
      | ok d' => rw [key, hd] at ht; cases ht; rfl
      | error stop => rw [key, hd] at ht; cases ht

theorem windowSteps_decAfter {s : State} {i : Nat} {d : Text} (h : Paced s.cfg.outDepth.val i d) (n : Nat) :
    windowSteps n i (decAfter s i d) = partOf s (i + n)
      (readWindows s.strict s.cfg.outDepth.val i ((List.range' i n).map (classRead s)) d) := by
  induction n generalizing i d with
  | zero => rfl
  | succ n ih =>
    rw [windowSteps, windowStep_decAfter h, List.range'_succ, List.map_cons, readWindows,
      ← Nat.succ_add_eq_add_succ i n]
    rcases h.readWindow s.strict (classRead s i) with ⟨d', e, hd⟩ | ⟨j, e⟩ | ⟨cause, info, e⟩ <;> rw [e]
    · exact ih hd
    · rfl
    · rfl

theorem flush_decAfter {s : State} {n : Nat} {d : Text} (h : Paced s.cfg.outDepth.val n d) :
    flush (decAfter s n d) = partOf s n ((flushText s.cfg.outDepth.val n d).mapError .stop) := by
  have hacc := accLen_decAfter_eq_zero_iff (s := s) (i := n) h.bits
  have hout := outlen_decAfter (i := n) h.room
  unfold flushText
  rcases flush_cases (decAfter s n d) with ⟨ha, e⟩ | ⟨ha, hg, e⟩ | ⟨ha, hg, e⟩ <;> rw [e]
  · rw [if_pos (hacc.1 ha)]
    rfl
  · rw [if_neg (mt hacc.2 ha), if_neg (by rwa [hout] at hg), emitted_decAfter h.bits h.room]
    rfl
  · rw [if_neg (mt hacc.2 ha), if_pos (by rwa [hout] at hg)]
    rfl

/-! ### DEC -/

/-- What DEC emits holds no empty group, so its conversion pass never stops it (R144). -/
theorem decodeAll_eq_flush {s : State} (h : Decoded s) :
    decodeAll s = (windowSteps s.wtotal.toNat 0 s).bind flush := by
  have hkeep := (windowSteps_induct (P := fun _ u => Decoded u) (fun _ _ _ hu e => hu.windowStep e)
    s.wtotal.toNat 0 s h).1
  unfold decodeAll
  cases hw : windowSteps s.wtotal.toNat 0 s with
  | error o => rfl
  | ok t =>
    change _ = flush t
    simp only
    cases hf : flush t with
    | error o => rfl
    | ok u => exact ((hkeep t hw).flush hf).1.conversion

theorem execDec_zero_rate {s : State} (h : s.srate = 0) :
    execDec s = .next (faultEntry .dec .contractViolation 1 { decodeStart s with wtotal := 0 }) := by
  unfold execDec
  exact if_pos h

theorem execDec_long_buffer {s : State} (h : s.srate ≠ 0) (hd : s.cfg.rxDepth.val < s.rxlen.toNat) :
    execDec s = .next (faultEntry .dec .contractViolation 5 { decodeStart s with wtotal := 0 }) := by
  unfold execDec
  exact (if_neg h).trans (if_pos hd)

/-- The number of windows of a state (R136). -/
abbrev windowsOf (s : State) : Nat := windowCount s.rxlen.toNat s.srate.toNat

/-- What the decoder over bit strings makes of a state. -/
def textRead (s : State) : Except Ending Text :=
  readText s.strict s.cfg.outDepth.val ((List.range (windowsOf s)).map (classRead s))

theorem wtotal_toNat {s : State} (hd : s.rxlen.toNat ≤ s.cfg.rxDepth.val) :
    (BitVec.ofNat 32 (windowsOf s)).toNat = windowsOf s :=
  (BitVec.toNat_ofNat ..).trans
    (Nat.mod_eq_of_lt (windowCount_lt _ _ (hd.trans_lt s.cfg.rxDepth.isLt)))

theorem decodeAll_decAfter {s : State} (hd : s.rxlen.toNat ≤ s.cfg.rxDepth.val) :
    decodeAll (decAfter s 0 startText) = partOf s (windowsOf s) (textRead s) := by
  have hstart : Decoded (decAfter s 0 startText) := by
    rw [decAfter_startText]
    exact { Decoded.decodeStart s with }
  have hpaced := Paced.startText s.cfg.outDepth.val
  rw [decodeAll_eq_flush hstart, show (decAfter s 0 startText).wtotal.toNat = windowsOf s from wtotal_toNat hd,
    windowSteps_decAfter hpaced, ← List.range_eq_range', textRead, readText, Nat.zero_add]
  have hlen : ((List.range (windowsOf s)).map (classRead s)).length = windowsOf s := by simp
  have hend := hpaced.readWindows s.strict ((List.range (windowsOf s)).map (classRead s))
  rw [hlen, Nat.zero_add] at hend
  rcases hend with ⟨d, e, hp⟩ | ⟨j, e⟩ | ⟨stop, e, -⟩ <;> rw [e]
  · rw [hlen]
    exact flush_decAfter hp
  · rfl
  · rfl

/-- The outcome of a command whose last part this is. -/
def outcome : Part → Host.Outcome State Fault Refusal
  | .ok t => .next t
  | .error o => o

/-- DEC with its operands in range does what the decoder over bit strings does (R145). -/
theorem execDec_eq {s : State} (h : s.srate ≠ 0) (hd : s.rxlen.toNat ≤ s.cfg.rxDepth.val) :
    execDec s = outcome (partOf s (windowsOf s) (textRead s)) := by
  rw [← decodeAll_decAfter hd, decAfter_startText]
  unfold execDec
  exact (if_neg h).trans (if_neg (Nat.not_lt.2 hd))

theorem textRead_cases (s : State) :
    (∃ d, textRead s = .ok d ∧ Finished s.cfg.outDepth.val (windowsOf s) d) ∨
      (∃ j, textRead s = .error (.missing j)) ∨
      ∃ e, textRead s = .error (.stop e) ∧ e.window ≤ windowsOf s ∧ Paced s.cfg.outDepth.val e.window e.text := by
  have h := readText_cases s.strict s.cfg.outDepth.val ((List.range (windowsOf s)).map (classRead s))
  rwa [List.length_map, List.length_range] at h

/-- Where every sample has a value, the decoder over bit strings is that of the statements. -/
theorem textRead_filled {s : State} (hf : s.mem.rx.Filled s.rxlen.toNat) :
    textRead s = (decodeText s.strict s.cfg.outDepth.val (windowClasses s)).mapError .stop := by
  have hclass : (List.range (windowsOf s)).map (classRead s) = (windowClasses s).map .ok := by
    rw [windowClasses, List.map_map]
    exact List.map_congr_left fun i _ => congrArg (Except.map Analysis.cls) (analyse_eq_windowResult hf _ _)
  rw [textRead, hclass, readText_map_ok]

/-- The registers after a decode without fault. -/
theorem decAfter_finished {s : State} {n : Nat} {d : Text} (h : Finished s.cfg.outDepth.val n d) (i : Nat) :
    (decAfter s i d).accLen = 0 ∧ (decAfter s i d).accVal = 0 ∧ (decAfter s i d).outlen.toNat = d.groups.length := by
  refine ⟨?_, ?_, outlen_decAfter h.room⟩ <;> simp [decAfter, h.empty, bitsValue]

theorem decAfter_read {s : State} {i j : Nat} {d : Text} {g : List Bool} (h : d.groups[j]? = some g) :
    (decAfter s i d).mem.out.read j = some (groupWord g) :=
  Buf.read_store_zero_of_get _ (by rw [List.getElem?_map, h]; rfl)

theorem decAfter_read_above {s : State} {i j : Nat} {d : Text} (h : d.groups.length ≤ j) :
    (decAfter s i d).mem.out.read j = s.mem.out.read j :=
  (Buf.read_store_zero ..).trans (if_neg (by rw [List.length_map]; omega))

/-- A DEC that records no fault has decoded a text. -/
theorem execDec_without_fault {s t : State} (h : execDec s = .next t) (hflag : t.faultFlag = false) :
    ∃ d, t = decAfter s (windowsOf s) d ∧ Finished s.cfg.outDepth.val (windowsOf s) d ∧
      t.wtotal.toNat = windowsOf s := by
  by_cases hsr : s.srate = 0
  · rw [execDec_zero_rate hsr] at h
    cases h
    cases hflag
  by_cases hd : s.rxlen.toNat ≤ s.cfg.rxDepth.val
  · rw [execDec_eq hsr hd] at h
    rcases textRead_cases s with ⟨d, e, hfin⟩ | ⟨j, e⟩ | ⟨stop, e, -⟩ <;> rw [e] at h <;> cases h
    · exact ⟨d, rfl, hfin, wtotal_toNat hd⟩
    · cases hflag
  · rw [execDec_long_buffer hsr (Nat.lt_of_not_le hd)] at h
    cases h
    cases hflag

/-! ### Silence -/

theorem decodeWindows_silence {cs : List ToneClass} (h : ∀ c ∈ cs, c = .silence) (strict : Bool) (depth i : Nat) :
    decodeWindows strict depth i cs startText = .ok startText := by
  induction cs generalizing i with
  | nil => rfl
  | cons c cs ih =>
    obtain ⟨rfl, hcs⟩ := List.forall_mem_cons.1 h
    exact ih hcs (i + 1)

theorem decodeText_silence {cs : List ToneClass} (h : ∀ c ∈ cs, c = .silence) (strict : Bool) (depth : Nat) :
    decodeText strict depth cs = .ok startText := by
  rw [decodeText_eq_bind, decodeWindows_silence h]
  rfl

/-- A window whose samples are all 0 is silent, whatever NUM is (R128 item 1, R125). -/
theorem windowResult_zeros {s : State} (h : ∀ n, n < s.rxlen.toNat → s.mem.rx.read n = some 0) (a b : Nat) :
    (windowResult s a b).2.2 = .silence := by
  unfold windowResult
  simp only
  split
  case isTrue => rfl
  case isFalse =>
    have hin := slice_inside s.srate.toNat a b s.rxlen.toNat
    have hzero : numPeak s.cfg.num (samplesAt s (slice s.srate.toNat a b s.rxlen.toNat).1
        (slice s.srate.toNat a b s.rxlen.toNat).2) = 0 := by
      refine numPeak_zeros _ _ fun v hv => ?_
      obtain ⟨i, hi, rfl⟩ := List.mem_map.1 hv
      rw [h _ (by have := List.mem_range.1 hi; omega)]
      rfl
    rw [hzero]
    rfl

/-! ### Two states with the same operands -/

/-- The operands of DEC and the fault registers, in which two states agree (R145). -/
structure SameOperands (s t : State) : Prop where
  cfg : s.cfg = t.cfg
  srate : s.srate = t.srate
  rxlen : s.rxlen = t.rxlen
  strict : s.strict = t.strict
  rx : s.mem.rx = t.mem.rx
  fault : SameFault t s

theorem SameOperands.windowsOf {s t : State} (h : SameOperands s t) : windowsOf s = windowsOf t := by
  rw [Machine.windowsOf, h.rxlen, h.srate]

theorem SameOperands.textRead {s t : State} (h : SameOperands s t) : textRead s = textRead t := by
  have hclass : classRead s = classRead t := by
    funext i
    rw [classRead, classRead, analyse_congr h.srate h.rxlen h.rx h.cfg]
  rw [Machine.textRead, Machine.textRead, h.windowsOf, h.strict, h.cfg, hclass]

/-- What the host can read of DEC's results (R145). -/
structure SameResults (s t : State) : Prop where
  outlen : s.outlen = t.outlen
  widx : s.widx = t.widx
  wtotal : s.wtotal = t.wtotal
  accLen : s.accLen = t.accLen
  accVal : s.accVal = t.accVal
  skip : s.skip = t.skip
  fault : SameFault t s
  groups : ∀ j, j < s.outlen.toNat → s.mem.out.read j = t.mem.out.read j

theorem SameOperands.decAfter {s t : State} (h : SameOperands s t) (i : Nat) (d : Text) :
    SameResults (decAfter s i d) (decAfter t i d) where
  outlen := rfl
  widx := rfl
  wtotal := congrArg (BitVec.ofNat 32) h.windowsOf
  accLen := rfl
  accVal := rfl
  skip := rfl
  fault := { h.fault with }
  groups j hj := by
    have hj' : j < d.groups.length := Nat.lt_of_lt_of_le hj ((BitVec.toNat_ofNat ..).trans_le (Nat.mod_le ..))
    have hget := List.getElem?_eq_getElem hj'
    rw [decAfter_read hget, decAfter_read hget]

theorem SameResults.faultEntry {s t : State} (h : SameResults s t) (c : Cause) (info : Nat) :
    SameResults (faultEntry .dec c info s) (faultEntry .dec c info t) :=
  { h with
    outlen := rfl
    fault := ⟨rfl, rfl, rfl⟩
    groups := fun j hj => absurd hj (Nat.not_lt_zero j) }

theorem SameOperands.decodeStart {s t : State} (h : SameOperands s t) :
    SameResults { decodeStart s with wtotal := 0 } { decodeStart t with wtotal := 0 } where
  outlen := rfl
  widx := rfl
  wtotal := rfl
  accLen := rfl
  accVal := rfl
  skip := rfl
  fault := { h.fault with }
  groups j hj := absurd hj (Nat.not_lt_zero j)

theorem SameOperands.execDec {s t u : State} (h : SameOperands s t) (e : execDec s = .next u) :
    ∃ v, execDec t = .next v ∧ SameResults u v := by
  by_cases hsr : s.srate = 0
  · rw [execDec_zero_rate hsr] at e
    cases e
    exact ⟨_, execDec_zero_rate (h.srate ▸ hsr), h.decodeStart.faultEntry ..⟩
  have hsr' : t.srate ≠ 0 := h.srate ▸ hsr
  by_cases hd : s.rxlen.toNat ≤ s.cfg.rxDepth.val
  · rw [execDec_eq hsr hd] at e
    rw [execDec_eq hsr' (h.rxlen ▸ h.cfg ▸ hd), ← h.textRead, ← h.windowsOf]
    rcases textRead_cases s with ⟨d, er, -⟩ | ⟨j, er⟩ | ⟨stop, er, -⟩ <;> rw [er] at e ⊢ <;> cases e
    · exact ⟨_, rfl, h.decAfter ..⟩
    · exact ⟨_, rfl, (h.decAfter ..).faultEntry ..⟩
  · rw [execDec_long_buffer hsr (Nat.lt_of_not_le hd)] at e
    cases e
    exact ⟨_, execDec_long_buffer hsr' (h.rxlen ▸ h.cfg ▸ Nat.lt_of_not_le hd), h.decodeStart.faultEntry ..⟩

end Sys2Proof.Machine

/-! ### The obligations -/

namespace Sys2Proof.Proofs

open Sys2Proof.Machine Sys2Proof.Claims

/-- Settles O24: a fault that an instruction records has another cause, and code 2 is MalformedBitGroup's alone. -/
theorem malformedBitGroupIsUnreachable : Obligations.MalformedBitGroupIsUnreachable := by
  intro i s t h hcode
  rcases exec_fault_cases h with hsame | ⟨c, info, u, hc, -, rfl⟩
  · rw [← hsame.code, hcode]
  · exact absurd ((Cause.code_eq_two_iff c).1 hcode) hc

/-- Settles O46: the checks in their order, then each part of DEC is that of the decoder over bit strings. -/
theorem decIsTheStringDecoder : Obligations.DecIsTheStringDecoder := by
  refine ⟨by decide, fun s => ⟨execDec_zero_rate, execDec_long_buffer, fun hsr hd hf => ?_⟩⟩
  have hdec := execDec_eq hsr hd
  have htotal := wtotal_toNat hd
  have hcases := textRead_cases s
  rw [textRead_filled hf] at hdec hcases
  refine ⟨fun d e => ?_, fun stop e => ?_⟩
  · rw [e] at hdec hcases
    rcases hcases with ⟨d', he, hfin⟩ | ⟨j, he⟩ | ⟨stop, he, -⟩ <;> cases he
    obtain ⟨hlen, hval, hout⟩ := decAfter_finished hfin (windowsOf s)
    exact ⟨_, hdec, hout, fun j g => decAfter_read, fun j => decAfter_read_above, rfl, hlen, hval, htotal, rfl, rfl,
      rfl, rfl, rfl, rfl⟩
  · rw [e] at hdec hcases
    rcases hcases with ⟨d, he, -⟩ | ⟨j, he⟩ | ⟨stop', he, hwindow, hpaced⟩ <;> cases he
    obtain ⟨hlen, hval⟩ := accumulator_toNat hpaced.bits
    have hw : (BitVec.ofNat 32 stop.window).toNat = stop.window := by
      have := (BitVec.ofNat 32 (windowsOf s)).isLt
      rw [BitVec.toNat_ofNat, Nat.mod_eq_of_lt (by omega)]
    exact ⟨_, hdec, ⟨rfl, rfl, rfl⟩, rfl, hw, htotal, rfl, hlen, hval, rfl,
      fun j => decAfter_read_above (i := stop.window), rfl⟩

/-- Settles O47: a fault of the decoder needs strict mode, 24 windows, or three windows for each group of OUTBUF. -/
theorem decCompletesOnShortBuffers : Obligations.DecCompletesOnShortBuffers := by
  intro s hsr hd hf hstrict h24 hroom
  have hlen : (windowClasses s).length = windowsOf s := by simp [windowClasses]
  obtain ⟨d, e⟩ :=
    decodeText_completes (depth := s.cfg.outDepth.val) (cs := windowClasses s) (hlen ▸ h24) (hlen ▸ hroom)
  have hdec := execDec_eq hsr hd
  have hcases := textRead_cases s
  rw [textRead_filled hf, hstrict, e] at hdec hcases
  rcases hcases with ⟨d', he, hfin⟩ | ⟨j, he⟩ | ⟨stop, he, -⟩ <;> cases he
  obtain ⟨hacc, hval, hout⟩ := decAfter_finished hfin (windowsOf s)
  exact ⟨_, hdec, rfl, rfl, wtotal_toNat hd, rfl, hacc, hval, hout.trans_le hfin.room, rfl⟩

/-- Settles O48: without a fault DEC has decoded a text, which has a group for every three windows or part of it; its
groups are well formed. -/
theorem decGroupsAreBounded : Obligations.DecGroupsAreBounded := by
  intro s t h hflag
  change execDec s = _ at h
  constructor
  · obtain ⟨d, rfl, hfin, htotal⟩ := execDec_without_fault h hflag
    rw [(decAfter_finished hfin _).2.2, htotal]
    exact hfin.pace
  · rcases execDec_cases s with ⟨c, info, u, e, -⟩ | ⟨u, e, -, hdecoded, -⟩ | ⟨j, e, -⟩ <;> rw [e] at h <;> cases h
    · cases hflag
    · exact hdecoded.groups

/-- Settles O49: every window is silent, so the decoder keeps its empty text. -/
theorem silenceDecodesToNothing : Obligations.SilenceDecodesToNothing := by
  intro s hsr hd hzero
  have hf : s.mem.rx.Filled s.rxlen.toNat := fun n hn => by rw [hzero n hn]; rfl
  have hsilent : ∀ c ∈ windowClasses s, c = .silence := fun c hc => by
    obtain ⟨i, -, rfl⟩ := List.mem_map.1 hc
    exact windowResult_zeros hzero _ _
  have hdec := execDec_eq hsr hd
  rw [textRead_filled hf, decodeText_silence hsilent] at hdec
  refine ⟨_, hdec, rfl, rfl, rfl, rfl, rfl, rfl, wtotal_toNat hd, ?_⟩
  change { s.mem with out := s.mem.out.store 0 [] } = s.mem
  rw [Buf.store_zero_nil]

/-- Settles O50: the decoder over bit strings reads the operands only, and its text gives every result. -/
theorem decDependsOnlyOnItsInputs : Obligations.DecDependsOnlyOnItsInputs := by
  intro s₁ s₂ t₁ hcfg hsrate hrxlen hstrict hrx hflag hcode hinfo h
  have hsame : SameOperands s₁ s₂ := ⟨hcfg, hsrate, hrxlen, hstrict, hrx, ⟨hflag, hcode, hinfo⟩⟩
  obtain ⟨t₂, h₂, hres⟩ := hsame.execDec h
  exact ⟨t₂, h₂, hres.outlen, hres.widx, hres.wtotal, hres.accLen, hres.accVal, hres.skip, hres.fault.flag,
    hres.fault.code, hres.fault.info, hres.groups⟩

end Sys2Proof.Proofs
end

section
/-! PROOFS of the family 44_system: what the host reads in a register, in the registers after a write, and in the
buffers; command issue; how a recorded fault is cleared. -/

namespace Sys2Proof.Machine

/-! ### The step that takes a register access (R155 to R157) -/

section
variable {s : State} {rest : List Input}

theorem step_regRead {i : Fin 32} (he : s.encOut = none) (hp : s.pending = .host (.regRead i) :: rest) :
    step s = .next { s with pending := rest, reply := some (regRead i s) } := step_input he hp

theorem step_command {w : Word} (he : s.encOut = none) (hp : s.pending = .host (.regWrite 0 w) :: rest) :
    step s = commandIssue w { s with pending := rest } := step_input he hp

theorem step_regWrite {i : Fin 32} {v : Word} (he : s.encOut = none)
    (hp : s.pending = .host (.regWrite i v) :: rest) (hi : i ≠ 0) :
    step s = .next (regWrite i v { s with pending := rest }) := (step_input he hp).trans (if_neg hi)

end

/-! ### The registers as the host reads them (R155) -/

theorem statusWord_toNat (s : State) : (statusWord s).toNat = s.faultFlag.toNat + 2 * s.skip.toNat := by
  unfold statusWord
  cases s.faultFlag <;> cases s.skip <;> rfl

theorem ctrlWord_toNat (s : State) : (ctrlWord s).toNat = s.strict.toNat := by
  unfold ctrlWord
  cases s.strict <;> rfl

theorem accWord_toNat (s : State) : (accWord s).toNat = s.accLen.toNat * 2 ^ 24 + s.accVal.toNat :=
  pack_toNat s.accLen.isLt s.accVal.isLt

/-- Every register has its reset value after a soft reset (R158, R45). -/
theorem regRead_softReset (k : Fin 32) (s : State) : regRead k (softReset s) = regRead k State.reset := rfl

/-! ### Writes to registers (R156) -/

theorem regWrite_softReset {v : Word} (hv : v.getLsbD 31 = true) (s : State) : regWrite 2 v s = softReset s :=
  if_pos hv

theorem regWrite_ctrl {v : Word} (hv : v.getLsbD 31 = false) (s : State) :
    regWrite 2 v s = { s with strict := v.getLsbD 0 } :=
  if_neg (by rw [hv]; decide)

/-- What a write other than to CMD and the soft reset shows in the registers: a read-write register takes the word, CTRL
its bit 0, and no other register changes. -/
theorem regRead_regWrite {i : Fin 32} {v : Word} (h : ¬(i = 2 ∧ v.getLsbD 31 = true)) (s : State) (k : Fin 32) :
    regRead k (regWrite i v s) =
      if k = i ∧ i ∈ ([5, 6, 7, 8, 9, 10, 11, 13] : List (Fin 32)) then v
      else if k = i ∧ i = 2 then v &&& 1
      else regRead k s := by
  rcases regWrite_cases i v s with ⟨rfl, -⟩ | ⟨rfl, e⟩ | ⟨rfl, e⟩ | ⟨rfl, e⟩ | ⟨rfl, e⟩ | ⟨rfl, e⟩ | ⟨rfl, e⟩ |
    ⟨rfl, e⟩ | ⟨rfl, e⟩ | ⟨hi, e⟩
  · rw [regWrite_ctrl (by simpa using h),
      show v &&& 1 = (BitVec.ofBool (v.getLsbD 0)).setWidth 32 from BitVec.and_one_eq_setWidth_ofBool_getLsbD]
    fin_cases k <;> rfl
  iterate 8
    · rw [e]
      fin_cases k <;> rfl
  · rw [e, if_neg fun hk => List.not_mem_of_not_mem_cons hi hk.2, if_neg fun hk => List.ne_of_not_mem_cons hi hk.2]

/-- A write that is not the soft reset leaves the marks alone and begins no ENC. -/
theorem regWrite_marks {i : Fin 32} {v : Word} (h : ¬(i = 2 ∧ v.getLsbD 31 = true)) (s : State) :
    (regWrite i v s).marks = s.marks ∧ (regWrite i v s).encOut = s.encOut := by
  rcases regWrite_cases i v s with ⟨rfl, -⟩ | ⟨-, e⟩ | ⟨-, e⟩ | ⟨-, e⟩ | ⟨-, e⟩ | ⟨-, e⟩ | ⟨-, e⟩ | ⟨-, e⟩ |
    ⟨-, e⟩ | ⟨-, e⟩
  · rw [regWrite_ctrl (by simpa using h)]
    exact ⟨rfl, rfl⟩
  all_goals
    rw [e]
    exact ⟨rfl, rfl⟩

/-! ### What clears a fault (R158, R176) -/

/-- While a fault is recorded, a step keeps it, unless it takes a hard reset or the soft reset. -/
theorem step_keeps_fault {s t : State} (hf : s.faultFlag = true) (he : s.encOut = none) (h : step s = .next t) :
    SameFault s t ∨ ∃ rest, s.pending = .hardReset :: rest ∨
      ∃ v : Word, v.getLsbD 31 = true ∧ s.pending = .host (.regWrite 2 v) :: rest := by
  rcases step_cases h with ⟨hne, -⟩ | ⟨-, -, rfl⟩ | ⟨inp, rest, -, hp, h⟩
  · exact absurd he hne
  · exact .inl ⟨rfl, rfl, rfl⟩
  rcases takeInput_cases h with ⟨rfl, -⟩ | ⟨r, rfl⟩ | ⟨i, v, rfl, -, rfl⟩ | ⟨b, j, v, -, rfl⟩ | ⟨w, -, h⟩
  · exact .inr ⟨rest, .inl hp⟩
  · exact .inl ⟨rfl, rfl, rfl⟩
  · by_cases hreset : i = 2 ∧ v.getLsbD 31 = true
    · obtain ⟨rfl, hv⟩ := hreset
      exact .inr ⟨rest, .inr ⟨v, hv, hp⟩⟩
    · obtain ⟨hflag, hcode, hinfo⟩ := regWrite_fault i v { s with pending := rest } hreset
      exact .inl ⟨hflag, hcode, hinfo⟩
  · obtain ⟨hflag, hcode, hinfo, -⟩ := bufWrite_faultFlag b j v { s with pending := rest }
    exact .inl ⟨hflag, hcode, hinfo⟩
  · cases (commandIssue_dropped (s := { s with pending := rest }) hf).symm.trans h
    exact .inl ⟨rfl, rfl, rfl⟩

/-! ### Accesses to buffers (R159) -/

theorem hostWritable_iff (b : BufId) : b.hostWritable = true ↔ b = .msg ∨ b = .sym ∨ b = .rx := by
  cases b <;> decide

section
variable {b : BufId} {j : Nat} (s : State)

theorem bufWrite_unwritable (h : ¬(j < depthOf s.cfg b ∧ b.hostWritable = true)) (v : BitVec b.width) :
    bufWrite b j v s = s :=
  bufWrite_ignored b j v s ((not_and_or.1 h).imp Nat.le_of_not_lt Bool.eq_false_of_not_eq_true)

/-- A write to one element changes no other mark. -/
theorem bufWrite_has_other {b' : BufId} {j' : Nat} (hne : ¬(b' = b ∧ j' = j)) (v : BitVec b.width) :
    (bufWrite b j v s).marks.has b' j' = s.marks.has b' j' := by
  by_cases hw : j < depthOf s.cfg b ∧ b.hostWritable = true
  · rw [bufWrite_has b j v s hw.1 hw.2, decide_eq_false hne, Bool.false_or]
  · rw [bufWrite_unwritable s hw]

/-- The element written is marked as the host's. -/
theorem bufWrite_has_same (hj : j < depthOf s.cfg b) (hb : b.hostWritable = true) (v : BitVec b.width) :
    (bufWrite b j v s).marks.has b j = true := by
  rw [bufWrite_has b j v s hj hb, decide_eq_true ⟨rfl, rfl⟩, Bool.true_or]

theorem bufRead_beyond (h : depthOf s.cfg b ≤ j) : bufRead b j s = .next { s with reply := none } := if_pos h

theorem readable_iff : readable b j s = true ↔
    j < (lengthOf b s).toNat ∨ (s.marks.has b j = true ∧ ¬(b = .sym ∧ s.scrRan = true)) := by
  simp only [readable, Bool.or_eq_true, decide_eq_true_eq, Bool.and_eq_true, Bool.not_eq_true', ← Bool.not_eq_true]

end

end Sys2Proof.Machine

/-! ### The obligations -/

namespace Sys2Proof.Proofs

open Sys2Proof.Machine

/-- Settles O6: the step is the soft reset of the state with the input taken; and no other step with a fault recorded
but a hard reset changes the fault registers. -/
theorem softResetFollowsItsRule : Obligations.SoftResetFollowsItsRule := by
  refine ⟨fun s v rest he hp hv => ?_, fun s t hf he h hclear => ?_⟩
  · refine ⟨softReset { s with pending := rest }, ?_, fun i => regRead_softReset i _, rfl, rfl, rfl, rfl, rfl, rfl, rfl,
      rfl, fun b j => readable_softReset b j _⟩
    rw [step_regWrite he hp (by decide), regWrite_softReset hv]
  · rcases step_keeps_fault hf he h with hsame | hreset
    · cases hclear.symm.trans (hsame.flag.trans hf)
    · exact hreset

/-- Settles O9: CMD issues, CTRL may reset, and what any other write shows is read back register by register. -/
theorem regWriteFollowsItsTable : Obligations.RegWriteFollowsItsTable := by
  intro s i v rest he hp
  refine ⟨?_, ?_, fun hcmd hreset => ?_⟩
  · rintro rfl
    exact step_command he hp
  · rintro rfl hv
    rw [step_regWrite he hp (by decide), regWrite_softReset hv]
  · obtain ⟨hcfg, hmem, hpending, hreply, hran⟩ := regWrite_kept i v { s with pending := rest }
    obtain ⟨hmarks, hout⟩ := regWrite_marks hreset { s with pending := rest }
    exact ⟨_, step_regWrite he hp hcmd, hmem, hcfg, hpending, hout.trans he, hreply, hran, hmarks,
      regRead_regWrite hreset { s with pending := rest }⟩

/-- Settles O11, by the laws of the write and of the read, in the state with the access taken. -/
theorem bufferAccessFollowsItsRule : Obligations.BufferAccessFollowsItsRule := by
  refine ⟨fun s b j v rest he hp => ?_, fun s b j rest he hp => ?_⟩
  · have hkept := bufWrite_kept b j v { s with pending := rest }
    rw [← hostWritable_iff]
    refine ⟨_, step_input he hp, (congrArg ({ · with pending := s.pending }) hkept :),
      (congrArg State.pending hkept :), fun b' j' hne => ⟨?_, ?_⟩, fun ⟨hj, hb⟩ => ⟨?_, ?_⟩, fun h => ?_⟩
    · exact bufWrite_read_other b j v _ b' j' hne
    · exact bufWrite_has_other { s with pending := rest } hne v
    · exact bufWrite_read_same b j v _ hj hb
    · exact bufWrite_has_same { s with pending := rest } hj hb v
    · rw [bufWrite_unwritable { s with pending := rest } h]
      exact ⟨rfl, rfl⟩
  · have hs : step s = bufRead b j { s with pending := rest } := step_input he hp
    rw [hs]
    exact ⟨bufRead_beyond { s with pending := rest }, fun hj hr v hv =>
      ⟨_, bufRead_value hj hv ((readable_iff _).2 hr), element_setWidth_toNat b v⟩⟩

/-- Settles O8: the reply is the register, of which STATUS, CTRL, FAULTCODE, DCLASS and ACC are made of fields. -/
theorem regReadReturnsTheRegister : Obligations.RegReadReturnsTheRegister := by
  intro s i rest he hp
  refine ⟨_, step_regRead he hp, ?_, fun h => regRead_reserved h s, ?status, ?ctrl, ?faultcode, ?_, ?_, ?_, ?_, ?_, ?_,
    ?_, ?_, ?_, ?_, ?_, ?_, ?_, ?dclass, ?_, ?_, ?_, ?acc⟩
  case status =>
    rintro rfl
    exact statusWord_toNat s
  case ctrl =>
    rintro rfl
    exact ctrlWord_toNat s
  case faultcode =>
    rintro rfl
    exact BitVec.toNat_setWidth_of_le (by decide)
  case dclass =>
    rintro rfl
    exact BitVec.toNat_setWidth_of_le (by decide)
  case acc =>
    rintro rfl
    exact accWord_toNat s
  all_goals
    rintro rfl
    rfl

/-- Settles O13: a word that decodes is issued, and runs its instruction where no fault is recorded. -/
theorem stepRunsTheIssuedCommand : Obligations.StepRunsTheIssuedCommand := by
  intro s w i rest he hp hf hd
  rw [step_command he hp]
  exact commandIssue_ok hf hd

end Sys2Proof.Proofs
end

section
/-! PROOFS of the family 60_exceptions: the illegal command word, the dropped command word, and what the fault of an
instruction records and discards. -/

namespace Sys2Proof.Machine

/-! ### A word that is no command (R73, R172) -/

/-- The words of the table are 1 to 5 (R72). -/
theorem toNat_of_mem_commandRows {w : Word} {i : Instr} (h : (w, i) ∈ commandRows) : 1 ≤ w.toNat ∧ w.toNat ≤ 5 := by
  rcases (mem_commandRows_iff w i).1 h with ⟨rfl, -⟩ | ⟨rfl, -⟩ | ⟨rfl, -⟩ | ⟨rfl, -⟩ | ⟨rfl, -⟩ <;> decide

/-- A word that is in no row of the command table is rejected by name (R73). -/
theorem decodeCommand_eq_error {w : Word} (h : ∀ i, (w, i) ∉ commandRows) :
    decodeCommand w = .error (.illegalCommand w) := by
  have hnone : lookupRow commandRows w = none :=
    Option.eq_none_iff_forall_ne_some.2 fun i hi => h i ((lookupRow_eq_some_iff (by decide) w i).1 hi)
  rw [decodeCommand, hnone]

theorem commandIssue_illegal {w : Word} {r : Reject} {s : State} (hf : s.faultFlag = false)
    (hd : decodeCommand w = .error r) :
    commandIssue w s = .next (faultEntry .issue .illegalCommand w.toNat s) := by
  unfold commandIssue
  rw [hf, hd]
  rfl

/-! ### The fault of an instruction (R165, R174) -/

/-- FAULTCODE of every cause but IllegalCommand lies in 1 to 6 (R165). -/
theorem Cause.code_range_of_ne_illegalCommand {c : Cause} (h : c ≠ .illegalCommand) :
    1 ≤ c.code.toNat ∧ c.code.toNat ≤ 6 := by
  cases c with
  | illegalCommand => exact absurd rfl h
  | _ => decide

/-- An instruction that goes from no fault to a recorded one ends in the fault entry of its command. -/
theorem exec_newly_faults {i : Instr} {s t : State} (h : exec i s = .next t) (hs : s.faultFlag = false)
    (ht : t.faultFlag = true) : FaultOf (running i) t := by
  rcases exec_fault_cases h with hsame | hfault
  · cases ht.symm.trans (hsame.flag.trans hs)
  · exact hfault

end Sys2Proof.Machine

/-! ### The obligations -/

namespace Sys2Proof.Proofs

open Sys2Proof.Machine

/-- Settles O23: the new state is the fault entry of the instruction's command, which discards that command's outputs. -/
theorem faultDiscardsTheOutputs : Obligations.FaultDiscardsTheOutputs := by
  intro i s t h hs ht
  obtain ⟨c, info, u, -, hc, rfl⟩ := exec_newly_faults h hs ht
  obtain ⟨hlow, hhigh⟩ := Cause.code_range_of_ne_illegalCommand hc
  refine ⟨hlow, hhigh, rfl, ?txlen, ?symlen, ?detection, ?outlen⟩
  case txlen => rintro (rfl | rfl | rfl | rfl | rfl) <;> rfl
  case symlen =>
    rintro rfl
    rfl
  case detection =>
    rintro rfl
    exact ⟨rfl, rfl, rfl⟩
  case outlen =>
    rintro rfl
    rfl

/-- Settles O17: command issue drops the word, and only a reset among the inputs changes the fault registers. -/
theorem faultIsSticky : Obligations.FaultIsSticky := by
  refine ⟨fun s w rest hf he hp => ?_, fun s t hf he h => ?_⟩
  · exact (step_command he hp).trans (commandIssue_dropped hf)
  · exact (step_keeps_fault hf he h).imp_left fun hsame => ⟨hsame.flag.trans hf, hsame.code, hsame.info⟩

/-- Settles O16: the word is in no row of R72, and the fault entry of command issue discards nothing. -/
theorem illegalWordIsRecorded : Obligations.IllegalWordIsRecorded := by
  intro s w rest he hp hf hw
  have hd : decodeCommand w = .error (.illegalCommand w) :=
    decodeCommand_eq_error fun i hi => by
      have := toNat_of_mem_commandRows hi
      omega
  calc step s = commandIssue w { s with pending := rest } := step_command he hp
    _ = .next (faultEntry .issue .illegalCommand w.toNat { s with pending := rest }) := commandIssue_illegal hf hd
    _ = .next { s with pending := rest, faultFlag := true, faultCode := 7, faultInfo := w } := by
      rw [faultEntry_issue, BitVec.ofNat_toNat, BitVec.setWidth_eq, he]
      rfl

end Sys2Proof.Proofs
end

section
/-! PROOFS of the family 70_reset_and_hazards: the two resets, waiting, and the end of a run. -/

namespace Sys2Proof.Machine

/-! ### Reset (R45, R190, R191) -/

/-- No element of empty buffers has a value. -/
theorem Memory.read_empty (b : BufId) (j : Nat) : Memory.empty.read b j = none := by cases b <;> rfl

/-- SRATE is 44100 after reset, and every other register 0 (R191). -/
theorem regRead_reset (i : Fin 32) : regRead i State.reset = if i = 5 then 44100 else 0 := by
  fin_cases i <;> rfl

/-- The hard reset is the soft reset of the state with its buffers emptied. -/
theorem hardReset_eq (s : State) : hardReset s = softReset { s with mem := Memory.empty, scrRan := false } := rfl

/-- Every register has its reset value after a hard reset (R190). -/
theorem regRead_hardReset (i : Fin 32) (s : State) : regRead i (hardReset s) = regRead i State.reset := by
  rw [hardReset_eq, regRead_softReset]

/-- After a hard reset no element is valid (R45). -/
theorem readable_hardReset (b : BufId) (j : Nat) (s : State) : readable b j (hardReset s) = false := by
  rw [hardReset_eq, readable_softReset]

/-! ### The end of a run (R193, R194) -/

/-- The block waits in an ended run. -/
theorem State.Ended.step_eq {s : State} (h : s.Ended) : step s = .next s := step_idle h.2 h.1

theorem State.Ended.run_eq {s : State} (h : s.Ended) (k : Nat) : core.run k s = .next s := run_idle h.2 h.1

/-- A run of host operations that has ended after any number of steps had ended after as many as it has operations. -/
theorem run_length_of_ended {ops : List HostOp} {s t : State} {k : Nat} (he : s.encOut = none)
    (hp : s.pending = ops.map Input.host) (h : core.run k s = .next t) (ht : t.Ended) :
    core.run ops.length s = .next t := by
  obtain ⟨hends, hnot⟩ := run_operations he hp
  have hk : ops.length ≤ k := Nat.le_of_not_lt fun hk => hnot k t hk h ht
  obtain ⟨m, rfl⟩ := Nat.exists_eq_add_of_le hk
  obtain ⟨u, hu, hm⟩ := (run_add_iff ops.length m s t).1 h
  cases ((hends u hu).run_eq m).symm.trans hm
  exact hu

theorem runEndsIn_iff {ops : List HostOp} {s : State} (he : s.encOut = none) (t : State) :
    RunEndsIn ops s t ↔ core.run ops.length { s with pending := ops.map Input.host } = .next t :=
  ⟨fun ⟨_, h, ht⟩ => run_length_of_ended he rfl h ht, fun h =>
    ⟨_, h, (run_operations (s := { s with pending := ops.map Input.host }) he rfl).1 t h⟩⟩

/-- Bit 0 of STATUS is FAULT (R12). -/
theorem status_bit0_eq_zero_iff (s : State) : regRead 1 s &&& 1 = 0 ↔ s.faultFlag = false := by
  have h : (regRead 1 s).toNat = s.faultFlag.toNat + 2 * s.skip.toNat := statusWord_toNat s
  rw [← BitVec.toNat_inj, BitVec.toNat_and, h]
  cases s.faultFlag <;> cases s.skip <;> decide

end Sys2Proof.Machine

/-! ### The obligations -/

namespace Sys2Proof.Proofs

open Sys2Proof.Machine

/-- Settles O52: each operation takes one step, and an ended run waits, so no further step changes where it ended. -/
theorem runEndsWithItsLastOperation : Obligations.RunEndsWithItsLastOperation := by
  intro s ops he
  obtain ⟨-, hnot⟩ := run_operations (s := { s with pending := ops.map Input.host }) he rfl
  refine ⟨runEndsIn_iff he, hnot, ?_, fun t => ?_⟩
  · rintro t ⟨_, _, ht⟩
    exact ht.step_eq
  · exact and_congr_right' (status_bit0_eq_zero_iff t).symm

/-- Settles O5, register by register and buffer by buffer; nothing is pending after reset, so the block waits. -/
theorem resetLeavesTheStatedValues : Obligations.ResetLeavesTheStatedValues :=
  ⟨regRead_reset, rfl, Memory.read_empty, step_idle rfl rfl⟩

/-- Settles O7: the step is the hard reset of the state with the input taken. -/
theorem hardResetEmptiesTheBuffers : Obligations.HardResetEmptiesTheBuffers := by
  intro s rest he hp
  exact ⟨hardReset { s with pending := rest }, step_input he hp, fun i => regRead_hardReset i _,
    fun b j => ⟨Memory.read_empty b j, readable_hardReset b j _⟩, rfl, rfl, rfl, rfl⟩

/-- Settles O15: the step is idle. -/
theorem blockWaitsForTheHost : Obligations.BlockWaitsForTheHost := fun _ he hp => step_idle he hp

end Sys2Proof.Proofs
end
